-- ==== Sys2Proof/Config.lean ====
section
/-! DEFINITION. The parameters of the AZ19 VM core (00_scope.md rules R3, R4, R5).  `XLEN`, the width in
bits of a word, is an argument of the whole model, as R3 asks; its default is 64, the value this
hardware takes, so a type or a parameter written without it is this hardware's.  The spec leaves no value of the machine
open that a free value would have to stand for: 92_eei_decisions.md decides every point the source is
silent on, so this file declares no opaque constant. -/

namespace Sys2Proof.Config

/-- R3: the smallest word, `-2^(XLEN-1)`. -/
def WMIN (XLEN : Nat := 64) : Int := -2 ^ (XLEN - 1)

/-- R3: the largest word, `2^(XLEN-1) - 1`. -/
def WMAX (XLEN : Nat := 64) : Int := 2 ^ (XLEN - 1) - 1

/-- R4: `ADDR_MAX = WMAX = 2^(XLEN-1) - 1`, the largest memory address. -/
def ADDR_MAX (XLEN : Nat := 64) : Nat := 2 ^ (XLEN - 1) - 1

/-- R5: at most three operands in an instruction. -/
def MAXOPS : Nat := 3

/-- 10_state.md rule R21, 45_halt.md rule R160: the halt word, compared as a whole word. -/
def HALT_WORD : Nat := 99

end Sys2Proof.Config
end

