-- ==== Sys2Proof/Word.lean ====
section
/-! DEFINITION. The word: a signed two's complement integer of `XLEN` bits (00_scope.md rule R3), the
content of every memory cell, of IP, of RB and of every channel element.  `BitVec.toInt` is its value
as a signed integer.  There is nothing smaller than a word (20_memory.md rules R40, R48, R50). -/

namespace Sys2Proof

/-- A word of `XLEN` bits, 64 for this hardware. -/
abbrev Word (XLEN : Nat := 64) := BitVec XLEN

end Sys2Proof
end

