-- ==== Sys2Proof/Machine/State.lean ====
section
/-! DEFINITION. The architectural state of one instance, exactly the list of 10_state.md rule R10, as
plain data, for any width `XLEN` (R3); the spec's faults; and the state after reset (R27, R240).  R25:
the phase inside a step is not state.  R21, R24: `halted` and the run status are functions of the state
(Machine/Status.lean). -/

namespace Sys2Proof.Machine

/-- R40, R48: one cell of the tape: its address and the word it holds. -/
abbrev Cell (XLEN : Nat := 64) := Nat × Word XLEN

/-- R18, R43: the tape, as the list of the cells that do not hold 0, addresses rising.  An address that
is not listed reads as 0, the reset content of every cell outside the program image. -/
abbrev Memory (XLEN : Nat := 64) := List (Cell XLEN)

/-- R200: the four faults of the machine, `c(k)` with the operand index `k` that FINFO takes.  They are
what `raise` latches into FAULT and FINFO (Machine/Ops.lean); the machine goes on in the latched state,
so no step answers `Host.Outcome.fault`. -/
inductive Fault where
  /-- R201, code 1: the word at IP selects no instruction.  Raised by the fetch of a step.  Safe: the
  spec's own effect is taken (the latch). -/
  | invalidOpcode
  /-- R202, code 2: mode digit 3 to 9 on operand `k`.  Raised by the fetch of a step.  Safe: the spec's
  own effect. -/
  | invalidMode (k : BitVec 2)
  /-- R203, code 3: destination operand `k` in immediate mode.  Raised by the fetch of a step, and by the
  meanings of ADD, MUL, IN, LT, EQ on an ill-formed term.  Safe: the spec's own effect. -/
  | invalidDestination (k : BitVec 2)
  /-- R204, code 4: an address outside `0..ADDR_MAX`: of operand `k`, of a jump target (`k = 2`), or of
  IP itself (`k = 0`).  Raised by the fetch of a step and by every meaning but HALT's.  Safe: the
  spec's own effect. -/
  | invalidAddress (k : BitVec 2)
deriving DecidableEq, Repr

/-- Why a step has no meaning in the model.  No instruction is refused. -/
inductive Refusal where
  /-- Raised by an arm of `exec` whose instruction has no meaning yet; none is left.  Safe. -/
  | notModelled (mnemonic : String)
deriving DecidableEq, Repr

/-- R10: the architectural state of one instance. -/
structure State (XLEN : Nat := 64) where
  /-- R18: the memory tape, code and data. -/
  Mem   : Memory XLEN
  /-- R12: the instruction pointer, a word that always holds an address. -/
  IP    : Word XLEN
  /-- R15: the relative base, a signed word. -/
  RB    : Word XLEN
  /-- R16: the fault latch, the code of the fault that stopped the core, 0 for none. -/
  FAULT : BitVec 3
  /-- R17: the operand index of the latched fault. -/
  FINFO : BitVec 2
  /-- R19: the input channel, oldest word first. -/
  INQ   : List (Word XLEN)
  /-- R20: the output channel, oldest word first. -/
  OUTQ  : List (Word XLEN)
  /-- R23: the current length of the tape, a hidden counter (assumption log 4). -/
  MLEN  : Nat
deriving DecidableEq, Repr

/-- R27, R240 with the empty program image (R171, D23), at any width: every field at its reset value. -/
def State.resetAt (XLEN : Nat) : State XLEN :=
  { Mem := [], IP := 0#XLEN, RB := 0#XLEN, FAULT := 0#3, FINFO := 0#2, INQ := [], OUTQ := [],
    MLEN := 0 }

/-- R27, R240: this hardware right after reset with the empty program image.  A program is loaded from
outside the machine (assumption log 6). -/
def State.reset : State := State.resetAt 64

end Sys2Proof.Machine
end

