-- ==== Sys2Proof/Machine/Flags.lean ====
section
/-! DEFINITION. The core has no status flags (10_state.md rule R22): no instruction sets one, and a
condition travels through memory.  This file holds what stands in their place: the results ADD, MUL
and ARB compute (41_arithmetic_compare.md rule R125), the 0 or 1 word of the comparisons (R122, R123),
the condition tests of the jumps (R140, R141), and the overflow predicate R125 lets a model carry,
which is no state. -/

namespace Sys2Proof.Machine

variable {XLEN : Nat}

/-- 00_scope.md section 5, R125: `wrap(v)`, the low `XLEN` bits of an integer, read as signed. -/
def wrap (v : Int) : Word XLEN := BitVec.ofInt XLEN v

/-- R120: the exact sum, wrapped. -/
def addWords (x y : Word XLEN) : Word XLEN := wrap (x.toInt + y.toInt)

/-- R121: the exact product, wrapped. -/
def mulWords (x y : Word XLEN) : Word XLEN := wrap (x.toInt * y.toInt)

/-- R122: 1 if `x < y` as signed integers, else 0. -/
def lessWord (x y : Word XLEN) : Word XLEN := if x.toInt < y.toInt then 1#XLEN else 0#XLEN

/-- R123: 1 if the two words are equal, else 0. -/
def equalWord (x y : Word XLEN) : Word XLEN := if x.toInt = y.toInt then 1#XLEN else 0#XLEN

/-- R140: the condition of JT: anything but 0 is true. -/
def conditionTrue (x : Word XLEN) : Bool := decide (x.toInt ≠ 0)

/-- R141: the condition of JF. -/
def conditionFalse (x : Word XLEN) : Bool := decide (x.toInt = 0)

/-- R125: `overflowed := (exact result != stored result)`.  The machine does not compute it; a claim may
name it (Safety.lean). -/
def overflowed (XLEN : Nat) (exact : Int) : Bool := decide ((wrap exact : Word XLEN).toInt ≠ exact)

end Sys2Proof.Machine
end

