-- ==== Sys2Proof/Machine/Ops.lean ====
section
/-! DEFINITION. The named operations over the tape and the registers, and taking a fault
(20_memory.md rules R40 to R60, 60_exceptions.md rules R200 to R209). -/

namespace Sys2Proof.Machine

variable {XLEN : Nat}

/-! ## The tape -/

/-- R43: the content of a cell; a cell never written and not loaded holds 0. -/
def Memory.read : Memory XLEN → Nat → Word XLEN
  | [], _ => 0#XLEN
  | (k, v) :: m, a => if k = a then v else Memory.read m a

/-- R43: cell `a` takes the word `v`.  The list keeps its form: writing 0 removes the entry. -/
def Memory.write : Memory XLEN → Nat → Word XLEN → Memory XLEN
  | [], a, v => if v = 0#XLEN then [] else [(a, v)]
  | (k, w) :: m, a, v =>
    if a < k then (if v = 0#XLEN then (k, w) :: m else (a, v) :: (k, w) :: m)
    else if a = k then (if v = 0#XLEN then m else (a, v) :: m)
    else (k, w) :: Memory.write m a v

/-- The canonical form of a tape whose addresses start at `lo` or above. -/
def Memory.wfFrom : Nat → Memory XLEN → Bool
  | _, [] => true
  | lo, (k, v) :: m =>
    decide (lo ≤ k) && decide (k ≤ Config.ADDR_MAX XLEN) && decide (v ≠ 0#XLEN) &&
      Memory.wfFrom (k + 1) m

/-- The canonical form of the tape: addresses strictly rising, each in `0..ADDR_MAX` (R42), no entry
equal to what an unlisted address reads as (0, R43). -/
def Memory.wf (m : Memory XLEN) : Bool := Memory.wfFrom 0 m

/-- The `n` words of the tape from address `a` on. -/
def Memory.words (m : Memory XLEN) (a : Nat) : Nat → List (Word XLEN)
  | 0 => []
  | n + 1 => m.read a :: Memory.words m (a + 1) n

/-! ## Accesses and the hidden length -/

/-- R23, R44: an access to address `a`, read or write, makes `MLEN` at least `a + 1`. -/
def State.touch (s : State XLEN) (a : Nat) : State XLEN := { s with MLEN := max s.MLEN (a + 1) }

/-- R43: `MemWrite(a, 1, v)`; it never faults.  The caller has checked that `a` is legal (R46). -/
def State.store (s : State XLEN) (a : Nat) (v : Word XLEN) : State XLEN :=
  { s with Mem := s.Mem.write a v, MLEN := max s.MLEN (a + 1) }

/-- R42: the check made on every address the core forms: `0 <= a <= ADDR_MAX`, on the exact integer. -/
def legalAddress (XLEN : Nat) (x : Int) : Option Nat :=
  if 0 ≤ x ∧ x ≤ (Config.ADDR_MAX XLEN : Int) then some x.toNat else none

/-! ## Registers and channels -/

/-- R12, R13: the one write of IP, at the commit of a step.  `a` is a legal address. -/
def State.setIP (s : State XLEN) (a : Nat) : State XLEN := { s with IP := BitVec.ofNat XLEN a }

/-- R15: the one write of RB, by ARB. -/
def State.setRB (s : State XLEN) (v : Word XLEN) : State XLEN := { s with RB := v }

/-- R20, R131: append to the end of the output channel. -/
def State.pushOutput (s : State XLEN) (v : Word XLEN) : State XLEN :=
  { s with OUTQ := s.OUTQ ++ [v] }

/-- R19, R130: replace the input channel (by its tail, by IN). -/
def State.setINQ (s : State XLEN) (q : List (Word XLEN)) : State XLEN := { s with INQ := q }

/-! ## Taking a fault -/

/-- R200: the code a fault has in FAULT. -/
def Fault.code : Fault → BitVec 3
  | .invalidOpcode => 1#3
  | .invalidMode _ => 2#3
  | .invalidDestination _ => 3#3
  | .invalidAddress _ => 4#3

/-- R17, R200: the operand index a fault has in FINFO. -/
def Fault.info : Fault → BitVec 2
  | .invalidOpcode => 0#2
  | .invalidMode k => k
  | .invalidDestination k => k
  | .invalidAddress k => k

/-- R207: fault entry.  It sets FAULT and FINFO and does nothing else: nothing is saved, no mode
changes, control goes nowhere.  R209: there is no return from a fault; the only way out is reset
(`State.new`, Machine/HostOps.lean), so no operation undoes it. -/
def State.raise (s : State XLEN) (f : Fault) : State XLEN := { s with FAULT := f.code, FINFO := f.info }

/-! ## Committing a step -/

/-- R108, stage 8 of R100, for an instruction of `w` words that does not jump: the successor is
`IP + w`; if it lies above `ADDR_MAX` the step raises `InvalidAddress(0)` in `before` (the state in
which no effect has been written yet), otherwise `after` is committed with IP advanced. -/
def retire (w : Nat) (before after : State XLEN) : Host.Outcome (State XLEN) Fault Refusal :=
  if before.IP.toNat + w ≤ Config.ADDR_MAX XLEN then .next (after.setIP (before.IP.toNat + w))
  else .next (before.raise (.invalidAddress 0))

end Sys2Proof.Machine
end

