-- ==== Sys2Proof/Syntax.lean ====
section
/-! DEFINITION. The instructions of the AZ19 VM core: ten, one constructor per row of
spec/opcode_table.json (30_encoding.md rules R74, R77).  An operand is "a pair (raw value, addressing
mode)" (00_scope.md section 7). -/

namespace Sys2Proof

/-- R73: the three addressing modes. -/
inductive Mode where
  /-- Digit 0: the raw value is a memory address. -/
  | position
  /-- Digit 1: the raw value is the literal operand (sources only). -/
  | immediate
  /-- Digit 2: raw value + relative base is a memory address. -/
  | relative
deriving DecidableEq, Repr

/-- R73, R76: an operand: its addressing mode and its raw value, the whole word of its operand cell. -/
structure Operand (XLEN : Nat := 64) where
  mode : Mode
  raw  : Word XLEN
deriving DecidableEq, Repr

/-- R74: the ten instructions, operands in encoding order (sources first, destination last). -/
inductive Instr (XLEN : Nat := 64) where
  /-- ADD `a, b, d` (opcode 1, R120). -/
  | add (a b d : Operand XLEN)
  /-- MUL `a, b, d` (opcode 2, R121). -/
  | mul (a b d : Operand XLEN)
  /-- IN `d` (opcode 3, R130). -/
  | inp (d : Operand XLEN)
  /-- OUT `a` (opcode 4, R131). -/
  | out (a : Operand XLEN)
  /-- JT `c, t` (opcode 5, R140). -/
  | jt (c t : Operand XLEN)
  /-- JF `c, t` (opcode 6, R141). -/
  | jf (c t : Operand XLEN)
  /-- LT `a, b, d` (opcode 7, R122). -/
  | lt (a b d : Operand XLEN)
  /-- EQ `a, b, d` (opcode 8, R123). -/
  | eq (a b d : Operand XLEN)
  /-- ARB `a` (opcode 9, R150). -/
  | arb (a : Operand XLEN)
  /-- HALT (the whole word 99, R160). -/
  | halt
deriving DecidableEq, Repr

variable {XLEN : Nat}

/-- R74, `NOPS`: the operand count of an instruction. -/
def Instr.operandCount : Instr XLEN → Nat
  | .add _ _ _ => 3
  | .mul _ _ _ => 3
  | .inp _ => 1
  | .out _ => 1
  | .jt _ _ => 2
  | .jf _ _ => 2
  | .lt _ _ _ => 3
  | .eq _ _ _ => 3
  | .arb _ => 1
  | .halt => 0

/-- R74, `DST`: the destination operand with its index, if the instruction has one. -/
def Instr.destination? : Instr XLEN → Option (Nat × Operand XLEN)
  | .add _ _ d => some (3, d)
  | .mul _ _ d => some (3, d)
  | .inp d => some (1, d)
  | .out _ => none
  | .jt _ _ => none
  | .jf _ _ => none
  | .lt _ _ d => some (3, d)
  | .eq _ _ d => some (3, d)
  | .arb _ => none
  | .halt => none

end Sys2Proof
end

