-- ==== Sys2Proof/WellFormed.lean ====
section
/-! DEFINITION. Which instruction terms the encoding has: "an operand in immediate mode may never be
used as a write destination" (30_encoding.md rules R73, R80).  Every other operand may be in any mode,
and a raw value is any word (R76). -/

namespace Sys2Proof

variable {XLEN : Nat}

/-- R73: the modes a destination operand may have. -/
def Operand.writable (o : Operand XLEN) : Bool :=
  match o.mode with
  | .position => true
  | .immediate => false
  | .relative => true

/-- R80: the one check on an instruction term, on the destination operand of ADD, MUL, IN, LT, EQ. -/
def Instr.wf : Instr XLEN → Bool
  | .add _ _ d => d.writable
  | .mul _ _ d => d.writable
  | .inp d => d.writable
  | .out _ => true
  | .jt _ _ => true
  | .jf _ _ => true
  | .lt _ _ d => d.writable
  | .eq _ _ d => d.writable
  | .arb _ => true
  | .halt => true

end Sys2Proof
end

