-- ==== Sys2Proof/Machine/Operands.lean ====
section
/-! DEFINITION. Operand resolution, all three addressing modes, for sources and destinations
(40_execution_cycle.md rules R104 to R107). -/

namespace Sys2Proof.Machine

variable {XLEN : Nat}

/-- R105: the effective address of an operand in mode 0 or 2; the sum of mode 2 is exact, not wrapped.
An operand in mode 1 has none. -/
def effectiveAddress (o : Operand XLEN) (rb : Word XLEN) : Option Int :=
  match o.mode with
  | .position => some o.raw.toInt
  | .immediate => none
  | .relative => some (o.raw.toInt + rb.toInt)

/-- R105, R107: the cell an operand designates: its effective address, if that is a legal address. -/
def cellOf (o : Operand XLEN) (s : State XLEN) : Option Nat :=
  match effectiveAddress o s.RB with
  | none => none
  | some x => legalAddress XLEN x

/-- R106: the value of a source operand: the literal in mode 1, the content of its cell in modes 0
and 2; none if its effective address is not legal (the step then raises `InvalidAddress`). -/
def sourceValue (o : Operand XLEN) (s : State XLEN) : Option (Word XLEN) :=
  match o.mode with
  | .immediate => some o.raw
  | .position => (cellOf o s).map s.Mem.read
  | .relative => (cellOf o s).map s.Mem.read

/-- R44, R106: the state after a source operand has been read: its cell, if it has one, is touched. -/
def touchSource (o : Operand XLEN) (s : State XLEN) : State XLEN :=
  match cellOf o s with
  | none => s
  | some a => s.touch a

end Sys2Proof.Machine
end

