-- ==== Sys2Proof/Machine/Arithmetic.lean ====
section
/-! DEFINITION. The common shape of the three-operand instructions (41_arithmetic_compare.md rule R124)
and the arithmetic ones, ADD and MUL (R120, R121). -/

namespace Sys2Proof.Machine

variable {XLEN : Nat}

/-- R124, R100 stages 4 to 8: the effective addresses are checked in ascending operand order, both
sources are read, the successor is checked, and only then `f v1 v2` is written to the cell of operand
3 and IP advanced by 4.  The first test fires on ill-formed terms only: the decoder has refused an
immediate destination (R80). -/
def execThree (f : Word XLEN → Word XLEN → Word XLEN) (a b d : Operand XLEN) (s : State XLEN) :
    Host.Outcome (State XLEN) Fault Refusal :=
  if d.writable then
    match sourceValue a s with
    | none => .next (s.raise (.invalidAddress 1))
    | some x =>
      match sourceValue b s with
      | none => .next (s.raise (.invalidAddress 2))
      | some y =>
        match cellOf d s with
        | none => .next (s.raise (.invalidAddress 3))
        | some e =>
          let t := touchSource b (touchSource a s)
          retire 4 t (t.store e (f x y))
  else .next (s.raise (.invalidDestination 3))

/-- R120: ADD. -/
def execAdd (a b d : Operand XLEN) (s : State XLEN) : Host.Outcome (State XLEN) Fault Refusal :=
  execThree addWords a b d s

/-- R121: MUL. -/
def execMul (a b d : Operand XLEN) (s : State XLEN) : Host.Outcome (State XLEN) Fault Refusal :=
  execThree mulWords a b d s

end Sys2Proof.Machine
end

