-- ==== Sys2Proof/Machine/Compare.lean ====
section
/-! DEFINITION. The comparisons, LT and EQ (41_arithmetic_compare.md rules R122, R123), over the common
three-operand shape of R124. -/

namespace Sys2Proof.Machine

variable {XLEN : Nat}

/-- R122: LT. -/
def execLt (a b d : Operand XLEN) (s : State XLEN) : Host.Outcome (State XLEN) Fault Refusal :=
  execThree lessWord a b d s

/-- R123: EQ. -/
def execEq (a b d : Operand XLEN) (s : State XLEN) : Host.Outcome (State XLEN) Fault Refusal :=
  execThree equalWord a b d s

end Sys2Proof.Machine
end

