-- ==== Sys2Proof/Machine/Halt.lean ====
section
/-! DEFINITION. HALT (45_halt.md rules R160 to R162). -/

namespace Sys2Proof.Machine

variable {XLEN : Nat}

/-- R160: HALT changes no state; IP stays on the 99 and the machine stays halted (assumption log 2). -/
def execHalt (s : State XLEN) : Host.Outcome (State XLEN) Fault Refusal := .next s

end Sys2Proof.Machine
end

