-- ==== Sys2Proof/Machine/InputOutput.lean ====
section
/-! DEFINITION. The channel instructions, IN and OUT (42_input_output.md rules R130 to R133). -/

namespace Sys2Proof.Machine

variable {XLEN : Nat}

/-- R130: the checks of an IN, all made before the channel is looked at: the cell it will write, or the
fault it raises. -/
def inputCell (d : Operand XLEN) (s : State XLEN) : Except Fault Nat :=
  if d.writable then
    match cellOf d s with
    | none => .error (.invalidAddress 1)
    | some e =>
      if s.IP.toNat + 2 ≤ Config.ADDR_MAX XLEN then .ok e else .error (.invalidAddress 0)
  else .error (.invalidDestination 1)

/-- R130: IN.  On an empty channel the step holds (R111): nothing changes, and the next attempt starts
again from fetch. -/
def execIn (d : Operand XLEN) (s : State XLEN) : Host.Outcome (State XLEN) Fault Refusal :=
  match inputCell d s with
  | .error f => .next (s.raise f)
  | .ok e =>
    match s.INQ with
    | [] => .next s
    | x :: q => retire 2 s ((s.setINQ q).store e x)

/-- R131: OUT. -/
def execOut (a : Operand XLEN) (s : State XLEN) : Host.Outcome (State XLEN) Fault Refusal :=
  match sourceValue a s with
  | none => .next (s.raise (.invalidAddress 1))
  | some v => retire 2 (touchSource a s) ((touchSource a s).pushOutput v)

end Sys2Proof.Machine
end

