-- ==== Sys2Proof/Machine/Jumps.lean ====
section
/-! DEFINITION. The control transfer instructions, JT and JF (43_jumps.md rules R140 to R143). -/

namespace Sys2Proof.Machine

variable {XLEN : Nat}

/-- R140 to R142: both operands are resolved before the condition is looked at; a taken jump sets IP to
the target value, which is checked then and only then; an untaken one advances IP by 3. -/
def execJump (taken : Word XLEN → Bool) (c t : Operand XLEN) (s : State XLEN) :
    Host.Outcome (State XLEN) Fault Refusal :=
  match sourceValue c s with
  | none => .next (s.raise (.invalidAddress 1))
  | some x =>
    match sourceValue t s with
    | none => .next (s.raise (.invalidAddress 2))
    | some y =>
      let u := touchSource t (touchSource c s)
      if taken x then
        match legalAddress XLEN y.toInt with
        | none => .next (u.raise (.invalidAddress 2))
        | some e => .next (u.setIP e)
      else retire 3 u u

/-- R140: JT. -/
def execJt (c t : Operand XLEN) (s : State XLEN) : Host.Outcome (State XLEN) Fault Refusal :=
  execJump conditionTrue c t s

/-- R141: JF. -/
def execJf (c t : Operand XLEN) (s : State XLEN) : Host.Outcome (State XLEN) Fault Refusal :=
  execJump conditionFalse c t s

end Sys2Proof.Machine
end

