-- ==== Sys2Proof/Machine/RelativeBase.lean ====
section
/-! DEFINITION. ARB, the one writer of the relative base (44_relative_base.md rules R150, R151). -/

namespace Sys2Proof.Machine

variable {XLEN : Nat}

/-- R150: ARB.  In mode 2 the operand is read at the old RB; the sum wraps. -/
def execArb (a : Operand XLEN) (s : State XLEN) : Host.Outcome (State XLEN) Fault Refusal :=
  match sourceValue a s with
  | none => .next (s.raise (.invalidAddress 1))
  | some v => retire 2 (touchSource a s) ((touchSource a s).setRB (addWords s.RB v))

end Sys2Proof.Machine
end

