-- ==== Sys2Proof/Machine/AnyWidth.lean ====
section
/-! DEFINITION. The dispatch of the executor with the word width as an argument (00_scope.md rule R3):
the meanings are written once, for every width, and Machine/Dispatch.lean is this hardware's dispatch
to the same meanings. -/

namespace Sys2Proof.Machine

/-- R3, R100 stage 7: the instruction's meaning at width `XLEN`. -/
def execAt {XLEN : Nat} (i : Instr XLEN) (s : State XLEN) : Host.Outcome (State XLEN) Fault Refusal :=
  match i with
  | .add a b d => execAdd a b d s
  | .mul a b d => execMul a b d s
  | .inp d => execIn d s
  | .out a => execOut a s
  | .jt c t => execJt c t s
  | .jf c t => execJf c t s
  | .lt a b d => execLt a b d s
  | .eq a b d => execEq a b d s
  | .arb a => execArb a s
  | .halt => execHalt s

end Sys2Proof.Machine
end

