-- ==== Sys2Proof/Decode.lean ====
section
/-! DEFINITION. The decimal decoder (30_encoding.md rules R70 to R84) and, after it, the encoder
(R85's assembly formula).  The decoder is total: every word and every list of words gives an
instruction or a rejection by name.  The three rejections the spec gives are the decoder faults of
R84; `truncated` is a list of words that ends inside an instruction, which cannot happen on the tape
(20_memory.md rule R43: every cell holds a word). -/

namespace Sys2Proof

variable {XLEN : Nat}

/-- 00_scope.md section 5: `dig_k(W)`, the decimal digit of weight `10^k`. -/
def dig (k W : Nat) : Nat := W / 10 ^ k % 10

/-- R74: the opcodes. -/
inductive Opcode where
  | add | mul | inp | out | jt | jf | lt | eq | arb | halt
deriving DecidableEq, Repr

/-- R74, R77: the instruction an opcode field selects; 0 and 10 to 98 select none, and 99 is not
reached through the field (the halt test is on the whole word, R78 case 3). -/
def opcodeOfField : Nat → Option Opcode
  | 1 => some .add
  | 2 => some .mul
  | 3 => some .inp
  | 4 => some .out
  | 5 => some .jt
  | 6 => some .jf
  | 7 => some .lt
  | 8 => some .eq
  | 9 => some .arb
  | _ => none

/-- R74: `NOPS(op)`. -/
def Opcode.operandCount : Opcode → Nat
  | .add => 3
  | .mul => 3
  | .inp => 1
  | .out => 1
  | .jt => 2
  | .jf => 2
  | .lt => 3
  | .eq => 3
  | .arb => 1
  | .halt => 0

/-- R74: `DST(op)`. -/
def Opcode.destination? : Opcode → Option Nat
  | .add => some 3
  | .mul => some 3
  | .inp => some 1
  | .out => none
  | .jt => none
  | .jf => none
  | .lt => some 3
  | .eq => some 3
  | .arb => none
  | .halt => none

/-- R73, R79: the mode a digit names; 3 to 9 name none. -/
def modeOfDigit : Nat → Option Mode
  | 0 => some .position
  | 1 => some .immediate
  | 2 => some .relative
  | _ => none

/-- R84: the faults the decoder finds, from the instruction word alone. -/
inductive DecodeFault where
  /-- `InvalidOpcode(0)` (R78). -/
  | invalidOpcode
  /-- `InvalidMode(i)` for the lowest bad operand `i` (R79). -/
  | invalidMode (i : Nat)
  /-- `InvalidDestination(d)` (R80). -/
  | invalidDestination (d : Nat)
deriving DecidableEq, Repr

/-- What a legal instruction word says: the opcode and the mode of each operand.  The modes of
operands the opcode does not have are `position`, whatever their digits hold (R81). -/
structure Head where
  op : Opcode
  m1 : Mode
  m2 : Mode
  m3 : Mode
deriving DecidableEq, Repr

/-- The mode of operand `i`. -/
def Head.mode (h : Head) : Nat → Mode
  | 1 => h.m1
  | 2 => h.m2
  | _ => h.m3

/-- R71, R81, R84: the mode of operand `i` of an instruction word; a digit the opcode has no operand
for is not looked at. -/
def operandMode (op : Opcode) (i W : Nat) : Option Mode :=
  if i ≤ op.operandCount then modeOfDigit (dig (i + 1) W) else some .position

/-- R84, last tests: a destination operand in immediate mode is `InvalidDestination`. -/
def checkDestination (h : Head) : Except DecodeFault Head :=
  match h.op.destination? with
  | none => .ok h
  | some d => if h.mode d = .immediate then .error (.invalidDestination d) else .ok h

/-- R84: the mode digits, lowest operand first, then the destination test. -/
def decodeModes (op : Opcode) (W : Nat) : Except DecodeFault Head :=
  match operandMode op 1 W with
  | none => .error (.invalidMode 1)
  | some m1 =>
    match operandMode op 2 W with
    | none => .error (.invalidMode 2)
    | some m2 =>
      match operandMode op 3 W with
      | none => .error (.invalidMode 3)
      | some m3 => checkDestination ⟨op, m1, m2, m3⟩

/-- R84: `Decode(W)`, a function of the instruction word alone; the order of its tests is the
priority of the faults (60_exceptions.md rule R206). -/
def decodeWord (W : Word XLEN) : Except DecodeFault Head :=
  if W.toInt = Config.HALT_WORD then .ok ⟨.halt, .position, .position, .position⟩
  else if W.toInt < 0 then .error .invalidOpcode
  else
    match opcodeOfField (W.toNat % 100) with
    | none => .error .invalidOpcode
    | some op => decodeModes op W.toNat

/-- R70, R76: the instruction of a decoded word, `r i` being the raw value of operand `i`. -/
def Head.instr (h : Head) (r : Nat → Word XLEN) : Instr XLEN :=
  match h.op with
  | .add => .add ⟨h.m1, r 1⟩ ⟨h.m2, r 2⟩ ⟨h.m3, r 3⟩
  | .mul => .mul ⟨h.m1, r 1⟩ ⟨h.m2, r 2⟩ ⟨h.m3, r 3⟩
  | .inp => .inp ⟨h.m1, r 1⟩
  | .out => .out ⟨h.m1, r 1⟩
  | .jt => .jt ⟨h.m1, r 1⟩ ⟨h.m2, r 2⟩
  | .jf => .jf ⟨h.m1, r 1⟩ ⟨h.m2, r 2⟩
  | .lt => .lt ⟨h.m1, r 1⟩ ⟨h.m2, r 2⟩ ⟨h.m3, r 3⟩
  | .eq => .eq ⟨h.m1, r 1⟩ ⟨h.m2, r 2⟩ ⟨h.m3, r 3⟩
  | .arb => .arb ⟨h.m1, r 1⟩
  | .halt => .halt

/-- Why a list of words is not an instruction. -/
inductive DecodeError where
  /-- The instruction word is refused by `decodeWord`. -/
  | fault (f : DecodeFault)
  /-- The list ends before the instruction does. -/
  | truncated
deriving DecidableEq, Repr

/-- R70, R75: the instruction at the front of a list of words, with the words after it. -/
def decode : List (Word XLEN) → Except DecodeError (Instr XLEN × List (Word XLEN))
  | [] => .error .truncated
  | W :: ws =>
    match decodeWord W with
    | .error f => .error (.fault f)
    | .ok h =>
      if ws.length < h.op.operandCount then .error .truncated
      else .ok (h.instr (fun i => ws.getD (i - 1) 0), ws.drop h.op.operandCount)

/-! ## The encoder -/

/-- R73: the digit of a mode. -/
def Mode.digit : Mode → Nat
  | .position => 0
  | .immediate => 1
  | .relative => 2

/-- R74: the code of an opcode. -/
def Opcode.code : Opcode → Nat
  | .add => 1
  | .mul => 2
  | .inp => 3
  | .out => 4
  | .jt => 5
  | .jf => 6
  | .lt => 7
  | .eq => 8
  | .arb => 9
  | .halt => 99

/-- R74: the opcode of an instruction. -/
def Instr.opcode : Instr XLEN → Opcode
  | .add _ _ _ => .add
  | .mul _ _ _ => .mul
  | .inp _ => .inp
  | .out _ => .out
  | .jt _ _ => .jt
  | .jf _ _ => .jf
  | .lt _ _ _ => .lt
  | .eq _ _ _ => .eq
  | .arb _ => .arb
  | .halt => .halt

/-- The operands of an instruction, in encoding order. -/
def Instr.operands : Instr XLEN → List (Operand XLEN)
  | .add a b d => [a, b, d]
  | .mul a b d => [a, b, d]
  | .inp d => [d]
  | .out a => [a]
  | .jt c t => [c, t]
  | .jf c t => [c, t]
  | .lt a b d => [a, b, d]
  | .eq a b d => [a, b, d]
  | .arb a => [a]
  | .halt => []

/-- The mode digits of a list of operands as one number, the first operand in the units. -/
def modeDigits : List (Operand XLEN) → Nat
  | [] => 0
  | o :: os => o.mode.digit + 10 * modeDigits os

/-- R85: `W = op + 100*m[1] + 1000*m[2] + 10000*m[3]`, the canonical instruction word. -/
def encodeHead (i : Instr XLEN) : Word XLEN :=
  BitVec.ofNat XLEN (i.opcode.code + 100 * modeDigits i.operands)

/-- R70, R85: the words of an instruction: the instruction word, then each operand's raw value. -/
def encode (i : Instr XLEN) : List (Word XLEN) := encodeHead i :: i.operands.map Operand.raw

/-! ## Words as spec/opcode_table.json numbers their bits -/

/-- The words of an instruction whose bits are `w`, bit 0 the least significant bit of the first word
and a later word's bits counting on from it; every bit from `nbits` on is 0.  Four words of this
hardware, the length of the longest instruction (R5). -/
def tableWords (nbits w : Nat) : List Word :=
  let v := w % 2 ^ nbits
  [BitVec.ofNat 64 v, BitVec.ofNat 64 (v / 2 ^ 64), BitVec.ofNat 64 (v / 2 ^ 128),
    BitVec.ofNat 64 (v / 2 ^ 192)]

/-- The instruction the decoder reads from an instruction whose bits are `w`. -/
def decodeTableWord (nbits w : Nat) : Option Instr :=
  match decode (tableWords nbits w) with
  | .ok (i, _) => some i
  | .error _ => none

end Sys2Proof
end

