-- ==== Sys2Proof/Machine/Fetch.lean ====
section
/-! DEFINITION. Stages 0 to 3 of a step: the no-step test, fetch, decode and operand fetch
(40_execution_cycle.md rules R100 to R104), and the placing of an instruction where the next fetch
reads it. -/

namespace Sys2Proof.Machine

variable {XLEN : Nat}

/-- What stages 0 to 3 of a step come to. -/
inductive Fetched (XLEN : Nat := 64) where
  /-- FAULT is latched: no step (R101). -/
  | idle
  /-- The fetch raises a fault, in the state after the accesses it has made. -/
  | raises (f : Fault) (s : State XLEN)
  /-- The instruction at IP, and the state in which it executes. -/
  | run (i : Instr XLEN) (s : State XLEN)
deriving DecidableEq, Repr

/-- R84, R200: the fault a decoder rejection raises. -/
def Fault.ofDecode : DecodeFault → Fault
  | .invalidOpcode => .invalidOpcode
  | .invalidMode i => .invalidMode (BitVec.ofNat 2 i)
  | .invalidDestination d => .invalidDestination (BitVec.ofNat 2 d)

/-- R43, R55: stage 2 to 3 for the word at the legal address `ip`, when it is not the halt word. -/
def fetchAt (ip : Nat) (s : State XLEN) : Fetched XLEN :=
  match decodeWord (s.Mem.read ip) with
  | .error f => .raises (.ofDecode f) (s.touch ip)
  | .ok h =>
    if ip + h.op.operandCount ≤ Config.ADDR_MAX XLEN then
      .run (h.instr fun i => s.Mem.read (ip + i)) (s.touch (ip + h.op.operandCount))
    else .raises (.invalidAddress 0) (s.touch ip)

/-- R100, stages 0 to 3.  A halted core reads the 99 and takes no step: nothing changes (R101, R160).
An IP outside `0..ADDR_MAX`, which no run reaches (R12), raises `InvalidAddress(0)` (R42). -/
def fetch (s : State XLEN) : Fetched XLEN :=
  if s.FAULT = 0#3 then
    match legalAddress XLEN s.IP.toInt with
    | none => .raises (.invalidAddress 0) s
    | some ip =>
      if (s.Mem.read ip).toInt = Config.HALT_WORD then .run .halt s else fetchAt ip s
  else .idle

/-- Write words at consecutive addresses; a word that would lie above `ADDR_MAX` has no cell. -/
def State.storeWords (s : State XLEN) (a : Nat) : List (Word XLEN) → State XLEN
  | [] => s
  | w :: ws => if a ≤ Config.ADDR_MAX XLEN then (s.store a w).storeWords (a + 1) ws else s

/-- The instruction whose bits are `w` stored at IP, with the fault latch clear so that the fetch takes
place (assumption log 6). -/
def State.placeAtFetch (s : State) (nbits w : Nat) : State :=
  { s.storeWords s.IP.toNat (tableWords nbits w) with FAULT := 0#3, FINFO := 0#2 }

end Sys2Proof.Machine
end

