-- ==== Sys2Proof/Machine/Step.lean ====
section
/-! DEFINITION. One attempt at a step (40_execution_cycle.md rules R100, R112; 47_host_interface.md rule
R179), of this hardware and at any width. -/

namespace Sys2Proof.Machine

variable {XLEN : Nat}

/-- R100: one attempt at a step, and the state after it, given what executes an instruction.  In the
three no-step cases of R101 (FAULT latched, halted, IN held on an empty channel) nothing changes but, in
a hold, the hidden MLEN (R109, assumption logs 2 and 4); a fault is latched, which is a next state
(R207). -/
def stepWith (execute : Instr XLEN → State XLEN → Host.Outcome (State XLEN) Fault Refusal)
    (s : State XLEN) : Host.Outcome (State XLEN) Fault Refusal :=
  match fetch s with
  | .idle => .next s
  | .raises f t => .next (t.raise f)
  | .run i t => execute i t

/-- R100: a step of this hardware, `XLEN = 64`. -/
def step (s : State) : Host.Outcome State Fault Refusal := stepWith exec s

/-- R3, R100: a step of the machine at any width. -/
def stepAt (s : State XLEN) : Host.Outcome (State XLEN) Fault Refusal := stepWith execAt s

/-- `s` with the instruction whose bits are `w` stored where `step` fetches next (assumption log 6). -/
def State.withFetchWord (s : State) (nbits w : Nat) : State := s.placeAtFetch nbits w

end Sys2Proof.Machine
end

