-- ==== Sys2Proof/Machine/Status.lean ====
section
/-! DEFINITION. What is a function of the state: the halted predicate (10_state.md rule R21), the run
status (R24), and the outcome of an attempted step as its caller sees it (40_execution_cycle.md rule
R112). -/

namespace Sys2Proof.Machine

variable {XLEN : Nat}

/-- R21: the word at IP is the halt word; recomputed from memory, never stored. -/
def halted (s : State XLEN) : Bool := decide ((s.Mem.read s.IP.toNat).toInt = Config.HALT_WORD)

/-- R111, R130: the word an instruction would take from the input channel: an IN that raises no fault
takes the head of INQ.  `some none` is an IN that holds. -/
def inputOf : Instr XLEN → State XLEN → Option (Option (Word XLEN))
  | .add _ _ _, _ => none
  | .mul _ _ _, _ => none
  | .inp d, s =>
    match inputCell d s with
    | .ok _ => some s.INQ.head?
    | .error _ => none
  | .out _, _ => none
  | .jt _ _, _ => none
  | .jf _ _, _ => none
  | .lt _ _ _, _ => none
  | .eq _ _ _, _ => none
  | .arb _, _ => none
  | .halt, _ => none

/-- R131: the word an instruction would append to the output channel: `v[1]` of an OUT that raises no
fault. -/
def outputOf : Instr XLEN → State XLEN → Option (Word XLEN)
  | .add _ _ _, _ => none
  | .mul _ _ _, _ => none
  | .inp _, _ => none
  | .out a, s => if s.IP.toNat + 2 ≤ Config.ADDR_MAX XLEN then sourceValue a s else none
  | .jt _ _, _ => none
  | .jf _ _, _ => none
  | .lt _ _ _, _ => none
  | .eq _ _ _, _ => none
  | .arb _, _ => none
  | .halt, _ => none

/-- The word the next step takes from INQ (`some none`: it holds on an empty one). -/
def nextInput (s : State XLEN) : Option (Option (Word XLEN)) :=
  match fetch s with
  | .idle => none
  | .raises _ _ => none
  | .run i t => inputOf i t

/-- The word the next step appends to OUTQ. -/
def nextOutput (s : State XLEN) : Option (Word XLEN) :=
  match fetch s with
  | .idle => none
  | .raises _ _ => none
  | .run i t => outputOf i t

/-- R24: the run status of an instance. -/
inductive Status where
  | faulted (code : BitVec 3) (info : BitVec 2)
  | halted
  | waiting
  | running
deriving DecidableEq, Repr

/-- R24, in its order of precedence. -/
def status (s : State XLEN) : Status :=
  if s.FAULT ≠ 0#3 then .faulted s.FAULT s.FINFO
  else if halted s then .halted
  else if nextInput s = some none then .waiting
  else .running

/-- R112: the outcome of an attempted step. -/
inductive StepOutcome (XLEN : Nat := 64) where
  /-- An instruction other than OUT completed. -/
  | retired
  /-- An OUT completed and appended `v`. -/
  | retiredOutput (v : Word XLEN)
  /-- The word at IP is 99. -/
  | halted
  /-- An IN holds on an empty INQ. -/
  | blocked
  /-- A fault was raised in this step. -/
  | fault (code : BitVec 3) (info : BitVec 2)
  /-- FAULT was latched already. -/
  | faulted
deriving DecidableEq, Repr

/-- The state after an attempt (a step always answers a next state). -/
def afterStep (s : State XLEN) : State XLEN :=
  match stepAt s with
  | .next t => t
  | .fault _ => s
  | .refused _ => s

/-- R112. -/
def outcome (s : State XLEN) : StepOutcome XLEN :=
  match status s with
  | .faulted _ _ => .faulted
  | .halted => .halted
  | .waiting => .blocked
  | .running =>
    if (afterStep s).FAULT ≠ 0#3 then .fault (afterStep s).FAULT (afterStep s).FINFO
    else
      match nextOutput s with
      | some v => .retiredOutput v
      | none => .retired

end Sys2Proof.Machine
end

