-- ==== Sys2Proof/Machine/HostOps.lean ====
section
/-! DEFINITION. What the host may do to an instance (47_host_interface.md rules R171 to R182), reset
(70_reset_and_hazards.md rule R240), and the two run modes.  R183: a host operation takes place between
two steps, as a whole, so an execution is a list of operations, `step` among them. -/

namespace Sys2Proof.Machine

variable {XLEN : Nat}

/-! ## Reset and access to the tape -/

/-- R171: what is a program image: words, and no more of them than there are cells. -/
def imageOk (XLEN : Nat) (P : List Int) : Bool :=
  P.all (fun x => decide (Config.WMIN XLEN ≤ x) && decide (x ≤ Config.WMAX XLEN)) &&
    decide (P.length ≤ Config.ADDR_MAX XLEN + 1)

/-- R171, R240, R27: `new(P)`, reset with program image `P`; refused if `P` is no program image. -/
def State.new (P : List Int) : Option (State XLEN) :=
  if imageOk XLEN P then some ((State.resetAt XLEN).storeWords 0 (P.map (BitVec.ofInt XLEN)))
  else none

/-- R172: `poke(a, x)`; refused on the host's side if `a` is no legal address. -/
def State.poke (s : State XLEN) (a : Int) (x : Word XLEN) : Option (State XLEN) :=
  match legalAddress XLEN a with
  | none => none
  | some a => some (s.store a x)

/-- R173: `peek(a)`; refused if `a` is no legal address.  It reads through the same accessor, so the
hidden length grows (R44). -/
def State.peek (s : State XLEN) (a : Int) : Option (Word XLEN × State XLEN) :=
  match legalAddress XLEN a with
  | none => none
  | some a => some (s.Mem.read a, s.touch a)

/-! ## The channels -/

/-- R174: `push_input(x)`. -/
def State.pushInput (s : State XLEN) (x : Word XLEN) : State XLEN := { s with INQ := s.INQ ++ [x] }

/-- R175: `pop_output()`. -/
def State.popOutput (s : State XLEN) : Option (Word XLEN) × State XLEN :=
  match s.OUTQ with
  | [] => (none, s)
  | x :: q => (some x, { s with OUTQ := q })

/-- R176: `drain_outputs()`. -/
def State.drainOutputs (s : State XLEN) : List (Word XLEN) × State XLEN :=
  (s.OUTQ, { s with OUTQ := [] })

/-- R177: `clear_input()`. -/
def State.clearInput (s : State XLEN) : State XLEN := { s with INQ := [] }

/-! ## Operations as events -/

/-- R171 to R179: the host operations. -/
inductive HostOp (XLEN : Nat := 64) where
  | new (P : List Int)
  | poke (a : Int) (x : Word XLEN)
  | peek (a : Int)
  /-- R173: the diagnostic view of IP, RB, FAULT and FINFO. -/
  | view
  | pushInput (x : Word XLEN)
  | popOutput
  | drainOutputs
  | clearInput
  | isHalted
  /-- R179: one attempt at a step. -/
  | step
deriving DecidableEq, Repr

/-- What an operation returns to the host. -/
inductive HostReply (XLEN : Nat := 64) where
  | done
  /-- An error of the host: nothing changes and no fault is raised (R172, D19). -/
  | refused
  | word (v : Word XLEN)
  /-- The absence of a value, distinct from every word. -/
  | noWord
  | words (vs : List (Word XLEN))
  | truth (b : Bool)
  | registers (ip rb : Word XLEN) (fault : BitVec 3) (finfo : BitVec 2)
  | attempted (o : StepOutcome XLEN)
deriving DecidableEq, Repr

/-- One host operation: its result, and the state after it. -/
def hostDo : HostOp XLEN → State XLEN → HostReply XLEN × State XLEN
  | .new P, s =>
    match State.new P with
    | none => (.refused, s)
    | some t => (.done, t)
  | .poke a x, s =>
    match s.poke a x with
    | none => (.refused, s)
    | some t => (.done, t)
  | .peek a, s =>
    match s.peek a with
    | none => (.refused, s)
    | some (v, t) => (.word v, t)
  | .view, s => (.registers s.IP s.RB s.FAULT s.FINFO, s)
  | .pushInput x, s => (.done, s.pushInput x)
  | .popOutput, s =>
    match s.popOutput with
    | (none, t) => (.noWord, t)
    | (some v, t) => (.word v, t)
  | .drainOutputs, s => (.words s.drainOutputs.1, s.drainOutputs.2)
  | .clearInput, s => (.done, s.clearInput)
  | .isHalted, s => (.truth (halted s), s.touch s.IP.toNat)
  | .step, s => (.attempted (outcome s), afterStep s)

/-- R183: an execution of one instance: operations one after another; the results, and the state
reached. -/
def hostRun : List (HostOp XLEN) → State XLEN → List (HostReply XLEN) × State XLEN
  | [], s => ([], s)
  | op :: ops, s =>
    let r := hostDo op s
    let rest := hostRun ops r.2
    (r.1 :: rest.1, rest.2)

/-! ## The run modes

R180, R181: both are loops of attempts at a step.  What ends a loop is said once, for the two
topologies; the loops of this section are the caller-driven ones, on one instance.  In the concurrent
topology a loop that is not ended by a hold waits while other agents act, so it is a run of a system:
`System.runUntilHalted` and `System.runUntilNextOutput`, Machine/System.lean.  R249: a loop need not
end, so each takes a bound on the number of attempts, and `unfinished` says that the bound was reached
(assumption log 7). -/

/-- R215: the two execution topologies. -/
inductive Topology where
  /-- One thread of control: nobody else can push input while the caller is in the loop. -/
  | callerDriven
  /-- Each instance runs on a thread of its own. -/
  | concurrent
deriving DecidableEq, Repr

/-- R180: what `run_until_halted()` returns. -/
inductive RunResult where
  | halted
  | fault (code : BitVec 3) (info : BitVec 2)
  | blocked
  | unfinished
deriving DecidableEq, Repr

/-- R181: what `run_until_next_output()` returns; `noOutput` is the absence marker of R182. -/
inductive NextOutputResult (XLEN : Nat := 64) where
  | output (v : Word XLEN)
  | noOutput
  | fault (code : BitVec 3) (info : BitVec 2)
  | blocked
  | unfinished
deriving DecidableEq, Repr

/-- R180, D27: what a loop does on a hold: the caller-driven one ends with `r`, the concurrent one waits
and goes on. -/
def Topology.onHold {ρ : Type} (r : ρ) : Topology → Option ρ
  | .callerDriven => some r
  | .concurrent => none

/-- R180: the result with which an attempt, of the outcome given and with `t` the state after it, ends
`run_until_halted()`; none if the loop goes on. -/
def untilHalted (tp : Topology) (t : State XLEN) : StepOutcome XLEN → Option RunResult
  | .retired => none
  | .retiredOutput _ => none
  | .halted => some .halted
  | .fault _ _ => some (.fault t.FAULT t.FINFO)
  | .faulted => some (.fault t.FAULT t.FINFO)
  | .blocked => tp.onHold .blocked

/-- R181: the same for `run_until_next_output()`. -/
def untilNextOutput (tp : Topology) (t : State XLEN) : StepOutcome XLEN → Option (NextOutputResult XLEN)
  | .retired => none
  | .retiredOutput v => some (.output v)
  | .halted => some .noOutput
  | .fault _ _ => some (.fault t.FAULT t.FINFO)
  | .faulted => some (.fault t.FAULT t.FINFO)
  | .blocked => tp.onHold .blocked

/-- R180, R181: attempts at a step, at most as many as the bound, until one ends the loop: the result,
and the state after the last attempt made. -/
def runLoop {ρ : Type} (ends : State XLEN → StepOutcome XLEN → Option ρ) :
    Nat → State XLEN → Option ρ × State XLEN
  | 0, s => (none, s)
  | k + 1, s =>
    match ends (afterStep s) (outcome s) with
    | some r => (some r, afterStep s)
    | none => runLoop ends k (afterStep s)

/-- R180, caller-driven. -/
def runUntilHalted (k : Nat) (s : State XLEN) : RunResult × State XLEN :=
  match runLoop (untilHalted .callerDriven) k s with
  | (some r, t) => (r, t)
  | (none, t) => (.unfinished, t)

/-- R181: the value just produced leaves OUTQ if the caller owns it, and stays for the downstream
instance if not; values that were there before the call stay (assumption log 8). -/
def State.takeProduced (ownsOutput : Bool) (s : State XLEN) : State XLEN :=
  if ownsOutput then { s with OUTQ := s.OUTQ.dropLast } else s

/-- R181, R182, caller-driven. -/
def runUntilNextOutput (ownsOutput : Bool) (k : Nat) (s : State XLEN) :
    NextOutputResult XLEN × State XLEN :=
  match runLoop (untilNextOutput .callerDriven) k s with
  | (some (.output v), t) => (.output v, t.takeProduced ownsOutput)
  | (some r, t) => (r, t)
  | (none, t) => (.unfinished, t)

end Sys2Proof.Machine
end

