-- ==== Sys2Proof/Machine/System.lean ====
section
/-! DEFINITION. Several instances composed by shared channels (47_host_interface.md rules R180 to R187,
60_exceptions.md rules R210, R215, 70_reset_and_hazards.md rule R241).  A channel is one queue, stored
once: the producer's OUTQ and the consumer's INQ are views of it (R184).  Which event comes next is not
fixed by the machine (R183): a schedule is any list of events, and claims hold for all of them. -/

namespace Sys2Proof.Machine

variable {XLEN : Nat}

/-! ## Instances and channels -/

/-- One instance in a system: its own tape and registers, and the channels it is wired to.  The INQ and
OUTQ of `own` are not used: the channels stand in the system. -/
structure Node (XLEN : Nat := 64) where
  own   : State XLEN
  inCh  : Nat
  outCh : Nat
deriving DecidableEq, Repr

/-- R184, R185: the instances, the channels, and the channels of which the host has an end.  The wiring
is the environment's, and no event changes it. -/
structure System (XLEN : Nat := 64) where
  nodes     : List (Node XLEN)
  chans     : List (List (Word XLEN))
  /-- The channels the host is the producer of. -/
  hostFeeds : List Nat
  /-- The channels the host is the consumer of. -/
  hostTakes : List Nat
deriving DecidableEq, Repr

/-- The content of channel `c`. -/
def System.chan (y : System XLEN) (c : Nat) : List (Word XLEN) := y.chans.getD c []

/-- R185, 93_implementation_defined.md U11: every channel has at most one producer and at most one
consumer, the host counted among them, and every channel named exists. -/
def System.topologyOk (y : System XLEN) : Bool :=
  decide ((y.nodes.map Node.outCh ++ y.hostFeeds).Nodup) &&
    decide ((y.nodes.map Node.inCh ++ y.hostTakes).Nodup) &&
    (y.nodes.map Node.outCh ++ y.hostFeeds ++ (y.nodes.map Node.inCh ++ y.hostTakes)).all fun c =>
      decide (c < y.chans.length)

/-- R184: an instance as the rules of one core see it, its INQ and OUTQ the shared channels. -/
def System.view (y : System XLEN) (n : Node XLEN) : State XLEN :=
  { n.own with INQ := y.chan n.inCh, OUTQ := y.chan n.outCh }

/-- Put instance `k`'s state `t` back: its channels into the system, the rest into its node.  An event
changes at most one of the two channels, so the one that changed is written last where they are the
same queue. -/
def System.putBack (y : System XLEN) (k : Nat) (n : Node XLEN) (t : State XLEN) : System XLEN :=
  let afterIn := y.chans.set n.inCh t.INQ
  { y with
    nodes := y.nodes.set k { n with own := { t with INQ := n.own.INQ, OUTQ := n.own.OUTQ } }
    chans := if t.OUTQ = y.chan n.outCh then afterIn else afterIn.set n.outCh t.OUTQ }

/-! ## Building and resetting -/

/-- R171, R215: the instances of a system, each from its image and the channels it is wired to. -/
def newNodes : List (List Int × Nat × Nat) → Option (List (Node XLEN))
  | [] => some []
  | (P, i, o) :: rest =>
    match State.new P, newNodes rest with
    | some s, some ns => some (⟨s, i, o⟩ :: ns)
    | _, _ => none

/-- R171, R184, R241: a system just built: every instance reset with its image, every channel empty.
Refused if an image is no program image, or the wiring gives a channel two producers or two consumers
(R185, U11). -/
def System.new (nChans : Nat) (hostFeeds hostTakes : List Nat) (parts : List (List Int × Nat × Nat)) :
    Option (System XLEN) :=
  match newNodes parts with
  | none => none
  | some ns =>
    let y : System XLEN := ⟨ns, List.replicate nChans [], hostFeeds, hostTakes⟩
    if y.topologyOk then some y else none

/-- R241: reset of the system as a whole, with one image for each instance; the wiring stays. -/
def System.resetAll (y : System XLEN) (Ps : List (List Int)) : Option (System XLEN) :=
  if Ps.length = y.nodes.length then
    System.new y.chans.length y.hostFeeds y.hostTakes
      (Ps.zip (y.nodes.map fun n => (n.inCh, n.outCh)))
  else none

/-! ## Events -/

/-- R183: what can happen to a system: a step of an instance or a host operation on it, or reset. -/
inductive SysEvent (XLEN : Nat := 64) where
  /-- A host operation on instance `k`, an attempt at a step (R179) among them. -/
  | on (k : Nat) (op : HostOp XLEN)
  /-- R241: reset of the system as a whole. -/
  | reset (Ps : List (List Int))
deriving DecidableEq, Repr

/-- R185: what the host may do to an instance of a system: push only where it is the channel's producer,
pop and drain only where it is the channel's consumer, and not reset one instance alone (R241,
93_implementation_defined.md U16).  Clearing an input is allowed on a shared channel too (R177). -/
def System.permits (y : System XLEN) (n : Node XLEN) : HostOp XLEN → Bool
  | .new _ => false
  | .poke _ _ => true
  | .peek _ => true
  | .view => true
  | .pushInput _ => decide (n.inCh ∈ y.hostFeeds)
  | .popOutput => decide (n.outCh ∈ y.hostTakes)
  | .drainOutputs => decide (n.outCh ∈ y.hostTakes)
  | .clearInput => true
  | .isHalted => true
  | .step => true

/-- R183: one event: what it returns to the host, and the system after it.  An event on a system whose
wiring R185 refuses, on no instance, or that the host may not do, is refused and changes nothing. -/
def System.apply (y : System XLEN) (e : SysEvent XLEN) : HostReply XLEN × System XLEN :=
  if y.topologyOk then
    match e with
    | .on k op =>
      match y.nodes[k]? with
      | none => (.refused, y)
      | some n =>
        if y.permits n op then
          ((hostDo op (y.view n)).1, y.putBack k n (hostDo op (y.view n)).2)
        else (.refused, y)
    | .reset Ps =>
      match y.resetAll Ps with
      | none => (.refused, y)
      | some z => (.done, z)
  else (.refused, y)

/-- R183: a schedule, run from a system: what each event returns, and the system reached. -/
def System.run (y : System XLEN) : List (SysEvent XLEN) → List (HostReply XLEN) × System XLEN
  | [] => ([], y)
  | e :: es =>
    let r := y.apply e
    let rest := r.2.run es
    (r.1 :: rest.1, rest.2)

/-! ## The run modes in the concurrent topology -/

/-- R180, R181: the result with which an event ends a run mode called on instance `k`: only an attempt of
instance `k` itself can end it. -/
def System.endedBy {ρ : Type} (k : Nat) (ends : State XLEN → StepOutcome XLEN → Option ρ)
    (y : System XLEN) (e : SysEvent XLEN) : Option ρ :=
  match (y.apply e).1, (y.apply e).2.nodes[k]? with
  | .attempted o, some n => if e = .on k .step then ends ((y.apply e).2.view n) o else none
  | _, _ => none

/-- R180, R181, R186: a run mode called on instance `k` by its own thread, under a schedule in which
every other agent acts too: an attempt of instance `k` whose outcome ends the loop ends the call; on a
hold the loop waits, and is tried again at the instance's next attempt (R111).  The result (none if
the schedule ends first), the system then, and the events still to come. -/
def System.runCall {ρ : Type} (k : Nat) (ends : State XLEN → StepOutcome XLEN → Option ρ) :
    List (SysEvent XLEN) → System XLEN → Option ρ × System XLEN × List (SysEvent XLEN)
  | [], y => (none, y, [])
  | e :: es, y =>
    match System.endedBy k ends y e with
    | some r => (some r, (y.apply e).2, es)
    | none => System.runCall k ends es (y.apply e).2

/-- R180, concurrent: `run_until_halted()` on instance `k`. -/
def System.runUntilHalted (k : Nat) (es : List (SysEvent XLEN)) (y : System XLEN) :
    RunResult × System XLEN × List (SysEvent XLEN) :=
  match System.runCall k (untilHalted .concurrent) es y with
  | (some r, z, rest) => (r, z, rest)
  | (none, z, rest) => (.unfinished, z, rest)

/-- R181: the value instance `k` has just produced leaves its output channel if the host is the consumer
of that channel, and stays for the downstream instance if not. -/
def System.takeProduced (y : System XLEN) (k : Nat) : System XLEN :=
  match y.nodes[k]? with
  | none => y
  | some n =>
    if n.outCh ∈ y.hostTakes then { y with chans := y.chans.set n.outCh (y.chan n.outCh).dropLast }
    else y

/-- R181, concurrent: `run_until_next_output()` on instance `k`. -/
def System.runUntilNextOutput (k : Nat) (es : List (SysEvent XLEN)) (y : System XLEN) :
    NextOutputResult XLEN × System XLEN × List (SysEvent XLEN) :=
  match System.runCall k (untilNextOutput .concurrent) es y with
  | (some (.output v), z, rest) => (.output v, z.takeProduced k, rest)
  | (some r, z, rest) => (r, z, rest)
  | (none, z, rest) => (.unfinished, z, rest)

/-- R186: each instance runs `run_until_halted` on its own thread: what each thread's call has returned
when the schedule ends.  It has returned because its instance is halted or faulted, so its later attempts
change nothing unless the host un-halts it. -/
def System.threads (es : List (SysEvent XLEN)) (y : System XLEN) : List RunResult :=
  (List.range y.nodes.length).map fun k => (System.runUntilHalted k es y).1

/-! ## Status, the end of a run, deadlock -/

/-- R24 of an instance of a system. -/
def System.status (y : System XLEN) (n : Node XLEN) : Status := Machine.status (y.view n)

/-- R186: the end of a pipeline run: every instance halted. -/
def System.allHalted (y : System XLEN) : Bool :=
  y.nodes.all fun n => decide (y.status n = .halted)

/-- R185: who appends to a channel. -/
inductive Producer where
  | host
  | node (k : Nat)
deriving DecidableEq, Repr

/-- R185: the producer of channel `c`, if it has one. -/
def System.producer? (y : System XLEN) (c : Nat) : Option Producer :=
  if c ∈ y.hostFeeds then some .host
  else (y.nodes.findIdx? fun n => decide (n.outCh = c)).map .node

/-- R111, R187: some agent has a step that may lead to a value on channel `c`: the host, if it feeds the
channel and still has something to send on it (`sends`); the producing instance, if it is running, or
waits for a channel of which the same holds.  The bound is on the length of such a chain: one of
distinct instances has no more than there are. -/
def System.mayFeed (y : System XLEN) (sends : List Nat) : Nat → Nat → Bool
  | 0, _ => false
  | b + 1, c =>
    match y.producer? c with
    | none => false
    | some .host => decide (c ∈ sends)
    | some (.node k) =>
      match y.nodes[k]? with
      | none => false
      | some n =>
        match y.status n with
        | .running => true
        | .waiting => y.mayFeed sends b n.inCh
        | .halted => false
        | .faulted _ _ => false

/-- R187: an instance that waits for input that no agent has a step to feed. -/
def System.starved (y : System XLEN) (sends : List Nat) (n : Node XLEN) : Bool :=
  decide (y.status n = .waiting) && !y.mayFeed sends (y.nodes.length + 1) n.inCh

/-- R187: some instance is `WAITING` and no agent has a step that would feed it: stuck, not final, not
faulted.  `sends` lists the channels on which the host still has something to send. -/
def System.stuck (y : System XLEN) (sends : List Nat) : Bool := y.nodes.any (y.starved sends)

/-! ## Fairness -/

/-- R249, R211, R179: weak fairness of an endless schedule `e` through the systems `y`.  `go t k` says that
the environment has the steps of instance `k` enabled at time `t`: a caller that no longer drives it does
not, and in the concurrent topology every instance always is (R186).  A core steps only while enabled; an
instance that from some time on is running, and enabled, takes a step at some later time.  Nothing is
asked of an instance that is not enabled, and nothing bounds the wait.  It is a property a claim may
assume, and no rule of the machine. -/
def WeaklyFair (y : Nat → System XLEN) (go : Nat → Nat → Bool) (e : Nat → SysEvent XLEN) : Prop :=
  (∀ t, y (t + 1) = ((y t).apply (e t)).2) ∧
  (∀ t k, e t = .on k .step → go t k = true) ∧
  ∀ k t, (∀ u, t ≤ u →
      go u k = true ∧ ∃ n, (y u).nodes[k]? = some n ∧ (y u).status n = .running) →
    ∃ u, t ≤ u ∧ e u = .on k .step

end Sys2Proof.Machine
end

