-- ==== Sys2Proof/Safety.lean ====
section
/-! DEFINITION. The terms claims are stated in: the invariant of the machine's states, the end of a run,
safe runs, and the traffic of the channels. -/

namespace Sys2Proof.Machine

variable {XLEN : Nat}

/-! ## The invariant of reachable states -/

/-- R16, R17, R200: the pairs of FAULT and FINFO the machine can hold: no fault; `InvalidOpcode(0)`;
`InvalidMode` of operand 1 to 3; `InvalidDestination` of operand 3 or 1; `InvalidAddress` of any
index. -/
def faultPairOk (code : BitVec 3) (info : BitVec 2) : Bool :=
  match code.toNat, info.toNat with
  | 0, 0 => true
  | 1, 0 => true
  | 2, 0 => false
  | 2, _ => true
  | 3, 1 => true
  | 3, 3 => true
  | 4, _ => true
  | _, _ => false

/-- R23, R43: every cell that holds anything but 0 lies inside the tape's current length. -/
def Memory.below (m : Memory XLEN) (n : Nat) : Bool := m.all fun c => decide (c.1 < n)

/-- What holds of every state the machine can be in: the tape in its canonical form (R43), IP a legal
address (R12), FAULT and FINFO a pair of the fault table (R200), and the hidden length an upper bound
of the cells in use that fits the word (R10, R23). -/
abbrev State.Inv (s : State XLEN) : Prop :=
  s.Mem.wf = true ∧ s.IP.toNat ≤ Config.ADDR_MAX XLEN ∧ faultPairOk s.FAULT s.FINFO = true ∧
    s.Mem.below s.MLEN = true ∧ s.MLEN ≤ Config.ADDR_MAX XLEN + 1

/-! ## Runs -/

/-- R162: the end of a run, for a claim about a program: halted, and no fault latched. -/
def State.final (s : State XLEN) : Bool := halted s && decide (s.FAULT = 0#3)

/-- R101, R24: the core can take a step. -/
def State.canStep (s : State XLEN) : Bool := decide (status s = .running)

/-- The state after `k` attempts at a step. -/
def stepsFrom : Nat → State XLEN → State XLEN
  | 0, s => s
  | k + 1, s => stepsFrom k (afterStep s)

/-- R125, 93_implementation_defined.md U1: the exact result the next instruction would compute, if it is
ADD, MUL or ARB and its sources have values. -/
def exactResult : Instr XLEN → State XLEN → Option Int
  | .add a b _, s => do return (← sourceValue a s).toInt + (← sourceValue b s).toInt
  | .mul a b _, s => do return (← sourceValue a s).toInt * (← sourceValue b s).toInt
  | .inp _, _ => none
  | .out _, _ => none
  | .jt _ _, _ => none
  | .jf _ _, _ => none
  | .lt _ _ _, _ => none
  | .eq _ _ _, _ => none
  | .arb a, s => do return s.RB.toInt + (← sourceValue a s).toInt
  | .halt, _ => none

/-- R125: the next step of `s` computes a result that does not fit the word. -/
def State.overflowsNext (s : State XLEN) : Bool :=
  match fetch s with
  | .idle => false
  | .raises _ _ => false
  | .run i t =>
    match exactResult i t with
    | none => false
    | some x => overflowed XLEN x

/-- A run of `k` attempts that meets no fault and no overflow, for claims held to the source's program
rather than to the spec's wrapping (U1). -/
def safeRun : Nat → State XLEN → Bool
  | 0, s => decide (s.FAULT = 0#3)
  | k + 1, s => decide (s.FAULT = 0#3) && !s.overflowsNext && safeRun k (afterStep s)

/-! ## Faults, as statements name them -/

/-- An attempt at a step in `s` raises the fault with code `c` and operand index `k`, and changes
nothing else but the hidden length (R207, R208). -/
def stepRaises (s : State) (c : BitVec 3) (k : BitVec 2) : Prop :=
  ∃ m, step s = .next { s with FAULT := c, FINFO := k, MLEN := m }

/-- The same of the execution of one instruction. -/
def execRaises (i : Instr) (s : State) (c : BitVec 3) (k : BitVec 2) : Prop :=
  ∃ m, exec i s = .next { s with FAULT := c, FINFO := k, MLEN := m }

/-- A core that is not faulted, with a word at IP whose opcode field is `code` (R71). -/
def atOpcode (s : State) (code : Nat) : Prop :=
  s.FAULT = 0#3 ∧ s.IP.toNat ≤ Config.ADDR_MAX ∧ 0 ≤ (s.Mem.read s.IP.toNat).toInt ∧
    (s.Mem.read s.IP.toNat).toNat % 100 = code

/-- R79, for an opcode of `n` operands: a mode digit 3 to 9 raises `InvalidMode` of the lowest such
operand. -/
def badModeRaises (code n : Nat) : Prop :=
  ∀ s i, atOpcode s code → 1 ≤ i → i ≤ n → 3 ≤ dig (i + 1) (s.Mem.read s.IP.toNat).toNat →
    (∀ j, 1 ≤ j → j < i → dig (j + 1) (s.Mem.read s.IP.toNat).toNat ≤ 2) →
    stepRaises s 2#3 (BitVec.ofNat 2 i)

/-- R80, for an opcode of `n` operands with destination operand `d`: mode digit 1 there raises
`InvalidDestination(d)`. -/
def badDestinationRaises (code n d : Nat) : Prop :=
  ∀ s, atOpcode s code →
    (∀ j, 1 ≤ j → j ≤ n → dig (j + 1) (s.Mem.read s.IP.toNat).toNat ≤ 2) →
    dig (d + 1) (s.Mem.read s.IP.toNat).toNat = 1 → stepRaises s 3#3 (BitVec.ofNat 2 d)

/-- R124: every exception of a three-operand instruction, in the order of R110.  `mk` makes the
instruction from its operands, and `code` is its opcode. -/
def threeOperandFaults (mk : Operand → Operand → Operand → Instr) (code : Nat) : Prop :=
  badModeRaises code 3 ∧ badDestinationRaises code 3 3 ∧
  ∀ a b d s, d.writable = true →
    (sourceValue a s = none → execRaises (mk a b d) s 4#3 1#2) ∧
    (∀ x, sourceValue a s = some x → sourceValue b s = none → execRaises (mk a b d) s 4#3 2#2) ∧
    (∀ x y, sourceValue a s = some x → sourceValue b s = some y → cellOf d s = none →
      execRaises (mk a b d) s 4#3 3#2) ∧
    (∀ x y e, sourceValue a s = some x → sourceValue b s = some y → cellOf d s = some e →
      Config.ADDR_MAX < s.IP.toNat + 4 → execRaises (mk a b d) s 4#3 0#2)

/-- R140, R141: every exception of a jump; `taken` is its condition. -/
def jumpFaults (mk : Operand → Operand → Instr) (code : Nat) (taken : Word → Prop) : Prop :=
  badModeRaises code 2 ∧
  ∀ c g s,
    (sourceValue c s = none → execRaises (mk c g) s 4#3 1#2) ∧
    (∀ x, sourceValue c s = some x → sourceValue g s = none → execRaises (mk c g) s 4#3 2#2) ∧
    (∀ x y, sourceValue c s = some x → sourceValue g s = some y → taken x → y.toInt < 0 →
      execRaises (mk c g) s 4#3 2#2) ∧
    (∀ x y, sourceValue c s = some x → sourceValue g s = some y → ¬ taken x →
      Config.ADDR_MAX < s.IP.toNat + 3 → execRaises (mk c g) s 4#3 0#2)

/-- R83: the canonical instruction words by opcode, as spec/opcode_table.json and 95_test_vectors.md section
2.1 list them. -/
def canonicalWords : Opcode → List Nat
  | .add => [1, 101, 201, 1001, 1101, 1201, 2001, 2101, 2201] ++
      [20001, 20101, 20201, 21001, 21101, 21201, 22001, 22101, 22201]
  | .mul => [2, 102, 202, 1002, 1102, 1202, 2002, 2102, 2202] ++
      [20002, 20102, 20202, 21002, 21102, 21202, 22002, 22102, 22202]
  | .inp => [3, 203]
  | .out => [4, 104, 204]
  | .jt => [5, 105, 205, 1005, 1105, 1205, 2005, 2105, 2205]
  | .jf => [6, 106, 206, 1006, 1106, 1206, 2006, 2106, 2206]
  | .lt => [7, 107, 207, 1007, 1107, 1207, 2007, 2107, 2207] ++
      [20007, 20107, 20207, 21007, 21107, 21207, 22007, 22107, 22207]
  | .eq => [8, 108, 208, 1008, 1108, 1208, 2008, 2108, 2208] ++
      [20008, 20108, 20208, 21008, 21108, 21208, 22008, 22108, 22208]
  | .arb => [9, 109, 209]
  | .halt => [99]

/-! ## The traffic of the channels (42_input_output.md rule R132) -/

/-- What has passed through the two channels in an execution. -/
structure Traffic (XLEN : Nat := 64) where
  /-- The words appended to INQ, in order. -/
  pushed  : List (Word XLEN)
  /-- The words that left INQ, in order: `true` for one an IN took, `false` for one `clear_input`
  discarded. -/
  left    : List (Bool × Word XLEN)
  /-- `v[1]` of the OUT instructions that completed, in order. -/
  sent    : List (Word XLEN)
  /-- The words consumers removed from the head of OUTQ, in order. -/
  removed : List (Word XLEN)
deriving DecidableEq, Repr

/-- The traffic of one operation in state `s`. -/
def trafficOf : HostOp XLEN → State XLEN → Traffic XLEN
  | .new _, _ => ⟨[], [], [], []⟩
  | .poke _ _, _ => ⟨[], [], [], []⟩
  | .peek _, _ => ⟨[], [], [], []⟩
  | .view, _ => ⟨[], [], [], []⟩
  | .pushInput x, _ => ⟨[x], [], [], []⟩
  | .popOutput, s => ⟨[], [], [], s.popOutput.1.toList⟩
  | .drainOutputs, s => ⟨[], [], [], s.drainOutputs.1⟩
  | .clearInput, s => ⟨[], s.INQ.map (false, ·), [], []⟩
  | .isHalted, _ => ⟨[], [], [], []⟩
  | .step, s =>
    ⟨[], match nextInput s with
      | some (some x) => [(true, x)]
      | some none => []
      | none => [],
      (nextOutput s).toList, []⟩

/-- The traffic of an execution from `s`. -/
def traffic : List (HostOp XLEN) → State XLEN → Traffic XLEN
  | [], _ => ⟨[], [], [], []⟩
  | op :: ops, s =>
    let a := trafficOf op s
    let b := traffic ops (hostDo op s).2
    ⟨a.pushed ++ b.pushed, a.left ++ b.left, a.sent ++ b.sent, a.removed ++ b.removed⟩

/-- An execution that does not reset the instance. -/
def noReset : List (HostOp XLEN) → Bool
  | [] => true
  | .new _ :: _ => false
  | _ :: ops => noReset ops

/-! ## The latest write to a cell (20_memory.md rules R43, R54) -/

/-- R120 to R123, R130: the cell an instruction that completes writes and the word it writes there. -/
def storeOf : Instr XLEN → State XLEN → Option (Nat × Word XLEN)
  | .add a b d, s => do
    return (← cellOf d s, wrap ((← sourceValue a s).toInt + (← sourceValue b s).toInt))
  | .mul a b d, s => do
    return (← cellOf d s, wrap ((← sourceValue a s).toInt * (← sourceValue b s).toInt))
  | .inp d, s => do return (← cellOf d s, ← s.INQ.head?)
  | .out _, _ => none
  | .jt _ _, _ => none
  | .jf _ _, _ => none
  | .lt a b d, s => do
    return (← cellOf d s, if (← sourceValue a s).toInt < (← sourceValue b s).toInt then 1 else 0)
  | .eq a b d, s => do
    return (← cellOf d s, if (← sourceValue a s) = (← sourceValue b s) then 1 else 0)
  | .arb _, _ => none
  | .halt, _ => none

/-- The write to the tape that an operation makes in state `s`: a poke's, or a retired step's. -/
def writeOf : HostOp XLEN → State XLEN → Option (Nat × Word XLEN)
  | .new _, _ => none
  | .poke a x, _ => (legalAddress XLEN a).map (·, x)
  | .peek _, _ => none
  | .view, _ => none
  | .pushInput _, _ => none
  | .popOutput, _ => none
  | .drainOutputs, _ => none
  | .clearInput, _ => none
  | .isHalted, _ => none
  | .step, s =>
    match outcome s, fetch s with
    | .retired, .run i _ => storeOf i s
    | _, _ => none

/-- The word written last to cell `a` in an execution from `s`; `w` if it was never written. -/
def lastWrite (a : Nat) (w : Word XLEN) : List (HostOp XLEN) → State XLEN → Word XLEN
  | [], _ => w
  | op :: ops, s =>
    let w' :=
      match writeOf op s with
      | some (b, x) => if b = a then x else w
      | none => w
    lastWrite a w' ops (hostDo op s).2

/-! ## What the word at the cursor makes the next step do -/

/-- R57, R100: the next step of `s`, which is not faulted, is what the word `W` at its IP says: halted on
99, a fault the decoder finds in `W`, or the instruction of `W` with the words now after it, if they lie
in the address space.  The hidden length a faulting step leaves is the model's choice (assumption log 4). -/
def nextStepIs (W : Word) (s : State) : Prop :=
  (W.toInt = 99 → halted s = true ∧ step s = .next s) ∧
  (W.toInt ≠ 99 → halted s = false ∧
    (∀ f, decodeWord W = .error f → step s = .next ((s.touch s.IP.toNat).raise (.ofDecode f))) ∧
    (∀ h, decodeWord W = .ok h → s.IP.toNat + h.op.operandCount ≤ Config.ADDR_MAX →
        step s = exec (h.instr fun i => s.Mem.read (s.IP.toNat + i))
          (s.touch (s.IP.toNat + h.op.operandCount))) ∧
    ∀ h, decodeWord W = .ok h → Config.ADDR_MAX < s.IP.toNat + h.op.operandCount →
      step s = .next ((s.touch s.IP.toNat).raise (.invalidAddress 0)))

/-! ## Calls of the run modes -/

/-- R180: an instruction completed, of any kind. -/
def StepOutcome.completed : StepOutcome XLEN → Bool
  | .retired => true
  | .retiredOutput _ => true
  | .halted => false
  | .blocked => false
  | .fault _ _ => false
  | .faulted => false

/-- R179, R183: the outcomes of the attempts of instance `k` in a schedule, in order. -/
def System.attempts (k : Nat) : List (SysEvent XLEN) → System XLEN → List (StepOutcome XLEN)
  | [], _ => []
  | e :: es, y =>
    let rest := System.attempts k es (y.apply e).2
    match (y.apply e).1 with
    | .attempted o => if e = .on k .step then o :: rest else rest
    | _ => rest

/-- R180, R181: within `k` attempts from `s` an attempt whose outcome satisfies `last`, after attempts
whose outcomes all satisfy `goOn`, leaves state `t`. -/
def callEnds (goOn last : StepOutcome XLEN → Prop) (k : Nat) (s t : State XLEN) : Prop :=
  ∃ j, j < k ∧ (∀ i, i < j → goOn (outcome (stepsFrom i s))) ∧ last (outcome (stepsFrom j s)) ∧
    t = stepsFrom (j + 1) s

/-- R180, R181, R183: the same for the attempts of instance `k` in a schedule of a system: the attempt that
ends the call leaves system `z`, with the events `rest` still to come. -/
def System.callEnds (y : System XLEN) (k : Nat) (goOn last : StepOutcome XLEN → Prop)
    (es : List (SysEvent XLEN)) (z : System XLEN) (rest : List (SysEvent XLEN)) : Prop :=
  ∃ before o, es = before ++ .on k .step :: rest ∧ (∀ p ∈ System.attempts k before y, goOn p) ∧
    last o ∧ (y.run before).2.apply (.on k .step) = (.attempted o, z)

/-! ## Stuck systems -/

/-- R187: an event that neither resets, nor pokes a cell, nor sends on a channel not in `sends`. -/
def System.ordinary (y : System XLEN) (sends : List Nat) : SysEvent XLEN → Bool
  | .on _ (.poke _ _) => false
  | .on k (.pushInput _) =>
    match y.nodes[k]? with
    | none => true
    | some n => decide (n.inCh ∈ sends)
  | .on _ _ => true
  | .reset _ => false

/-- Every event of a schedule is ordinary where it stands. -/
def System.allOrdinary (sends : List Nat) : List (SysEvent XLEN) → System XLEN → Bool
  | [], _ => true
  | e :: es, y => y.ordinary sends e && System.allOrdinary sends es (y.apply e).2

/-! ## The same state at a larger width (00_scope.md rule R3) -/

/-- The same signed integer as a word of `N` bits. -/
def widen (N : Nat) (w : Word XLEN) : Word N := BitVec.ofInt N w.toInt

/-- The same state in words of `N` bits. -/
def State.widen (N : Nat) (s : State XLEN) : State N :=
  { Mem := s.Mem.map fun c => (c.1, Machine.widen N c.2)
    IP := Machine.widen N s.IP
    RB := Machine.widen N s.RB
    FAULT := s.FAULT
    FINFO := s.FINFO
    INQ := s.INQ.map (Machine.widen N)
    OUTQ := s.OUTQ.map (Machine.widen N)
    MLEN := s.MLEN }

/-- The same outcome in words of `N` bits. -/
def StepOutcome.widen (N : Nat) : StepOutcome XLEN → StepOutcome N
  | .retired => .retired
  | .retiredOutput v => .retiredOutput (Machine.widen N v)
  | .halted => .halted
  | .blocked => .blocked
  | .fault c k => .fault c k
  | .faulted => .faulted

end Sys2Proof.Machine
end

