-- ==== Sys2Proof/Certificates/Slice0/Obligations.lean ====
section
/-! DEFINITION. The statements about the AZ19 VM core, in the order of OBLIGATIONS.json.  Each docstring
names the rule or the section of spec/ the statement comes from. -/

open Sys2Proof Sys2Proof.Machine

/-! ## Encoding -/

/-- 95_test_vectors.md sections 1 (S0, S6) and 2.2: words of every family decode as the spec says, and
words the spec refuses are refused by its name. -/
def Obligations.SpecWordsDecode : Prop :=
  decodeWord 1002#64 = .ok ⟨.mul, .position, .immediate, .position⟩ ∧
  decodeWord 21101#64 = .ok ⟨.add, .immediate, .immediate, .relative⟩ ∧
  decodeWord 203#64 = .ok ⟨.inp, .relative, .position, .position⟩ ∧
  decodeWord 104#64 = .ok ⟨.out, .immediate, .position, .position⟩ ∧
  decodeWord 1205#64 = .ok ⟨.jt, .relative, .immediate, .position⟩ ∧
  decodeWord 2206#64 = .ok ⟨.jf, .relative, .relative, .position⟩ ∧
  decodeWord 1007#64 = .ok ⟨.lt, .position, .immediate, .position⟩ ∧
  decodeWord 1008#64 = .ok ⟨.eq, .position, .immediate, .position⟩ ∧
  decodeWord 209#64 = .ok ⟨.arb, .relative, .position, .position⟩ ∧
  decodeWord 99#64 = .ok ⟨.halt, .position, .position, .position⟩ ∧
  decodeWord 1398#64 = .error .invalidOpcode ∧
  decodeWord 13101#64 = .error (.invalidMode 2) ∧
  decodeWord 30103#64 = .error (.invalidDestination 1)

/-- 30_encoding.md sections 1 and 5: decoding the words of a well-formed instruction gives it back, with
every operand at every value, whatever words follow. -/
def Obligations.DecodeOfEncodeIsIdentity : Prop :=
  ∀ (i : Instr) (rest : List Word), i.wf = true → decode (encode i ++ rest) = .ok (i, rest)

/-- 30_encoding.md sections 1 to 4: exactly which words the decoder reads as an instruction: those whose
examined digits (two of opcode and one per operand) are the canonical word's, followed by the raw
values; and HALT from the whole word 99 alone. -/
def Obligations.DecoderAcceptsExactlyTheEncodings : Prop :=
  ∀ (W : Word) (ws rest : List Word) (i : Instr),
    decode (W :: ws) = .ok (i, rest) ↔
      i.wf = true ∧ ws = i.operands.map Operand.raw ++ rest ∧ 0 ≤ W.toInt ∧
      W.toNat % 10 ^ (i.operandCount + 2) = (encodeHead i).toNat ∧
      (i = .halt → W.toInt = 99)

/-- R78: which words raise `InvalidOpcode`, that the step raises it, and that it is fatal. -/
def Obligations.IllegalOpcodeRaisesInvalidOpcode : Prop :=
  (∀ W : Word, decodeWord W = .error .invalidOpcode ↔
    W.toInt ≠ 99 ∧ (W.toInt < 0 ∨ W.toInt % 100 = 0 ∨ (10 ≤ W.toInt % 100 ∧ W.toInt % 100 ≤ 98) ∨
      W.toInt % 100 = 99)) ∧
  ∀ s : State, s.FAULT = 0#3 → s.IP.toNat ≤ Config.ADDR_MAX →
    decodeWord (s.Mem.read s.IP.toNat) = .error .invalidOpcode →
    stepRaises s 1#3 0#2 ∧ ∀ k, stepsFrom (k + 1) s = afterStep s

/-- R79: which words raise `InvalidMode`, with the lowest bad operand, and that the step raises it. -/
def Obligations.IllegalModeDigitRaisesInvalidMode : Prop :=
  (∀ (W : Word) (k : Nat), decodeWord W = .error (.invalidMode k) ↔
    0 ≤ W.toInt ∧ ∃ op, opcodeOfField (W.toNat % 100) = some op ∧ 1 ≤ k ∧ k ≤ op.operandCount ∧
      3 ≤ dig (k + 1) W.toNat ∧ ∀ j, 1 ≤ j → j < k → dig (j + 1) W.toNat ≤ 2) ∧
  ∀ (s : State) (k : Nat), s.FAULT = 0#3 → s.IP.toNat ≤ Config.ADDR_MAX →
    decodeWord (s.Mem.read s.IP.toNat) = .error (.invalidMode k) →
    stepRaises s 2#3 (BitVec.ofNat 2 k)

/-- R80: which words raise `InvalidDestination`, and that the step raises it. -/
def Obligations.ImmediateDestinationRaisesInvalidDestination : Prop :=
  (∀ (W : Word) (k : Nat), decodeWord W = .error (.invalidDestination k) ↔
    0 ≤ W.toInt ∧ ∃ op, opcodeOfField (W.toNat % 100) = some op ∧ op.destination? = some k ∧
      dig (k + 1) W.toNat = 1 ∧
      ∀ j, 1 ≤ j → j ≤ op.operandCount → dig (j + 1) W.toNat ≤ 2) ∧
  ∀ (s : State) (k : Nat), s.FAULT = 0#3 → s.IP.toNat ≤ Config.ADDR_MAX →
    decodeWord (s.Mem.read s.IP.toNat) = .error (.invalidDestination k) →
    stepRaises s 3#3 (BitVec.ofNat 2 k)

/-- R81: two words with the same opcode, of 1 to 9, and the same examined digits decode alike, whatever
their other digits are; with opcode field 99 any non-zero higher digit makes the word illegal. -/
def Obligations.UnexaminedDigitsAreIgnored : Prop :=
  (∀ (W V : Word) (op : Opcode), 0 ≤ W.toInt → 0 ≤ V.toInt →
    opcodeOfField (W.toNat % 100) = some op →
    W.toNat % 10 ^ (op.operandCount + 2) = V.toNat % 10 ^ (op.operandCount + 2) →
    decodeWord W = decodeWord V) ∧
  ∀ W : Word, W.toNat % 100 = 99 → W.toNat / 100 ≠ 0 → decodeWord W = .error .invalidOpcode

/-- R83: the legal words whose unexamined digits are 0 are the 99 of the spec's list, by instruction. -/
def Obligations.CanonicalWordsAreNinetyNine : Prop :=
  (∀ (op : Opcode) (W : Word),
    (∃ h, decodeWord W = .ok h ∧ h.op = op ∧ W.toNat < 10 ^ (op.operandCount + 2)) ↔
      W.toNat ∈ canonicalWords op) ∧
  (∀ op, (canonicalWords op).Nodup) ∧
  ((canonicalWords .add).length = 18 ∧ (canonicalWords .mul).length = 18 ∧
    (canonicalWords .lt).length = 18 ∧ (canonicalWords .eq).length = 18 ∧
    (canonicalWords .inp).length = 2 ∧ (canonicalWords .out).length = 3 ∧
    (canonicalWords .arb).length = 3 ∧ (canonicalWords .jt).length = 9 ∧
    (canonicalWords .jf).length = 9 ∧ (canonicalWords .halt).length = 1) ∧
  18 + 18 + 18 + 18 + 2 + 3 + 3 + 9 + 9 + 1 = 99

/-! ## The step -/

/-- 40_execution_cycle.md section 1: when the words at IP decode to a well-formed instruction, the step
runs it; before HALT nothing is touched, before any other the hidden length covers the cells
fetched.  That this growth is kept where the instruction then faults or holds is the model's choice
(assumption log 4). -/
def Obligations.StepRunsTheDecodedInstruction : Prop :=
  ∀ (s : State) (i : Instr), i.wf = true → s.FAULT = 0#3 →
    s.IP.toNat + i.operandCount ≤ Config.ADDR_MAX →
    decode (s.Mem.words s.IP.toNat (1 + i.operandCount)) = .ok (i, []) →
    step s = exec i (if i = .halt then s else s.touch (s.IP.toNat + i.operandCount))

/-- 40_execution_cycle.md sections 1 and 3 (R104, R109): the raw values are the words that follow the
instruction word, all fetched before the instruction executes; if the last of them would lie above the
top, the step raises `InvalidAddress(0)`.  What has been fetched shows in the hidden length; that the
faulting step keeps the growth of the one fetch it made, which R109 allows and no rule requires, is the
model's choice (assumption log 4). -/
def Obligations.OperandFetchReadsTheFollowingCells : Prop :=
  ∀ (s : State) (h : Head), s.FAULT = 0#3 → s.IP.toNat ≤ Config.ADDR_MAX →
    (s.Mem.read s.IP.toNat).toInt ≠ 99 → decodeWord (s.Mem.read s.IP.toNat) = .ok h →
    (s.IP.toNat + h.op.operandCount ≤ Config.ADDR_MAX →
      step s = exec (h.instr fun i => s.Mem.read (s.IP.toNat + i))
        { s with MLEN := max s.MLEN (s.IP.toNat + h.op.operandCount + 1) }) ∧
    (Config.ADDR_MAX < s.IP.toNat + h.op.operandCount →
      step s = .next { s with
        FAULT := 4#3, FINFO := 0#2, MLEN := max s.MLEN (s.IP.toNat + 1) })

/-- 40_execution_cycle.md section 5: an attempt at a step always has an outcome and a state after it; the
machine has no stop of the host's two kinds (the next state in the no-step cases is the model's
reading, assumption log 2). -/
def Obligations.StepAlwaysAnswersANextState : Prop :=
  ∀ s : State, ∃ t, step s = .next t

/-- R101: the three cases in which the core takes no step, and that nothing changes in the first two
however long it is left enabled. -/
def Obligations.NoStepWhenFaultedHaltedOrHeld : Prop :=
  (∀ s : State, s.FAULT ≠ 0#3 → outcome s = .faulted ∧ ∀ k, stepsFrom k s = s) ∧
  (∀ s : State, s.FAULT = 0#3 → s.IP.toNat ≤ Config.ADDR_MAX →
    (s.Mem.read s.IP.toNat).toInt = 99 → outcome s = .halted ∧ ∀ k, stepsFrom k s = s) ∧
  (∀ s : State, status s = .waiting →
    outcome s = .blocked ∧ ∃ m, step s = .next { s with MLEN := m })

/-- R112: each outcome of an attempted step with the state change its row gives. -/
def Obligations.OutcomeTellsTheStateChange : Prop :=
  ∀ s t : State, s.Inv → step s = .next t →
    match outcome s with
    | .retired => t.FAULT = 0#3 ∧ t.OUTQ = s.OUTQ ∧
        ∃ i u, fetch s = .run i u ∧ i ≠ .halt ∧ (∀ a, i ≠ .out a) ∧ exec i u = .next t
    | .retiredOutput v => t.FAULT = 0#3 ∧ t.OUTQ = s.OUTQ ++ [v] ∧
        ∃ a u, fetch s = .run (.out a) u ∧ sourceValue a s = some v ∧ exec (.out a) u = .next t
    | .halted => (s.Mem.read s.IP.toNat).toInt = 99 ∧ t = s
    | .blocked => s.INQ = [] ∧ (∃ d u, fetch s = .run (.inp d) u) ∧ t = { s with MLEN := t.MLEN }
    | .fault c k => s.FAULT = 0#3 ∧ c ≠ 0#3 ∧ t = { s with FAULT := c, FINFO := k, MLEN := t.MLEN }
    | .faulted => s.FAULT ≠ 0#3 ∧ t = s

/-- R208: a step that faults has had no effect on Mem, IP, RB, INQ or OUTQ. -/
def Obligations.FaultsArePrecise : Prop :=
  ∀ s t : State, s.FAULT = 0#3 → step s = .next t → t.FAULT ≠ 0#3 →
    t.Mem = s.Mem ∧ t.IP = s.IP ∧ t.RB = s.RB ∧ t.INQ = s.INQ ∧ t.OUTQ = s.OUTQ

/-- R209: nothing but reset clears a latched fault, and the core takes no further step; host writes and
pushes are carried out; reset clears it. -/
def Obligations.OnlyResetClearsAFault : Prop :=
  (∀ (ops : List HostOp) (s : State), s.FAULT ≠ 0#3 → noReset ops = true →
    (hostRun ops s).2.FAULT = s.FAULT ∧ (hostRun ops s).2.FINFO = s.FINFO ∧
      (hostRun ops s).2.IP = s.IP ∧ (hostRun ops s).2.RB = s.RB) ∧
  (∀ s : State, s.FAULT ≠ 0#3 → step s = .next s) ∧
  (∀ (s : State) (a : Nat) (x : Word), s.FAULT ≠ 0#3 → a ≤ Config.ADDR_MAX →
    hostDo (.poke a x) s = (.done, s.store a x) ∧
    hostDo (.pushInput x) s = (.done, { s with INQ := s.INQ ++ [x] })) ∧
  (∀ (P : List Int) (s t : State), State.new P = some t →
    hostDo (.new P) s = (.done, t) ∧ t.FAULT = 0#3)

/-- R13: the one write of IP: a completed step that does not jump advances it by the instruction's own
width, a taken jump sets it to the target, and HALT, a hold and a fault do not write it. -/
def Obligations.StepWritesIPOnce : Prop :=
  ∀ (s t : State), step s = .next t →
    (outcome s = .halted ∨ outcome s = .blocked ∨ outcome s = .faulted ∨ t.FAULT ≠ 0#3 →
      t.IP = s.IP) ∧
    ∀ (i : Instr) (u : State), fetch s = .run i u → t.FAULT = 0#3 →
      match i with
      | .add _ _ _ => t.IP.toNat = s.IP.toNat + 4
      | .mul _ _ _ => t.IP.toNat = s.IP.toNat + 4
      | .lt _ _ _ => t.IP.toNat = s.IP.toNat + 4
      | .eq _ _ _ => t.IP.toNat = s.IP.toNat + 4
      | .inp _ => t.IP.toNat = s.IP.toNat + 2 ∨ (s.INQ = [] ∧ t.IP = s.IP)
      | .out _ => t.IP.toNat = s.IP.toNat + 2
      | .arb _ => t.IP.toNat = s.IP.toNat + 2
      | .jt c g => ∃ x y, sourceValue c s = some x ∧ sourceValue g s = some y ∧
          ((x.toInt ≠ 0 ∧ t.IP = y) ∨ (x.toInt = 0 ∧ t.IP.toNat = s.IP.toNat + 3))
      | .jf c g => ∃ x y, sourceValue c s = some x ∧ sourceValue g s = some y ∧
          ((x.toInt = 0 ∧ t.IP = y) ∨ (x.toInt ≠ 0 ∧ t.IP.toNat = s.IP.toNat + 3))
      | .halt => t.IP = s.IP

/-- 20_memory.md section 5, 10_state.md section 8: a step writes no cell but the one the destination
operand of the instruction at IP designates. -/
def Obligations.StepWritesOnlyTheDestinationCell : Prop :=
  ∀ (s t : State) (a : Nat), step s = .next t →
    (∀ i u k d, fetch s = .run i u → i.destination? = some (k, d) → cellOf d s ≠ some a) →
    t.Mem.read a = s.Mem.read a

/-- R15: no instruction but ARB writes RB, ARB writes it with `wrap`, the host cannot write it, it is 0
after reset; and but for ARB only an operand in mode 2 reads it. -/
def Obligations.OnlyArbWritesRB : Prop :=
  (∀ s t : State, step s = .next t → t.RB = s.RB ∨
    ∃ a u v, fetch s = .run (.arb a) u ∧ sourceValue a s = some v ∧
      t.RB = wrap (s.RB.toInt + v.toInt)) ∧
  (∀ (op : HostOp) (s : State), noReset [op] = true → op ≠ .step → (hostDo op s).2.RB = s.RB) ∧
  (∀ (P : List Int) (s : State), State.new P = some s → s.RB = 0#64) ∧
  (∀ (i : Instr) (s t : State) (r : Word), (∀ o ∈ i.operands, o.mode ≠ .relative) →
    (∀ a, i ≠ .arb a) → exec i s = .next t → exec i { s with RB := r } = .next { t with RB := r })

/-- 10_state.md section 8: a step takes from INQ only its head and only by an IN, and changes OUTQ only by
appending, by an OUT, the value of its operand. -/
def Obligations.OnlyInTakesInputAndOnlyOutAppends : Prop :=
  ∀ s t : State, step s = .next t →
    (t.INQ = s.INQ ∨ ∃ d u x, fetch s = .run (.inp d) u ∧ s.INQ = x :: t.INQ) ∧
    (t.OUTQ = s.OUTQ ∨ ∃ a u v, fetch s = .run (.out a) u ∧ sourceValue a s = some v ∧
      t.OUTQ = s.OUTQ ++ [v])

/-- R113: the outcome and the next state are a function of Mem, IP, RB, FAULT and the head of INQ: two
states that agree on these take the same step, whatever FINFO, MLEN, OUTQ and the rest of INQ hold. -/
def Obligations.StepReadsOnlyWhatR113Lists : Prop :=
  ∀ s s' t t' : State, s.Mem = s'.Mem → s.IP = s'.IP → s.RB = s'.RB → s.FAULT = s'.FAULT →
    s.INQ.head? = s'.INQ.head? → step s = .next t → step s' = .next t' →
    outcome s = outcome s' ∧ t.Mem = t'.Mem ∧ t.IP = t'.IP ∧ t.RB = t'.RB ∧ t.FAULT = t'.FAULT ∧
      (s.FAULT = 0#3 → t.FAULT ≠ 0#3 → t.FINFO = t'.FINFO) ∧
      (∃ p, s.INQ = p ++ t.INQ ∧ s'.INQ = p ++ t'.INQ) ∧
      (∃ o, t.OUTQ = s.OUTQ ++ o ∧ t'.OUTQ = s'.OUTQ ++ o)

/-- R24: when the status is each of its four values; the core steps only in `RUNNING`; what leaves
`HALTED`, `WAITING` and `FAULTED`; and that `halted` ignores FAULT. -/
def Obligations.StatusFollowsItsPrecedence : Prop :=
  ∀ s : State, s.IP.toNat ≤ Config.ADDR_MAX →
    (∀ c k, status s = .faulted c k ↔ s.FAULT ≠ 0#3 ∧ c = s.FAULT ∧ k = s.FINFO) ∧
    (status s = .halted ↔ s.FAULT = 0#3 ∧ (s.Mem.read s.IP.toNat).toInt = 99) ∧
    (status s = .waiting ↔ s.FAULT = 0#3 ∧ s.INQ = [] ∧ s.IP.toNat + 2 ≤ Config.ADDR_MAX ∧
      ∃ h, decodeWord (s.Mem.read s.IP.toNat) = .ok h ∧ h.op = .inp ∧
        cellOf ⟨h.m1, s.Mem.read (s.IP.toNat + 1)⟩ s ≠ none) ∧
    (status s ≠ .running → ∃ m, step s = .next { s with MLEN := m }) ∧
    (∀ x t, s.Mem.wf = true → status s = .halted → s.poke s.IP.toNat x = some t → x.toInt ≠ 99 →
      status t ≠ .halted) ∧
    (∀ x, status s = .waiting → status (s.pushInput x) = .running) ∧
    (∀ c k op, status s = .faulted c k → noReset [op] = true →
      status (hostDo op s).2 = .faulted c k) ∧
    (hostDo .isHalted s).1 = .truth (decide ((s.Mem.read s.IP.toNat).toInt = 99))

/-! ## Invariants -/

/-- 10_state.md sections 1, 3, 5, 7 and 20_memory.md section 2: the state after reset meets the invariant
(for the host's `new`, see `HostOperationsKeepTheInvariant`). -/
def Obligations.ResetMeetsTheInvariant : Prop := State.reset.Inv

/-- 10_state.md rules R12, R16, R17, R23 and 20_memory.md R43, in the terms of the model: every step keeps
the canonical tape, a legal IP, a fault pair of the table and the bound of the hidden length, from
every state that has them. -/
def Obligations.StepKeepsTheInvariant : Prop :=
  ∀ s t : State, s.Inv → step s = .next t → t.Inv

/-- The same over every execution of steps and host operations, reset included, of the machine at every
width from 64 up (00_scope.md R3). -/
def Obligations.HostOperationsKeepTheInvariant : Prop :=
  ∀ (XLEN : Nat), 64 ≤ XLEN → ∀ (ops : List (HostOp XLEN)) (s : State XLEN), s.Inv →
    (hostRun ops s).2.Inv

/-- 20_memory.md section 2: two tapes in canonical form that read the same at every address are the same
list, so that equal memories are equal data.  The list form is the model's choice (assumption log 3). -/
def Obligations.CanonicalTapesWithEqualReadsAreEqual : Prop :=
  ∀ m m' : Memory, m.wf = true → m'.wf = true → (∀ a, m.read a = m'.read a) → m = m'

/-- R43: over every execution from reset with a program image, a cell reads as it was last written, or as
the image loaded it if it was not written, and as 0 if it was neither written nor loaded; and the two
primitives, which read or write one cell and let the tape grow. -/
def Obligations.TapeReadsBackWhatWasWritten : Prop :=
  (∀ (P : List Int) (s : State) (ops : List HostOp) (a : Nat), State.new P = some s →
    noReset ops = true →
    (hostRun ops s).2.Mem.read a = lastWrite a (BitVec.ofInt 64 (P.getD a 0)) ops s) ∧
  ∀ (s : State) (a b : Nat) (v : Word), s.Mem.wf = true → a ≤ Config.ADDR_MAX →
    (s.store a v).Mem.read a = v ∧ (b ≠ a → (s.store a v).Mem.read b = s.Mem.read b) ∧
      (s.store a v).MLEN = max s.MLEN (a + 1) ∧ (s.touch a).Mem = s.Mem ∧
      (s.touch a).MLEN = max s.MLEN (a + 1)

/-- 20_memory.md section 2 (R44): over any execution without a reset the hidden length never shrinks
(that the model keeps it is its choice, assumption log 4). -/
def Obligations.TapeLengthNeverShrinks : Prop :=
  ∀ (ops : List HostOp) (s : State), noReset ops = true → s.MLEN ≤ (hostRun ops s).2.MLEN

/-! ## Operands and arithmetic -/

/-- 40_execution_cycle.md section 2 (R105): the cell an operand designates, in each mode; the sum of mode
2 is exact, so an address out of range is never wrapped into one in range. -/
def Obligations.EffectiveAddressIsExact : Prop :=
  ∀ (r : Word) (s : State) (e : Nat),
    (cellOf ⟨.position, r⟩ s = some e ↔ (e : Int) = r.toInt ∧ e ≤ Config.ADDR_MAX) ∧
    (cellOf ⟨.relative, r⟩ s = some e ↔
      (e : Int) = r.toInt + s.RB.toInt ∧ e ≤ Config.ADDR_MAX) ∧
    cellOf ⟨.immediate, r⟩ s = none

/-- 40_execution_cycle.md section 2 (R106): a source is the literal in mode 1 and the content of its cell
in modes 0 and 2, and has no value exactly if its effective address is not legal. -/
def Obligations.SourceValueIsLiteralOrCell : Prop :=
  ∀ (o : Operand) (s : State),
    (o.mode = .immediate → sourceValue o s = some o.raw) ∧
    (o.mode ≠ .immediate → ∀ e, cellOf o s = some e → sourceValue o s = some (s.Mem.read e)) ∧
    (sourceValue o s = none ↔ o.mode ≠ .immediate ∧ cellOf o s = none)

/-- 00_scope.md section 5 and R3: at every width from 64 up, `wrap(v)` lies in `WMIN..WMAX` and is the
unique word congruent to `v` modulo `2^XLEN`; the bounds of this hardware are those of 64 bits. -/
def Obligations.WrapIsTheUniqueCongruentWord : Prop :=
  (∀ (XLEN : Nat), 64 ≤ XLEN → ∀ v : Int,
    (Config.WMIN XLEN ≤ (wrap v : Word XLEN).toInt ∧ (wrap v : Word XLEN).toInt ≤ Config.WMAX XLEN) ∧
      ((wrap v : Word XLEN).toInt - v) % 2 ^ XLEN = 0 ∧
      (∀ w : Word XLEN, (w.toInt - v) % 2 ^ XLEN = 0 → w = wrap v) ∧
      (Config.WMIN XLEN ≤ v → v ≤ Config.WMAX XLEN → (wrap v : Word XLEN).toInt = v)) ∧
  Config.WMIN = -9223372036854775808 ∧ Config.WMAX = 9223372036854775807 ∧
    (Config.ADDR_MAX : Int) = Config.WMAX

/-- 41_arithmetic_compare.md section 2: the table of results at the edges of the word. -/
def Obligations.ResultsAtTheEdgesOfTheWord : Prop :=
  (wrap (Config.WMAX + 1) : Word) = wrap Config.WMIN ∧ (wrap (Config.WMIN + -1) : Word) = wrap Config.WMAX ∧
  (wrap (Config.WMIN * -1) : Word) = wrap Config.WMIN ∧
  (wrap (4294967296 * 4294967296) : Word).toInt = 0 ∧
  (wrap (3037000500 * 3037000500) : Word).toInt = -9223372036709301616 ∧
  (wrap (3037000499 * 3037000499) : Word).toInt = 9223372030926249001 ∧
  (wrap Config.WMAX : Word).toInt = Config.WMAX ∧ (wrap Config.WMIN : Word).toInt = Config.WMIN

/-! ## The instructions: encoding, effect, exceptions -/

/-- R120: ADD. -/
def Obligations.AddStoresTheWrappedSum : Prop :=
  (∀ (a b d : Operand) (s : State) (x y : Word) (e : Nat), sourceValue a s = some x →
    sourceValue b s = some y → cellOf d s = some e → s.IP.toNat + 4 ≤ Config.ADDR_MAX →
    ∃ m, exec (.add a b d) s = .next { s with
      Mem := s.Mem.write e (wrap (x.toInt + y.toInt)), IP := s.IP + 4#64, MLEN := m }) ∧
  (∀ a b d : Operand, (encodeHead (.add a b d)).toNat =
    1 + 100 * a.mode.digit + 1000 * b.mode.digit + 10000 * d.mode.digit) ∧
  threeOperandFaults .add 1

/-- R121: MUL. -/
def Obligations.MulStoresTheWrappedProduct : Prop :=
  (∀ (a b d : Operand) (s : State) (x y : Word) (e : Nat), sourceValue a s = some x →
    sourceValue b s = some y → cellOf d s = some e → s.IP.toNat + 4 ≤ Config.ADDR_MAX →
    ∃ m, exec (.mul a b d) s = .next { s with
      Mem := s.Mem.write e (wrap (x.toInt * y.toInt)), IP := s.IP + 4#64, MLEN := m }) ∧
  (∀ a b d : Operand, (encodeHead (.mul a b d)).toNat =
    2 + 100 * a.mode.digit + 1000 * b.mode.digit + 10000 * d.mode.digit) ∧
  threeOperandFaults .mul 2

/-- R122: LT. -/
def Obligations.LtStoresTheSignedComparison : Prop :=
  (∀ (a b d : Operand) (s : State) (x y : Word) (e : Nat), sourceValue a s = some x →
    sourceValue b s = some y → cellOf d s = some e → s.IP.toNat + 4 ≤ Config.ADDR_MAX →
    ∃ m, exec (.lt a b d) s = .next { s with
      Mem := s.Mem.write e (if x.toInt < y.toInt then 1#64 else 0#64), IP := s.IP + 4#64,
      MLEN := m }) ∧
  (∀ a b d : Operand, (encodeHead (.lt a b d)).toNat =
    7 + 100 * a.mode.digit + 1000 * b.mode.digit + 10000 * d.mode.digit) ∧
  threeOperandFaults .lt 7

/-- R123: EQ. -/
def Obligations.EqStoresTheEquality : Prop :=
  (∀ (a b d : Operand) (s : State) (x y : Word) (e : Nat), sourceValue a s = some x →
    sourceValue b s = some y → cellOf d s = some e → s.IP.toNat + 4 ≤ Config.ADDR_MAX →
    ∃ m, exec (.eq a b d) s = .next { s with
      Mem := s.Mem.write e (if x = y then 1#64 else 0#64), IP := s.IP + 4#64, MLEN := m }) ∧
  (∀ a b d : Operand, (encodeHead (.eq a b d)).toNat =
    8 + 100 * a.mode.digit + 1000 * b.mode.digit + 10000 * d.mode.digit) ∧
  threeOperandFaults .eq 8

/-- R130: IN: the oldest input goes to the destination cell; on an empty channel it holds; all its faults
come before the channel is looked at. -/
def Obligations.InTakesTheOldestInput : Prop :=
  (∀ (d : Operand) (s : State) (e : Nat) (x : Word) (q : List Word), cellOf d s = some e →
    s.IP.toNat + 2 ≤ Config.ADDR_MAX → s.INQ = x :: q →
    exec (.inp d) s = .next { s with
      Mem := s.Mem.write e x, INQ := q, IP := s.IP + 2#64, MLEN := max s.MLEN (e + 1) }) ∧
  (∀ (d : Operand) (s : State) (e : Nat), cellOf d s = some e →
    s.IP.toNat + 2 ≤ Config.ADDR_MAX → s.INQ = [] → exec (.inp d) s = .next s) ∧
  (∀ (d : Operand) (s : State), d.writable = true →
    (cellOf d s = none → execRaises (.inp d) s 4#3 1#2) ∧
    (∀ e, cellOf d s = some e → Config.ADDR_MAX < s.IP.toNat + 2 →
      execRaises (.inp d) s 4#3 0#2)) ∧
  (∀ d : Operand, (encodeHead (.inp d)).toNat = 3 + 100 * d.mode.digit) ∧
  badModeRaises 3 1 ∧ badDestinationRaises 3 1 1

/-- R131: OUT: the value goes to the end of the output channel; it never holds, and the step reports it. -/
def Obligations.OutAppendsItsValue : Prop :=
  (∀ (a : Operand) (s : State) (v : Word), sourceValue a s = some v →
    s.IP.toNat + 2 ≤ Config.ADDR_MAX →
    ∃ m, exec (.out a) s = .next { s with
      OUTQ := s.OUTQ ++ [v], IP := s.IP + 2#64, MLEN := m }) ∧
  (∀ (a : Operand) (s : State),
    (sourceValue a s = none → execRaises (.out a) s 4#3 1#2) ∧
    (∀ v, sourceValue a s = some v → Config.ADDR_MAX < s.IP.toNat + 2 →
      execRaises (.out a) s 4#3 0#2)) ∧
  (∀ (a : Operand) (s u : State) (v : Word), fetch s = .run (.out a) u → sourceValue a s = some v →
    s.IP.toNat + 2 ≤ Config.ADDR_MAX → outcome s = .retiredOutput v) ∧
  (∀ a : Operand, (encodeHead (.out a)).toNat = 4 + 100 * a.mode.digit) ∧
  badModeRaises 4 1

/-- R140: JT. -/
def Obligations.JtJumpsWhenNotZero : Prop :=
  (∀ (c g : Operand) (s : State) (x y : Word), sourceValue c s = some x →
    sourceValue g s = some y → x.toInt ≠ 0 → 0 ≤ y.toInt →
    ∃ m, exec (.jt c g) s = .next { s with IP := y, MLEN := m }) ∧
  (∀ (c g : Operand) (s : State) (x y : Word), sourceValue c s = some x →
    sourceValue g s = some y → x.toInt = 0 → s.IP.toNat + 3 ≤ Config.ADDR_MAX →
    ∃ m, exec (.jt c g) s = .next { s with IP := s.IP + 3#64, MLEN := m }) ∧
  (∀ c g : Operand, (encodeHead (.jt c g)).toNat = 5 + 100 * c.mode.digit + 1000 * g.mode.digit) ∧
  jumpFaults .jt 5 fun x => x.toInt ≠ 0

/-- R141: JF. -/
def Obligations.JfJumpsWhenZero : Prop :=
  (∀ (c g : Operand) (s : State) (x y : Word), sourceValue c s = some x →
    sourceValue g s = some y → x.toInt = 0 → 0 ≤ y.toInt →
    ∃ m, exec (.jf c g) s = .next { s with IP := y, MLEN := m }) ∧
  (∀ (c g : Operand) (s : State) (x y : Word), sourceValue c s = some x →
    sourceValue g s = some y → x.toInt ≠ 0 → s.IP.toNat + 3 ≤ Config.ADDR_MAX →
    ∃ m, exec (.jf c g) s = .next { s with IP := s.IP + 3#64, MLEN := m }) ∧
  (∀ c g : Operand, (encodeHead (.jf c g)).toNat = 6 + 100 * c.mode.digit + 1000 * g.mode.digit) ∧
  jumpFaults .jf 6 fun x => x.toInt = 0

/-- R150: ARB: the operand's value, read at the old RB, is added to RB with `wrap`. -/
def Obligations.ArbAddsToRB : Prop :=
  (∀ (a : Operand) (s : State) (v : Word), sourceValue a s = some v →
    s.IP.toNat + 2 ≤ Config.ADDR_MAX →
    ∃ m, exec (.arb a) s = .next { s with
      RB := wrap (s.RB.toInt + v.toInt), IP := s.IP + 2#64, MLEN := m }) ∧
  (∀ (a : Operand) (s : State),
    (sourceValue a s = none → execRaises (.arb a) s 4#3 1#2) ∧
    (∀ v, sourceValue a s = some v → Config.ADDR_MAX < s.IP.toNat + 2 →
      execRaises (.arb a) s 4#3 0#2)) ∧
  (∀ a : Operand, (encodeHead (.arb a)).toNat = 9 + 100 * a.mode.digit) ∧
  badModeRaises 9 1

/-- R160: HALT changes no state, is the whole word 99 and no other, and cannot fault. -/
def Obligations.HaltChangesNothing : Prop :=
  (∀ s : State, exec .halt s = .next s) ∧
  (∀ W : Word, (∃ h, decodeWord W = .ok h ∧ h.op = .halt) ↔ W.toInt = 99) ∧
  (∀ s : State, s.FAULT = 0#3 → s.IP.toNat ≤ Config.ADDR_MAX →
    (s.Mem.read s.IP.toNat).toInt = 99 →
    step s = .next s ∧ outcome s = .halted ∧ halted (afterStep s) = true)

/-! ## Frames -/

/-- 41_arithmetic_compare.md section 1: what ADD, MUL, LT and EQ leave unchanged: RB, the channels, every
cell but the destination's, and FAULT and FINFO unless a fault is raised, which leaves all the rest. -/
def Obligations.FrameOfThreeOperandInstructions : Prop :=
  ∀ (a b d : Operand) (i : Instr) (s t : State),
    i = .add a b d ∨ i = .mul a b d ∨ i = .lt a b d ∨ i = .eq a b d → exec i s = .next t →
    t.RB = s.RB ∧ t.INQ = s.INQ ∧ t.OUTQ = s.OUTQ ∧
    (∀ e, cellOf d s = some e → ∀ c, c ≠ e → t.Mem.read c = s.Mem.read c) ∧
    (cellOf d s = none → t.Mem = s.Mem) ∧
    ((t.FAULT = s.FAULT ∧ t.FINFO = s.FINFO) ∨
      (∃ f : Fault, t.FAULT = f.code ∧ t.FINFO = f.info ∧ t.Mem = s.Mem ∧ t.IP = s.IP))

/-- 42_input_output.md (R130): what IN leaves unchanged: RB, OUTQ, every cell but the destination's, the
rest of INQ, and FAULT and FINFO unless a fault is raised, which leaves all the rest. -/
def Obligations.FrameOfIn : Prop :=
  ∀ (d : Operand) (s t : State), exec (.inp d) s = .next t →
    t.RB = s.RB ∧ t.OUTQ = s.OUTQ ∧ (t.INQ = s.INQ ∨ ∃ x, s.INQ = x :: t.INQ) ∧
    (∀ e, cellOf d s = some e → ∀ c, c ≠ e → t.Mem.read c = s.Mem.read c) ∧
    (cellOf d s = none → t.Mem = s.Mem) ∧
    ((t.FAULT = s.FAULT ∧ t.FINFO = s.FINFO) ∨
      (∃ f : Fault, t.FAULT = f.code ∧ t.FINFO = f.info ∧ t.Mem = s.Mem ∧ t.IP = s.IP ∧
        t.INQ = s.INQ))

/-- 42_input_output.md (R131), 43_jumps.md, 44_relative_base.md, 45_halt.md: OUT, JT, JF, ARB and HALT
store nothing: every cell is unchanged, INQ too, OUTQ but for OUT, RB but for ARB, and FAULT and FINFO
unless a fault is raised, which leaves all the rest. -/
def Obligations.FrameOfInstructionsThatStoreNothing : Prop :=
  ∀ (a b : Operand) (i : Instr) (s t : State),
    i = .out a ∨ i = .jt a b ∨ i = .jf a b ∨ i = .arb a ∨ i = .halt → exec i s = .next t →
    (∀ c, t.Mem.read c = s.Mem.read c) ∧ t.Mem = s.Mem ∧ t.INQ = s.INQ ∧
    (i ≠ .out a → t.OUTQ = s.OUTQ) ∧ (i ≠ .arb a → t.RB = s.RB) ∧
    ((t.FAULT = s.FAULT ∧ t.FINFO = s.FINFO) ∨
      (∃ f : Fault, t.FAULT = f.code ∧ t.FINFO = f.info ∧ t.IP = s.IP ∧ t.RB = s.RB ∧
        t.OUTQ = s.OUTQ))

/-! ## Rules across instructions -/

/-- R151: from `RB = 0`, `ARB #k` gives `RB = k`, and a destination `[rb+0]` then designates cell `k`; an
ADD to it writes that cell. -/
def Obligations.RelativeModeRoundTrip : Prop :=
  ∀ (s : State) (k : Word), s.RB = 0#64 → 0 ≤ k.toInt → s.IP.toNat + 6 ≤ Config.ADDR_MAX →
    s.Mem.wf = true →
    ∃ t, exec (.arb ⟨.immediate, k⟩) s = .next t ∧ t.RB = k ∧
      cellOf ⟨.relative, 0#64⟩ t = some k.toNat ∧
      ∀ (a b : Operand) (x y : Word), sourceValue a t = some x → sourceValue b t = some y →
        ∃ u, exec (.add a b ⟨.relative, 0#64⟩) t = .next u ∧
          u.Mem.read k.toNat = wrap (x.toInt + y.toInt)

/-- 20_memory.md section 6 (R57), 45_halt.md (R161): what ADD, MUL, LT, EQ, IN or a host poke stores is in
the tape that the next step fetches from, whatever cell it was stored to; where that cell is the one
the cursor then points at, the next step is what the stored word says, and the machine is halted
exactly if it is 99.  Where that next step faults, `nextStepIs` fixes the hidden length it leaves: that a
faulting step keeps the growth of the one fetch it made, which R109 allows and no rule requires, is the
model's choice (assumption log 4). -/
def Obligations.StoreUnderTheCursorIsFetchedNext : Prop :=
  (∀ (i : Instr) (s t : State) (e : Nat) (x : Word), s.Mem.wf = true → s.FAULT = 0#3 →
    storeOf i s = some (e, x) → exec i s = .next t → t.FAULT = 0#3 →
    t.Mem.read e = x ∧ nextStepIs (t.Mem.read t.IP.toNat) t ∧
      (e = t.IP.toNat → nextStepIs x t ∧ (halted t = true ↔ x.toInt = 99))) ∧
  ∀ (s t : State) (a : Int) (x : Word), s.Mem.wf = true → s.FAULT = 0#3 →
    s.IP.toNat ≤ Config.ADDR_MAX → s.poke a x = some t →
    t.Mem.read a.toNat = x ∧ t.IP = s.IP ∧ nextStepIs (t.Mem.read t.IP.toNat) t ∧
      (a = s.IP.toNat → nextStepIs x t ∧ (halted t = true ↔ x.toInt = 99))

/-- R132: over any execution without a reset, what was in INQ and what was pushed is, in order, what left
INQ (taken by INs or discarded by `clear_input`) and what is still in it; and what was in OUTQ and
what the completed OUTs appended is, in order, what consumers removed and what is still in it. -/
def Obligations.ChannelTrafficIsFifo : Prop :=
  ∀ (ops : List HostOp) (s : State), noReset ops = true →
    s.INQ ++ (traffic ops s).pushed =
      (traffic ops s).left.map Prod.snd ++ (hostRun ops s).2.INQ ∧
    s.OUTQ ++ (traffic ops s).sent = (traffic ops s).removed ++ (hostRun ops s).2.OUTQ

/-- R162: a halted core stays halted under every operation but a poke of the cell at IP or a reset; after
such a poke with another word it is not halted, and RB and the channels are as they were. -/
def Obligations.OnlyAPokeAtIPOrResetUnhalts : Prop :=
  (∀ (op : HostOp) (s : State), s.IP.toNat ≤ Config.ADDR_MAX → halted s = true →
    noReset [op] = true → (∀ x, op ≠ .poke s.IP.toNat x) →
    halted (hostDo op s).2 = true ∧ (hostDo op s).2.IP = s.IP) ∧
  (∀ (s t : State) (x : Word), s.Inv → halted s = true → s.poke s.IP.toNat x = some t →
    (halted t = true ↔ x.toInt = 99) ∧ t.Mem.read t.IP.toNat = x ∧ t.IP = s.IP ∧ t.RB = s.RB ∧
      t.INQ = s.INQ ∧ t.OUTQ = s.OUTQ ∧ ∀ a, a ≠ s.IP.toNat → t.Mem.read a = s.Mem.read a) ∧
  ∀ s : State, s.final = true ↔ halted s = true ∧ s.FAULT = 0#3

/-! ## The host interface -/

/-- 10_state.md section 9: the model's reset state is `new` of the empty image (its choice of the image,
assumption log 6). -/
def Obligations.ResetIsNewOfTheEmptyImage : Prop := State.new [] = some State.reset

/-- R240, R27: reset with a program image, in any state, loads it at 0, zeroes the rest and sets every
register and channel; an image with a number that does not fit a word, or too long, is refused. -/
def Obligations.NewLoadsTheImage : Prop :=
  ∀ P : List Int,
    ((State.new P : Option State) = none ↔
      (∃ x ∈ P, x < Config.WMIN ∨ Config.WMAX < x) ∨ Config.ADDR_MAX + 1 < P.length) ∧
    ∀ s, State.new P = some s →
      (∀ a, (h : a < P.length) → (s.Mem.read a).toInt = P[a]) ∧
      (∀ a, P.length ≤ a → s.Mem.read a = 0#64) ∧
      s.IP = 0#64 ∧ s.RB = 0#64 ∧ s.FAULT = 0#3 ∧ s.FINFO = 0#2 ∧ s.INQ = [] ∧ s.OUTQ = [] ∧
      s.MLEN = P.length ∧ ∀ u, hostDo (.new P) u = (.done, s)

/-- R172: `poke` writes one cell in every status and nothing else, never clears FAULT, and is refused
outside the address range, with no fault and no change. -/
def Obligations.PokeWritesOneCell : Prop :=
  ∀ (s : State) (a : Int) (x : Word),
    ((a < 0 ∨ (Config.ADDR_MAX : Int) < a) → hostDo (.poke a x) s = (.refused, s)) ∧
    (0 ≤ a → a ≤ (Config.ADDR_MAX : Int) → hostDo (.poke a x) s = (.done,
      { s with Mem := s.Mem.write a.toNat x, MLEN := max s.MLEN (a.toNat + 1) }))

/-- R173: `peek` reads any legal cell, and the diagnostic view reads the registers; no architectural state
changes but the hidden length. -/
def Obligations.PeekAndViewOnlyRead : Prop :=
  ∀ (s : State) (a : Int),
    ((a < 0 ∨ (Config.ADDR_MAX : Int) < a) → hostDo (.peek a) s = (.refused, s)) ∧
    (0 ≤ a → a ≤ (Config.ADDR_MAX : Int) → hostDo (.peek a) s = (.word (s.Mem.read a.toNat),
      { s with MLEN := max s.MLEN (a.toNat + 1) })) ∧
    hostDo .view s = (.registers s.IP s.RB s.FAULT s.FINFO, s)

/-- R174 to R177: the channel operations of the host. -/
def Obligations.HostChannelOperations : Prop :=
  ∀ (s : State) (x : Word) (q : List Word),
    hostDo (.pushInput x) s = (.done, { s with INQ := s.INQ ++ [x] }) ∧
    (s.OUTQ = [] → hostDo .popOutput s = (.noWord, s)) ∧
    (s.OUTQ = x :: q → hostDo .popOutput s = (.word x, { s with OUTQ := q })) ∧
    hostDo .drainOutputs s = (.words s.OUTQ, { s with OUTQ := [] }) ∧
    hostDo .clearInput s = (.done, { s with INQ := [] })

/-- 47_host_interface.md section 3 (R180): a call of `run_until_halted` ends at the first attempt that
completes no instruction, with the result that attempt's outcome gives and the state it leaves; in the
concurrent topology a hold does not end it, and other agents act between its attempts.  The bound, and
the schedule that may end before the call does, are the model's (assumption log 7). -/
def Obligations.RunUntilHaltedReportsTheState : Prop :=
  (∀ (k : Nat) (s t : State) (r : RunResult), s.Inv → runUntilHalted k s = (r, t) →
    match r with
    | .halted => t.final = true ∧ callEnds (·.completed = true) (· = .halted) k s t
    | .blocked => status t = .waiting ∧ callEnds (·.completed = true) (· = .blocked) k s t
    | .fault c f => c ≠ 0#3 ∧ t.FAULT = c ∧ t.FINFO = f ∧
        callEnds (·.completed = true) (fun o => o = .fault c f ∨ o = .faulted) k s t
    | .unfinished => t = stepsFrom k s ∧ ∀ i, i < k → (outcome (stepsFrom i s)).completed = true) ∧
  ∀ (k : Nat) (es rest : List SysEvent) (y z : System) (r : RunResult),
    y.runUntilHalted k es = (r, z, rest) →
    match r with
    | .halted =>
        y.callEnds k (fun o => o.completed = true ∨ o = .blocked) (· = .halted) es z rest
    | .blocked => False
    | .fault c f => (∃ n, z.nodes[k]? = some n ∧ n.own.FAULT = c ∧ n.own.FINFO = f) ∧ c ≠ 0#3 ∧
        y.callEnds k (fun o => o.completed = true ∨ o = .blocked)
          (fun o => o = .fault c f ∨ o = .faulted) es z rest
    | .unfinished => rest = [] ∧ z = (y.run es).2 ∧
        ∀ o ∈ y.attempts k es, o.completed = true ∨ o = .blocked

/-- 47_host_interface.md section 3 (R181, and the reading of assumption log 8): the call returns `v`
exactly if `v` is what the first OUT to complete since the call began appends, and it ends with that
OUT; the value leaves OUTQ if the caller owns it and stays if not, and values that were in OUTQ before
the call stay where they are.  In the concurrent topology a hold does not end the call.  The bound, and
the schedule that may end before the call does, are the model's (assumption log 7). -/
def Obligations.RunUntilNextOutputStopsAtTheFirstOutput : Prop :=
  (∀ (own : Bool) (k : Nat) (s t : State) (v : Word),
    runUntilNextOutput own k s = (.output v, t) ↔
      ∃ u, callEnds (· = .retired) (· = .retiredOutput v) k s u ∧ t = u.takeProduced own) ∧
  (∀ (own : Bool) (k : Nat) (s t : State) (r : NextOutputResult), s.Inv →
    runUntilNextOutput own k s = (r, t) →
    match r with
    | .output v => t.OUTQ = if own then s.OUTQ else s.OUTQ ++ [v]
    | .noOutput => t.OUTQ = s.OUTQ ∧ t.final = true ∧ callEnds (· = .retired) (· = .halted) k s t
    | .fault c f => t.OUTQ = s.OUTQ ∧ t.FAULT = c ∧ t.FINFO = f ∧ c ≠ 0#3 ∧
        callEnds (· = .retired) (fun o => o = .fault c f ∨ o = .faulted) k s t
    | .blocked => t.OUTQ = s.OUTQ ∧ status t = .waiting ∧
        callEnds (· = .retired) (· = .blocked) k s t
    | .unfinished => t.OUTQ = s.OUTQ ∧ t = stepsFrom k s ∧
        ∀ i, i < k → outcome (stepsFrom i s) = .retired) ∧
  (∀ (k : Nat) (es rest : List SysEvent) (y z : System) (v : Word),
    y.runUntilNextOutput k es = (.output v, z, rest) ↔
      ∃ u, y.callEnds k (fun o => o = .retired ∨ o = .blocked) (· = .retiredOutput v) es u rest ∧
        z = u.takeProduced k) ∧
  ∀ (k : Nat) (es rest : List SysEvent) (y z : System) (r : NextOutputResult),
    y.runUntilNextOutput k es = (r, z, rest) →
    match r with
    | .output v => ∃ (n : Node) (q : List Word) (u : System), z.nodes[k]? = some n ∧
        z = u.takeProduced k ∧ u.chan n.outCh = q ++ [v] ∧
        z.chan n.outCh = if n.outCh ∈ z.hostTakes then q else q ++ [v]
    | .noOutput => y.callEnds k (fun o => o = .retired ∨ o = .blocked) (· = .halted) es z rest
    | .fault c f => (∃ n, z.nodes[k]? = some n ∧ n.own.FAULT = c ∧ n.own.FINFO = f) ∧ c ≠ 0#3 ∧
        y.callEnds k (fun o => o = .retired ∨ o = .blocked)
          (fun o => o = .fault c f ∨ o = .faulted) es z rest
    | .blocked => False
    | .unfinished => rest = [] ∧ z = (y.run es).2 ∧
        ∀ o ∈ y.attempts k es, o = .retired ∨ o = .blocked

/-- R182: on a core already halted the call returns the absence marker, which is no output, and changes
nothing. -/
def Obligations.NextOutputOfAHaltedCoreIsAbsent : Prop :=
  (∀ (own : Bool) (k : Nat) (s : State), s.IP.toNat ≤ Config.ADDR_MAX → s.FAULT = 0#3 →
    halted s = true → runUntilNextOutput own (k + 1) s = (.noOutput, s)) ∧
  ∀ v : Word, NextOutputResult.output v ≠ .noOutput

/-! ## Composition -/

/-- 47_host_interface.md section 4, 60_exceptions.md (R210): a step of one instance, faulting or not, or a
host operation on it leaves every other instance's tape and registers, every channel it is not wired
to, and the wiring as they were; on a wiring that gives a channel two producers or two consumers every
event is refused and changes nothing (R185, 93_implementation_defined.md U11: `refuse`; that it is the
event that is refused is the model's choice, assumption log 11). -/
def Obligations.StepOfOneInstanceLeavesTheOthers : Prop :=
  (∀ (y : System) (k : Nat) (op : HostOp) (n : Node), y.nodes[k]? = some n →
    (∀ j, j ≠ k → (y.apply (.on k op)).2.nodes[j]? = y.nodes[j]?) ∧
    (∀ c, c ≠ n.inCh → c ≠ n.outCh → (y.apply (.on k op)).2.chan c = y.chan c) ∧
    (∃ m, (y.apply (.on k op)).2.nodes[k]? = some m ∧ m.inCh = n.inCh ∧ m.outCh = n.outCh) ∧
    (y.apply (.on k op)).2.chans.length = y.chans.length ∧
    (y.apply (.on k op)).2.hostFeeds = y.hostFeeds ∧
    (y.apply (.on k op)).2.hostTakes = y.hostTakes ∧
    (y.topologyOk = true → (y.apply (.on k op)).2.topologyOk = true)) ∧
  ∀ (y : System) (e : SysEvent), y.topologyOk = false → y.apply e = (.refused, y)

/-- 47_host_interface.md section 4 (R184, R185): a shared channel is one queue: what the producer's OUT
appends stands at its end, and an IN of the consumer takes its oldest word.  The host appends where it
is the channel's producer and removes where it is its consumer (R185).  That its push, pop and drain
elsewhere are refused and change nothing is the model's choice (assumption log 11): R185 and
93_implementation_defined.md U11 say who may act and that a second producer or consumer is refused, and
R174 to R176 know no refusal. -/
def Obligations.SharedChannelHandsOverInOrder : Prop :=
  ∀ (y : System) (k : Nat) (n : Node), y.topologyOk = true → y.nodes[k]? = some n →
    (∀ v, nextOutput (y.view n) = some v →
      (y.apply (.on k .step)).1 = .attempted (.retiredOutput v) ∧
      (y.apply (.on k .step)).2.chan n.outCh = y.chan n.outCh ++ [v] ∧
      (n.inCh ≠ n.outCh → (y.apply (.on k .step)).2.chan n.inCh = y.chan n.inCh)) ∧
    (∀ x, nextInput (y.view n) = some (some x) →
      y.chan n.inCh = x :: (y.apply (.on k .step)).2.chan n.inCh ∧
      (n.inCh ≠ n.outCh → (y.apply (.on k .step)).2.chan n.outCh = y.chan n.outCh)) ∧
    (∀ x, (n.inCh ∈ y.hostFeeds →
        (y.apply (.on k (.pushInput x))).2.chan n.inCh = y.chan n.inCh ++ [x]) ∧
      (n.inCh ∉ y.hostFeeds → y.apply (.on k (.pushInput x)) = (.refused, y))) ∧
    (∀ x q, n.outCh ∈ y.hostTakes → y.chan n.outCh = x :: q →
      (y.apply (.on k .popOutput)).1 = .word x ∧
        (y.apply (.on k .popOutput)).2.chan n.outCh = q) ∧
    (n.outCh ∉ y.hostTakes → y.apply (.on k .popOutput) = (.refused, y) ∧
      y.apply (.on k .drainOutputs) = (.refused, y))

/-- 47_host_interface.md section 4 (R187), 40_execution_cycle.md (R111): a starved instance stays waiting,
its every attempt held, under every schedule in which the host neither resets, nor pokes, nor sends
more than it said it would; and an instance is not starved while the host still has something to send
to it, or the instance that feeds it is running.  That the host's intention to send is an argument is
the model's form (assumption log 11). -/
def Obligations.StarvedInstanceStaysWaiting : Prop :=
  (∀ (y : System) (sends : List Nat) (k : Nat) (n : Node) (es : List SysEvent),
    y.nodes[k]? = some n → y.starved sends n = true → System.allOrdinary sends es y = true →
    (∃ m, (y.run es).2.nodes[k]? = some m ∧ (y.run es).2.starved sends m = true) ∧
      ∀ o ∈ y.attempts k es, o = .blocked) ∧
  ∀ (y : System) (sends : List Nat) (n : Node), y.topologyOk = true →
    (n.inCh ∈ y.hostFeeds → n.inCh ∈ sends → y.starved sends n = false) ∧
    ∀ (k : Nat) (p : Node), y.nodes[k]? = some p → p.outCh = n.inCh → y.status p = .running →
      y.starved sends n = false

/-! ## The width of a word -/

/-- 00_scope.md section 4 (R3), 92_eei_decisions.md D3, 93_implementation_defined.md U1: `XLEN` is an
argument, and this hardware is its value 64; a step that neither overflows nor meets the bounds of the
address space does the same at every larger width. -/
def Obligations.StepIsTheSameAtEveryLargerWidth : Prop :=
  (∀ s : State, step s = stepAt s) ∧
  ∀ (XLEN N : Nat), 64 ≤ XLEN → XLEN ≤ N → ∀ s : State XLEN, s.Inv → s.overflowsNext = false →
    (afterStep s).FAULT ≠ 4#3 →
    afterStep (s.widen N) = (afterStep s).widen N ∧ outcome (s.widen N) = (outcome s).widen N
end

