-- ==== Sys2Proof/Laws/State.lean ====
section
/-! SUPPORT. One lemma per field per update of the state, so that no later proof unfolds a record
update. -/

namespace Sys2Proof.Machine

variable {XLEN : Nat}

section
variable (s : State XLEN)

@[simp] theorem State.touch_Mem (a : Nat) : (s.touch a).Mem = s.Mem := rfl
@[simp] theorem State.touch_IP (a : Nat) : (s.touch a).IP = s.IP := rfl
@[simp] theorem State.touch_RB (a : Nat) : (s.touch a).RB = s.RB := rfl
@[simp] theorem State.touch_FAULT (a : Nat) : (s.touch a).FAULT = s.FAULT := rfl
@[simp] theorem State.touch_FINFO (a : Nat) : (s.touch a).FINFO = s.FINFO := rfl
@[simp] theorem State.touch_INQ (a : Nat) : (s.touch a).INQ = s.INQ := rfl
@[simp] theorem State.touch_OUTQ (a : Nat) : (s.touch a).OUTQ = s.OUTQ := rfl
@[simp] theorem State.touch_MLEN (a : Nat) : (s.touch a).MLEN = max s.MLEN (a + 1) := rfl

@[simp] theorem State.store_Mem (a : Nat) (v : Word XLEN) : (s.store a v).Mem = s.Mem.write a v := rfl
@[simp] theorem State.store_IP (a : Nat) (v : Word XLEN) : (s.store a v).IP = s.IP := rfl
@[simp] theorem State.store_RB (a : Nat) (v : Word XLEN) : (s.store a v).RB = s.RB := rfl
@[simp] theorem State.store_FAULT (a : Nat) (v : Word XLEN) : (s.store a v).FAULT = s.FAULT := rfl
@[simp] theorem State.store_FINFO (a : Nat) (v : Word XLEN) : (s.store a v).FINFO = s.FINFO := rfl
@[simp] theorem State.store_INQ (a : Nat) (v : Word XLEN) : (s.store a v).INQ = s.INQ := rfl
@[simp] theorem State.store_OUTQ (a : Nat) (v : Word XLEN) : (s.store a v).OUTQ = s.OUTQ := rfl
@[simp] theorem State.store_MLEN (a : Nat) (v : Word XLEN) : (s.store a v).MLEN = max s.MLEN (a + 1) := rfl

@[simp] theorem State.setIP_Mem (a : Nat) : (s.setIP a).Mem = s.Mem := rfl
@[simp] theorem State.setIP_IP (a : Nat) : (s.setIP a).IP = BitVec.ofNat XLEN a := rfl
@[simp] theorem State.setIP_RB (a : Nat) : (s.setIP a).RB = s.RB := rfl
@[simp] theorem State.setIP_FAULT (a : Nat) : (s.setIP a).FAULT = s.FAULT := rfl
@[simp] theorem State.setIP_FINFO (a : Nat) : (s.setIP a).FINFO = s.FINFO := rfl
@[simp] theorem State.setIP_INQ (a : Nat) : (s.setIP a).INQ = s.INQ := rfl
@[simp] theorem State.setIP_OUTQ (a : Nat) : (s.setIP a).OUTQ = s.OUTQ := rfl
@[simp] theorem State.setIP_MLEN (a : Nat) : (s.setIP a).MLEN = s.MLEN := rfl

@[simp] theorem State.setRB_Mem (v : Word XLEN) : (s.setRB v).Mem = s.Mem := rfl
@[simp] theorem State.setRB_IP (v : Word XLEN) : (s.setRB v).IP = s.IP := rfl
@[simp] theorem State.setRB_RB (v : Word XLEN) : (s.setRB v).RB = v := rfl
@[simp] theorem State.setRB_FAULT (v : Word XLEN) : (s.setRB v).FAULT = s.FAULT := rfl
@[simp] theorem State.setRB_FINFO (v : Word XLEN) : (s.setRB v).FINFO = s.FINFO := rfl
@[simp] theorem State.setRB_INQ (v : Word XLEN) : (s.setRB v).INQ = s.INQ := rfl
@[simp] theorem State.setRB_OUTQ (v : Word XLEN) : (s.setRB v).OUTQ = s.OUTQ := rfl
@[simp] theorem State.setRB_MLEN (v : Word XLEN) : (s.setRB v).MLEN = s.MLEN := rfl

@[simp] theorem State.pushOutput_Mem (v : Word XLEN) : (s.pushOutput v).Mem = s.Mem := rfl
@[simp] theorem State.pushOutput_IP (v : Word XLEN) : (s.pushOutput v).IP = s.IP := rfl
@[simp] theorem State.pushOutput_RB (v : Word XLEN) : (s.pushOutput v).RB = s.RB := rfl
@[simp] theorem State.pushOutput_FAULT (v : Word XLEN) : (s.pushOutput v).FAULT = s.FAULT := rfl
@[simp] theorem State.pushOutput_FINFO (v : Word XLEN) : (s.pushOutput v).FINFO = s.FINFO := rfl
@[simp] theorem State.pushOutput_INQ (v : Word XLEN) : (s.pushOutput v).INQ = s.INQ := rfl
@[simp] theorem State.pushOutput_OUTQ (v : Word XLEN) : (s.pushOutput v).OUTQ = s.OUTQ ++ [v] := rfl
@[simp] theorem State.pushOutput_MLEN (v : Word XLEN) : (s.pushOutput v).MLEN = s.MLEN := rfl

@[simp] theorem State.setINQ_Mem (q : List (Word XLEN)) : (s.setINQ q).Mem = s.Mem := rfl
@[simp] theorem State.setINQ_IP (q : List (Word XLEN)) : (s.setINQ q).IP = s.IP := rfl
@[simp] theorem State.setINQ_RB (q : List (Word XLEN)) : (s.setINQ q).RB = s.RB := rfl
@[simp] theorem State.setINQ_FAULT (q : List (Word XLEN)) : (s.setINQ q).FAULT = s.FAULT := rfl
@[simp] theorem State.setINQ_FINFO (q : List (Word XLEN)) : (s.setINQ q).FINFO = s.FINFO := rfl
@[simp] theorem State.setINQ_INQ (q : List (Word XLEN)) : (s.setINQ q).INQ = q := rfl
@[simp] theorem State.setINQ_OUTQ (q : List (Word XLEN)) : (s.setINQ q).OUTQ = s.OUTQ := rfl
@[simp] theorem State.setINQ_MLEN (q : List (Word XLEN)) : (s.setINQ q).MLEN = s.MLEN := rfl

@[simp] theorem State.raise_Mem (f : Fault) : (s.raise f).Mem = s.Mem := rfl
@[simp] theorem State.raise_IP (f : Fault) : (s.raise f).IP = s.IP := rfl
@[simp] theorem State.raise_RB (f : Fault) : (s.raise f).RB = s.RB := rfl
@[simp] theorem State.raise_FAULT (f : Fault) : (s.raise f).FAULT = f.code := rfl
@[simp] theorem State.raise_FINFO (f : Fault) : (s.raise f).FINFO = f.info := rfl
@[simp] theorem State.raise_INQ (f : Fault) : (s.raise f).INQ = s.INQ := rfl
@[simp] theorem State.raise_OUTQ (f : Fault) : (s.raise f).OUTQ = s.OUTQ := rfl
@[simp] theorem State.raise_MLEN (f : Fault) : (s.raise f).MLEN = s.MLEN := rfl

@[simp] theorem State.pushInput_Mem (v : Word XLEN) : (s.pushInput v).Mem = s.Mem := rfl
@[simp] theorem State.pushInput_IP (v : Word XLEN) : (s.pushInput v).IP = s.IP := rfl
@[simp] theorem State.pushInput_RB (v : Word XLEN) : (s.pushInput v).RB = s.RB := rfl
@[simp] theorem State.pushInput_FAULT (v : Word XLEN) : (s.pushInput v).FAULT = s.FAULT := rfl
@[simp] theorem State.pushInput_FINFO (v : Word XLEN) : (s.pushInput v).FINFO = s.FINFO := rfl
@[simp] theorem State.pushInput_INQ (v : Word XLEN) : (s.pushInput v).INQ = s.INQ ++ [v] := rfl
@[simp] theorem State.pushInput_OUTQ (v : Word XLEN) : (s.pushInput v).OUTQ = s.OUTQ := rfl
@[simp] theorem State.pushInput_MLEN (v : Word XLEN) : (s.pushInput v).MLEN = s.MLEN := rfl

@[simp] theorem State.clearInput_Mem : (s.clearInput).Mem = s.Mem := rfl
@[simp] theorem State.clearInput_IP : (s.clearInput).IP = s.IP := rfl
@[simp] theorem State.clearInput_RB : (s.clearInput).RB = s.RB := rfl
@[simp] theorem State.clearInput_FAULT : (s.clearInput).FAULT = s.FAULT := rfl
@[simp] theorem State.clearInput_FINFO : (s.clearInput).FINFO = s.FINFO := rfl
@[simp] theorem State.clearInput_INQ : (s.clearInput).INQ = [] := rfl
@[simp] theorem State.clearInput_OUTQ : (s.clearInput).OUTQ = s.OUTQ := rfl
@[simp] theorem State.clearInput_MLEN : (s.clearInput).MLEN = s.MLEN := rfl

end

end Sys2Proof.Machine
end

