-- ==== Sys2Proof/Laws/Memory.lean ====
section
/-! SUPPORT. The laws of the tape: a read after a write, and the canonical form, which every memory
operation keeps (20_memory.md rule R43). -/

namespace Sys2Proof.Machine

variable {XLEN : Nat}

@[simp] theorem Memory.read_nil (a : Nat) : Memory.read [] a = 0#XLEN := rfl

/-- The tape gives back what was written to a cell. -/
theorem Memory.read_write_same (m : Memory XLEN) (lo a : Nat) (v : Word XLEN)
    (h : Memory.wfFrom lo m = true) : (m.write a v).read a = v := by
  induction m generalizing lo with
  | nil =>
    by_cases hv : v = 0#XLEN <;> simp [Memory.write, Memory.read, hv]
  | cons c m ih =>
    obtain ⟨k, w⟩ := c
    simp only [Memory.wfFrom, Bool.and_eq_true, decide_eq_true_eq] at h
    have hz : ∀ lo', a < lo' → Memory.wfFrom lo' m = true → Memory.read m a = 0#XLEN := by
      intro lo'
      clear ih h
      induction m generalizing lo' with
      | nil => intros; rfl
      | cons c m ihm =>
        obtain ⟨k', w'⟩ := c
        intro hlt hw
        simp only [Memory.wfFrom, Bool.and_eq_true, decide_eq_true_eq] at hw
        have hne : k' ≠ a := by omega
        simp only [Memory.read, hne, if_false]
        exact ihm (k' + 1) (by omega) hw.2
    by_cases hlt : a < k
    · by_cases hv : v = 0#XLEN
      · have hne : k ≠ a := by omega
        simp [Memory.write, Memory.read, hlt, hv, hne, hz (k + 1) (by omega) h.2]
      · simp [Memory.write, Memory.read, hlt, hv]
    · by_cases heq : a = k
      · subst heq
        by_cases hv : v = 0#XLEN
        · simp [Memory.write, hv, hz (a + 1) (by omega) h.2]
        · simp [Memory.write, Memory.read, hv]
      · have hne : k ≠ a := fun e => heq e.symm
        simp [Memory.write, Memory.read, hlt, heq, hne, ih (k + 1) h.2]

/-- A write leaves every other cell alone, in canonical form or not. -/
theorem Memory.read_write_other (m : Memory XLEN) {a b : Nat} (v : Word XLEN) (h : b ≠ a) :
    (m.write a v).read b = m.read b := by
  have h' : a ≠ b := fun e => h e.symm
  induction m with
  | nil => by_cases hv : v = 0#XLEN <;> simp [Memory.write, Memory.read, hv, h']
  | cons c m ih =>
    obtain ⟨k, w⟩ := c
    simp only [Memory.write]
    split
    · split <;> simp [Memory.read, h']
    · split
      · rename_i hk
        subst hk
        split <;> simp [Memory.read, h']
      · simp [Memory.read, ih]

/-- The canonical form from a higher address is one from a lower. -/
theorem Memory.wfFrom_mono {m : Memory XLEN} {lo lo' : Nat} (h : Memory.wfFrom lo m = true)
    (hle : lo' ≤ lo) : Memory.wfFrom lo' m = true := by
  cases m with
  | nil => rfl
  | cons c m =>
    obtain ⟨k, w⟩ := c
    simp only [Memory.wfFrom, Bool.and_eq_true, decide_eq_true_eq] at h ⊢
    exact ⟨⟨⟨by omega, h.1.1.2⟩, h.1.2⟩, h.2⟩

theorem Memory.wfFrom_write {m : Memory XLEN} {lo a : Nat} (v : Word XLEN) (h : Memory.wfFrom lo m = true)
    (hlo : lo ≤ a) (ha : a ≤ Config.ADDR_MAX XLEN) : Memory.wfFrom lo (m.write a v) = true := by
  induction m generalizing lo with
  | nil => by_cases hv : v = 0#XLEN <;> simp [Memory.write, Memory.wfFrom, hv, hlo, ha]
  | cons c m ih =>
    obtain ⟨k, w⟩ := c
    have h0 := h
    simp only [Memory.wfFrom, Bool.and_eq_true, decide_eq_true_eq] at h
    simp only [Memory.write]
    split
    · split
      · exact h0
      · rename_i hak hv
        simp only [Memory.wfFrom, Bool.and_eq_true, decide_eq_true_eq]
        exact ⟨⟨⟨hlo, ha⟩, hv⟩, ⟨⟨⟨by omega, h.1.1.2⟩, h.1.2⟩, h.2⟩⟩
    · split
      · rename_i hak
        subst hak
        split
        · exact Memory.wfFrom_mono h.2 (by omega)
        · rename_i hv
          simp only [Memory.wfFrom, Bool.and_eq_true, decide_eq_true_eq]
          exact ⟨⟨⟨hlo, ha⟩, hv⟩, h.2⟩
      · rename_i hak hne
        simp only [Memory.wfFrom, Bool.and_eq_true, decide_eq_true_eq]
        exact ⟨⟨⟨h.1.1.1, h.1.1.2⟩, h.1.2⟩, ih h.2 (by omega)⟩

/-- Writing to a legal address keeps the canonical form. -/
theorem Memory.wf_write {m : Memory XLEN} {a : Nat} (v : Word XLEN) (h : m.wf = true)
    (ha : a ≤ Config.ADDR_MAX XLEN) : (m.write a v).wf = true :=
  Memory.wfFrom_write v h (Nat.zero_le a) ha

/-- `store` keeps the canonical form. -/
theorem State.store_wf {s : State XLEN} {a : Nat} (v : Word XLEN) (h : s.Mem.wf = true)
    (ha : a ≤ Config.ADDR_MAX XLEN) : (s.store a v).Mem.wf = true :=
  Memory.wf_write v h ha

/-- `storeWords` keeps the canonical form. -/
theorem State.storeWords_wf {s : State XLEN} {a : Nat} (ws : List (Word XLEN)) (h : s.Mem.wf = true) :
    (s.storeWords a ws).Mem.wf = true := by
  induction ws generalizing s a with
  | nil => exact h
  | cons w ws ih =>
    simp only [State.storeWords]
    split
    · rename_i ha
      exact ih (State.store_wf w h ha)
    · exact h

/-- Reset's tape, with nothing listed, is in canonical form. -/
theorem reset_mem_wf : State.reset.Mem.wf = true := rfl

end Sys2Proof.Machine
end

