-- ==== Sys2Proof/Laws/Ops.lean ====
section
/-! SUPPORT. What each shared operation can do, said once. -/

namespace Sys2Proof.Machine

variable {XLEN : Nat}

/-! ## Legal addresses -/

theorem legalAddress_eq_some {x : Int} {e : Nat} :
    legalAddress XLEN x = some e ↔ (e : Int) = x ∧ e ≤ Config.ADDR_MAX XLEN := by
  unfold legalAddress
  constructor
  · intro h
    split at h
    · cases h; omega
    · cases h
  · rintro ⟨rfl, h⟩
    rw [if_pos (by omega)]
    simp

theorem legalAddress_eq_none {x : Int} :
    legalAddress XLEN x = none ↔ x < 0 ∨ (Config.ADDR_MAX XLEN : Int) < x := by
  unfold legalAddress
  split <;> simp <;> omega

/-- R4: the address space of a word of at least one bit is its lower half. -/
theorem two_mul_addrMax (h : 0 < XLEN) : 2 * (Config.ADDR_MAX XLEN + 1) = 2 ^ XLEN := by
  obtain ⟨n, rfl⟩ : ∃ n, XLEN = n + 1 := ⟨XLEN - 1, by omega⟩
  have := Nat.two_pow_pos n
  simp only [Config.ADDR_MAX, Nat.add_sub_cancel, Nat.pow_succ]
  omega

theorem addrMax_lt : Config.ADDR_MAX XLEN < 2 ^ XLEN := by
  by_cases h : 0 < XLEN
  · have := two_mul_addrMax h; omega
  · obtain rfl : XLEN = 0 := by omega
    decide

/-- An address is kept by the word that holds it. -/
theorem toNat_ofNat_addr {n : Nat} (h : n ≤ Config.ADDR_MAX XLEN) :
    (BitVec.ofNat XLEN n).toNat = n := by
  rw [BitVec.toNat_ofNat]
  exact Nat.mod_eq_of_lt (Nat.lt_of_le_of_lt h addrMax_lt)

/-- R3, R4: of a word of 64 bits or more. -/
theorem addrMax_large (h : 64 ≤ XLEN) : Config.ADDR_MAX ≤ Config.ADDR_MAX XLEN := by
  have : 2 ^ (64 - 1) ≤ 2 ^ (XLEN - 1) := Nat.pow_le_pow_right (by decide) (by omega)
  simp only [Config.ADDR_MAX]
  omega

/-- R4: a word is an address exactly if it is not negative, and its value as an address is then its
value as a signed integer. -/
theorem toInt_cases {w : Word XLEN} :
    (w.toNat ≤ Config.ADDR_MAX XLEN ∧ w.toInt = w.toNat) ∨
    (Config.ADDR_MAX XLEN < w.toNat ∧ w.toInt < 0) := by
  have hlt := w.isLt
  rw [BitVec.toInt_eq_toNat_cond]
  by_cases h : 0 < XLEN
  · have := two_mul_addrMax h
    split <;> omega
  · obtain rfl : XLEN = 0 := by omega
    have : Config.ADDR_MAX 0 = 0 := rfl
    split <;> omega

theorem legalAddress_toInt {w : Word XLEN} {e : Nat} :
    legalAddress XLEN w.toInt = some e ↔ w.toNat = e ∧ e ≤ Config.ADDR_MAX XLEN := by
  rw [legalAddress_eq_some]
  have := toInt_cases (w := w)
  omega

theorem legalAddress_toInt_none {w : Word XLEN} :
    legalAddress XLEN w.toInt = none ↔ Config.ADDR_MAX XLEN < w.toNat := by
  rw [legalAddress_eq_none]
  have := toInt_cases (w := w)
  omega

/-! ## Faults -/

theorem Fault.code_ne_zero (f : Fault) : f.code ≠ 0#3 := by cases f <;> simp [Fault.code]

/-! ## Retiring -/

theorem retire_fits {w : Nat} {before : State XLEN} (after : State XLEN)
    (h : before.IP.toNat + w ≤ Config.ADDR_MAX XLEN) :
    retire w before after = .next (after.setIP (before.IP.toNat + w)) := if_pos h

theorem retire_above {w : Nat} {before : State XLEN} (after : State XLEN)
    (h : Config.ADDR_MAX XLEN < before.IP.toNat + w) :
    retire w before after = .next (before.raise (.invalidAddress 0)) := if_neg (by omega)

/-- Everything `retire` can do. -/
theorem retire_cases {w : Nat} {before after t : State XLEN} (h : retire w before after = .next t) :
    (before.IP.toNat + w ≤ Config.ADDR_MAX XLEN ∧ t = after.setIP (before.IP.toNat + w)) ∨
    (Config.ADDR_MAX XLEN < before.IP.toNat + w ∧ t = before.raise (.invalidAddress 0)) := by
  unfold retire at h
  split at h
  · exact .inl ⟨‹_›, by cases h; rfl⟩
  · exact .inr ⟨by omega, by cases h; rfl⟩

/-! ## Operands -/

theorem cellOf_le {o : Operand XLEN} {s : State XLEN} {e : Nat} (h : cellOf o s = some e) :
    e ≤ Config.ADDR_MAX XLEN := by
  unfold cellOf at h
  split at h
  · cases h
  · exact (legalAddress_eq_some.mp h).2

/-- The cell of an operand depends on RB alone. -/
theorem cellOf_congr {s t : State XLEN} (o : Operand XLEN) (h : t.RB = s.RB) : cellOf o t = cellOf o s := by
  simp [cellOf, h]

/-- The value of a source depends on RB and the tape alone. -/
theorem sourceValue_congr {s t : State XLEN} (o : Operand XLEN) (hr : t.RB = s.RB) (hm : t.Mem = s.Mem) :
    sourceValue o t = sourceValue o s := by
  simp [sourceValue, cellOf_congr o hr, hm]

@[simp] theorem cellOf_touch (o : Operand XLEN) (s : State XLEN) (a : Nat) :
    cellOf o (s.touch a) = cellOf o s := cellOf_congr o rfl

@[simp] theorem sourceValue_touch (o : Operand XLEN) (s : State XLEN) (a : Nat) :
    sourceValue o (s.touch a) = sourceValue o s := sourceValue_congr o rfl rfl

/-- Everything `touchSource` can do: the hidden length may grow, to no more than fits. -/
theorem touchSource_eq (o : Operand XLEN) (s : State XLEN) :
    ∃ m, touchSource o s = { s with MLEN := m } ∧ s.MLEN ≤ m ∧
      m ≤ max s.MLEN (Config.ADDR_MAX XLEN + 1) := by
  unfold touchSource
  split
  · exact ⟨s.MLEN, rfl, Nat.le_refl _, Nat.le_max_left _ _⟩
  · rename_i a ha
    have := cellOf_le ha
    exact ⟨max s.MLEN (a + 1), rfl, Nat.le_max_left _ _, by omega⟩

end Sys2Proof.Machine
end

