-- ==== Sys2Proof/Laws/Exec.lean ====
section
/-! SUPPORT. Inversion lemmas of the shared meanings: if a meaning answers `next t`, one of the cases
listed holds.  `Grown s m` says that only the hidden length differs (20_memory.md rule R44). -/

namespace Sys2Proof.Machine

variable {XLEN : Nat}

/-- `m` is the hidden length after some legal accesses in `s`. -/
def Grown (s : State XLEN) (m : Nat) : Prop := s.MLEN ≤ m ∧ m ≤ max s.MLEN (Config.ADDR_MAX XLEN + 1)

/-- The fault is one of the table of R200, with an operand index it gives. -/
abbrev Fault.ok (f : Fault) : Prop := faultPairOk f.code f.info = true

theorem Grown.refl (s : State XLEN) : Grown s s.MLEN := ⟨Nat.le_refl _, Nat.le_max_left _ _⟩

theorem touchSource_grown (o : Operand XLEN) (s : State XLEN) :
    ∃ m, touchSource o s = { s with MLEN := m } ∧ Grown s m := by
  obtain ⟨m, h, hm⟩ := touchSource_eq o s
  exact ⟨m, h, hm⟩

theorem touchSource_two (a b : Operand XLEN) (s : State XLEN) :
    ∃ m, touchSource b (touchSource a s) = { s with MLEN := m } ∧ Grown s m := by
  obtain ⟨m, h, hm⟩ := touchSource_eq a s
  obtain ⟨m', h', hm'⟩ := touchSource_eq b (touchSource a s)
  rw [h] at h' hm'
  simp only at hm'
  exact ⟨m', by rw [h, h'], by unfold Grown; omega⟩

/-- Everything a three-operand instruction can do (R124). -/
theorem execThree_cases {f : Word XLEN → Word XLEN → Word XLEN} {a b d : Operand XLEN} {s t : State XLEN}
    (h : execThree f a b d s = .next t) :
    (∃ k m, k.ok ∧ Grown s m ∧ t = ({ s with MLEN := m } : State XLEN).raise k) ∨
    (∃ x y e m, sourceValue a s = some x ∧ sourceValue b s = some y ∧ cellOf d s = some e ∧
      s.IP.toNat + 4 ≤ Config.ADDR_MAX XLEN ∧ Grown s m ∧
      t = { s with Mem := s.Mem.write e (f x y), IP := BitVec.ofNat XLEN (s.IP.toNat + 4),
                   MLEN := max m (e + 1) }) := by
  unfold execThree at h
  split at h
  · split at h
    · cases h; exact .inl ⟨_, _, rfl, Grown.refl s, rfl⟩
    · rename_i x hx
      split at h
      · cases h; exact .inl ⟨_, _, rfl, Grown.refl s, rfl⟩
      · rename_i y hy
        split at h
        · cases h; exact .inl ⟨_, _, rfl, Grown.refl s, rfl⟩
        · rename_i e he
          obtain ⟨m, hm, hg⟩ := touchSource_two a b s
          simp only [hm] at h
          obtain ⟨hi, rfl⟩ | ⟨-, rfl⟩ := retire_cases h
          · exact .inr ⟨x, y, e, m, hx, hy, he, hi, hg, rfl⟩
          · exact .inl ⟨_, m, rfl, hg, rfl⟩
  · cases h; exact .inl ⟨_, _, rfl, Grown.refl s, rfl⟩

theorem inputCell_error_ok {d : Operand XLEN} {s : State XLEN} {f : Fault} (h : inputCell d s = .error f) :
    f.ok := by
  unfold inputCell at h
  split at h
  · split at h
    · cases h; rfl
    · split at h
      · cases h
      · cases h; rfl
  · cases h; rfl

/-- Everything IN can do (R130). -/
theorem execIn_cases {d : Operand XLEN} {s t : State XLEN} (h : execIn d s = .next t) :
    (∃ k, k.ok ∧ t = s.raise k) ∨ (∃ e, inputCell d s = .ok e ∧ s.INQ = [] ∧ t = s) ∨
    (∃ e x q, cellOf d s = some e ∧ s.INQ = x :: q ∧ s.IP.toNat + 2 ≤ Config.ADDR_MAX XLEN ∧
      inputCell d s = .ok e ∧
      t = { s with Mem := s.Mem.write e x, INQ := q, IP := BitVec.ofNat XLEN (s.IP.toNat + 2),
                   MLEN := max s.MLEN (e + 1) }) := by
  unfold execIn at h
  split at h
  · rename_i f hf
    cases h; exact .inl ⟨f, inputCell_error_ok hf, rfl⟩
  · rename_i e he
    split at h
    · rename_i hq
      cases h; exact .inr (.inl ⟨e, he, hq, rfl⟩)
    · rename_i x q hq
      have hc : cellOf d s = some e ∧ s.IP.toNat + 2 ≤ Config.ADDR_MAX XLEN := by
        unfold inputCell at he
        split at he
        · split at he
          · cases he
          · split at he
            · cases he; exact ⟨‹_›, ‹_›⟩
            · cases he
        · cases he
      rw [retire_fits _ hc.2] at h
      cases h
      exact .inr (.inr ⟨e, x, q, hc.1, hq, hc.2, he, rfl⟩)

/-- Everything OUT can do (R131). -/
theorem execOut_cases {a : Operand XLEN} {s t : State XLEN} (h : execOut a s = .next t) :
    (∃ k m, k.ok ∧ Grown s m ∧ t = ({ s with MLEN := m } : State XLEN).raise k) ∨
    (∃ v m, sourceValue a s = some v ∧ s.IP.toNat + 2 ≤ Config.ADDR_MAX XLEN ∧ Grown s m ∧
      t = { s with OUTQ := s.OUTQ ++ [v], IP := BitVec.ofNat XLEN (s.IP.toNat + 2), MLEN := m }) := by
  unfold execOut at h
  split at h
  · cases h; exact .inl ⟨_, _, rfl, Grown.refl s, rfl⟩
  · rename_i v hv
    obtain ⟨m, hm, hg⟩ := touchSource_grown a s
    simp only [hm] at h
    obtain ⟨hi, rfl⟩ | ⟨-, rfl⟩ := retire_cases h
    · exact .inr ⟨v, m, hv, hi, hg, rfl⟩
    · exact .inl ⟨_, m, rfl, hg, rfl⟩

/-- Everything ARB can do (R150). -/
theorem execArb_cases {a : Operand XLEN} {s t : State XLEN} (h : execArb a s = .next t) :
    (∃ k m, k.ok ∧ Grown s m ∧ t = ({ s with MLEN := m } : State XLEN).raise k) ∨
    (∃ v m, sourceValue a s = some v ∧ s.IP.toNat + 2 ≤ Config.ADDR_MAX XLEN ∧ Grown s m ∧
      t = { s with RB := addWords s.RB v, IP := BitVec.ofNat XLEN (s.IP.toNat + 2), MLEN := m }) := by
  unfold execArb at h
  split at h
  · cases h; exact .inl ⟨_, _, rfl, Grown.refl s, rfl⟩
  · rename_i v hv
    obtain ⟨m, hm, hg⟩ := touchSource_grown a s
    simp only [hm] at h
    obtain ⟨hi, rfl⟩ | ⟨-, rfl⟩ := retire_cases h
    · exact .inr ⟨v, m, hv, hi, hg, rfl⟩
    · exact .inl ⟨_, m, rfl, hg, rfl⟩

/-- Everything a jump can do (R140 to R142). -/
theorem execJump_cases {p : Word XLEN → Bool} {c g : Operand XLEN} {s t : State XLEN}
    (h : execJump p c g s = .next t) :
    (∃ k m, k.ok ∧ Grown s m ∧ t = ({ s with MLEN := m } : State XLEN).raise k) ∨
    (∃ x y e m, sourceValue c s = some x ∧ sourceValue g s = some y ∧ p x = true ∧
      legalAddress XLEN y.toInt = some e ∧ Grown s m ∧
      t = { s with IP := BitVec.ofNat XLEN e, MLEN := m }) ∨
    (∃ x y m, sourceValue c s = some x ∧ sourceValue g s = some y ∧ p x = false ∧
      s.IP.toNat + 3 ≤ Config.ADDR_MAX XLEN ∧ Grown s m ∧
      t = { s with IP := BitVec.ofNat XLEN (s.IP.toNat + 3), MLEN := m }) := by
  unfold execJump at h
  split at h
  · cases h; exact .inl ⟨_, _, rfl, Grown.refl s, rfl⟩
  · rename_i x hx
    split at h
    · cases h; exact .inl ⟨_, _, rfl, Grown.refl s, rfl⟩
    · rename_i y hy
      obtain ⟨m, hm, hg⟩ := touchSource_two c g s
      simp only [hm] at h
      split at h
      · rename_i hp
        split at h
        · cases h; exact .inl ⟨_, m, rfl, hg, rfl⟩
        · rename_i e he
          cases h; exact .inr (.inl ⟨x, y, e, m, hx, hy, hp, he, hg, rfl⟩)
      · rename_i hp
        obtain ⟨hi, rfl⟩ | ⟨-, rfl⟩ := retire_cases h
        · exact .inr (.inr ⟨x, y, m, hx, hy, by simpa using hp, hi, hg, rfl⟩)
        · exact .inl ⟨_, m, rfl, hg, rfl⟩

/-- The function of two source values a three-operand instruction stores (R120 to R123). -/
inductive Stores :
    Instr XLEN → (Word XLEN → Word XLEN → Word XLEN) → Operand XLEN → Operand XLEN → Operand XLEN →
      Prop where
  | add (a b d : Operand XLEN) : Stores (.add a b d) addWords a b d
  | mul (a b d : Operand XLEN) : Stores (.mul a b d) mulWords a b d
  | lt (a b d : Operand XLEN) : Stores (.lt a b d) lessWord a b d
  | eq (a b d : Operand XLEN) : Stores (.eq a b d) equalWord a b d

/-- The condition of a jump (R140, R141). -/
inductive Jumps : Instr XLEN → (Word XLEN → Bool) → Operand XLEN → Operand XLEN → Prop where
  | jt (c g : Operand XLEN) : Jumps (.jt c g) conditionTrue c g
  | jf (c g : Operand XLEN) : Jumps (.jf c g) conditionFalse c g

/-- Everything an instruction can do: `Effect i s t` lists the states `t` that `exec i s` can answer. -/
inductive Effect : Instr XLEN → State XLEN → State XLEN → Prop where
  | fault {i : Instr XLEN} {s : State XLEN} (f : Fault) (m : Nat) (hf : f.ok) (hm : Grown s m) :
      Effect i s (({ s with MLEN := m } : State XLEN).raise f)
  | halt (s : State XLEN) : Effect .halt s s
  | hold {d : Operand XLEN} {s : State XLEN} (e : Nat) (hc : inputCell d s = .ok e) (hq : s.INQ = []) :
      Effect (.inp d) s s
  | input {d : Operand XLEN} {s : State XLEN} (e : Nat) (x : Word XLEN) (q : List (Word XLEN))
      (hc : inputCell d s = .ok e) (he : cellOf d s = some e)
      (hi : s.IP.toNat + 2 ≤ Config.ADDR_MAX XLEN) (hq : s.INQ = x :: q) :
      Effect (.inp d) s { s with Mem := s.Mem.write e x, INQ := q,
                                 IP := BitVec.ofNat XLEN (s.IP.toNat + 2), MLEN := max s.MLEN (e + 1) }
  | output {a : Operand XLEN} {s : State XLEN} (v : Word XLEN) (m : Nat) (hm : Grown s m)
      (hv : sourceValue a s = some v) (hi : s.IP.toNat + 2 ≤ Config.ADDR_MAX XLEN) :
      Effect (.out a) s { s with OUTQ := s.OUTQ ++ [v],
                                 IP := BitVec.ofNat XLEN (s.IP.toNat + 2), MLEN := m }
  | rebase {a : Operand XLEN} {s : State XLEN} (v : Word XLEN) (m : Nat) (hm : Grown s m)
      (hv : sourceValue a s = some v) (hi : s.IP.toNat + 2 ≤ Config.ADDR_MAX XLEN) :
      Effect (.arb a) s { s with RB := addWords s.RB v,
                                 IP := BitVec.ofNat XLEN (s.IP.toNat + 2), MLEN := m }
  | jump {i : Instr XLEN} {p : Word XLEN → Bool} {c g : Operand XLEN} {s : State XLEN}
      (x y : Word XLEN) (e m : Nat)
      (hj : Jumps i p c g) (hm : Grown s m) (hx : sourceValue c s = some x)
      (hy : sourceValue g s = some y) (hp : p x = true) (he : legalAddress XLEN y.toInt = some e) :
      Effect i s { s with IP := BitVec.ofNat XLEN e, MLEN := m }
  | fallThrough {i : Instr XLEN} {p : Word XLEN → Bool} {c g : Operand XLEN} {s : State XLEN}
      (x y : Word XLEN) (m : Nat)
      (hj : Jumps i p c g) (hm : Grown s m) (hx : sourceValue c s = some x)
      (hy : sourceValue g s = some y) (hp : p x = false)
      (hi : s.IP.toNat + 3 ≤ Config.ADDR_MAX XLEN) :
      Effect i s { s with IP := BitVec.ofNat XLEN (s.IP.toNat + 3), MLEN := m }
  | store {i : Instr XLEN} {f : Word XLEN → Word XLEN → Word XLEN} {a b d : Operand XLEN}
      {s : State XLEN} (x y : Word XLEN)
      (e m : Nat) (hs : Stores i f a b d) (hm : Grown s m) (hx : sourceValue a s = some x)
      (hy : sourceValue b s = some y) (he : cellOf d s = some e)
      (hi : s.IP.toNat + 4 ≤ Config.ADDR_MAX XLEN) :
      Effect i s { s with Mem := s.Mem.write e (f x y),
                          IP := BitVec.ofNat XLEN (s.IP.toNat + 4), MLEN := max m (e + 1) }

theorem execThree_effect {i : Instr XLEN} {f : Word XLEN → Word XLEN → Word XLEN}
    {a b d : Operand XLEN} {s t : State XLEN}
    (hs : Stores i f a b d) (h : execThree f a b d s = .next t) : Effect i s t := by
  obtain ⟨k, m, hk, hg, rfl⟩ | ⟨x, y, e, m, hx, hy, he, hi, hg, rfl⟩ := execThree_cases h
  · exact .fault k m hk hg
  · exact .store x y e m hs hg hx hy he hi

theorem execJump_effect {i : Instr XLEN} {p : Word XLEN → Bool} {c g : Operand XLEN} {s t : State XLEN}
    (hj : Jumps i p c g) (h : execJump p c g s = .next t) : Effect i s t := by
  obtain ⟨k, m, hk, hg, rfl⟩ | ⟨x, y, e, m, hx, hy, hp, he, hg, rfl⟩ |
    ⟨x, y, m, hx, hy, hp, hi, hg, rfl⟩ := execJump_cases h
  · exact .fault k m hk hg
  · exact .jump x y e m hj hg hx hy hp he
  · exact .fallThrough x y m hj hg hx hy hp hi

/-- This hardware's dispatch is the dispatch of any width at 64 (00_scope.md rule R3). -/
theorem exec_eq_execAt : exec = execAt (XLEN := 64) := by
  funext i s
  cases i <;> rfl

/-- The inversion lemma of `execAt`. -/
theorem execAt_effect {i : Instr XLEN} {s t : State XLEN} (h : execAt i s = .next t) :
    Effect i s t := by
  cases i with
  | add a b d => exact execThree_effect (.add a b d) h
  | mul a b d => exact execThree_effect (.mul a b d) h
  | lt a b d => exact execThree_effect (.lt a b d) h
  | eq a b d => exact execThree_effect (.eq a b d) h
  | jt c g => exact execJump_effect (.jt c g) h
  | jf c g => exact execJump_effect (.jf c g) h
  | inp d =>
    obtain ⟨k, hk, rfl⟩ | ⟨e, hc, hq, rfl⟩ | ⟨e, x, q, he, hq, hi, hc, rfl⟩ := execIn_cases h
    · exact .fault k _ hk (Grown.refl _)
    · exact .hold e hc hq
    · exact .input e x q hc he hi hq
  | out a =>
    obtain ⟨k, m, hk, hg, rfl⟩ | ⟨v, m, hv, hi, hg, rfl⟩ := execOut_cases h
    · exact .fault k m hk hg
    · exact .output v m hg hv hi
  | arb a =>
    obtain ⟨k, m, hk, hg, rfl⟩ | ⟨v, m, hv, hi, hg, rfl⟩ := execArb_cases h
    · exact .fault k m hk hg
    · exact .rebase v m hg hv hi
  | halt => cases h; exact .halt _

/-- The inversion lemma of `exec`. -/
theorem exec_effect {i : Instr} {s t : State} (h : exec i s = .next t) : Effect i s t := by
  rw [exec_eq_execAt] at h
  exact execAt_effect h

end Sys2Proof.Machine
end

