-- ==== Sys2Proof/Laws/Step.lean ====
section
/-! SUPPORT. What fetch and step can do. -/

namespace Sys2Proof.Machine

variable {XLEN : Nat}

/-- Everything the fetch of a step can do (R100, stages 0 to 3). -/
theorem fetch_cases (s : State XLEN) :
    (s.FAULT ≠ 0#3 ∧ fetch s = .idle) ∨
    (s.FAULT = 0#3 ∧ Config.ADDR_MAX XLEN < s.IP.toNat ∧ fetch s = .raises (.invalidAddress 0) s) ∨
    (s.FAULT = 0#3 ∧ s.IP.toNat ≤ Config.ADDR_MAX XLEN ∧ (s.Mem.read s.IP.toNat).toInt = 99 ∧
      fetch s = .run .halt s) ∨
    (s.FAULT = 0#3 ∧ s.IP.toNat ≤ Config.ADDR_MAX XLEN ∧ (s.Mem.read s.IP.toNat).toInt ≠ 99 ∧
      fetch s = fetchAt s.IP.toNat s) := by
  by_cases hf : s.FAULT = 0#3
  · cases hl : legalAddress XLEN s.IP.toInt with
    | none =>
      exact .inr (.inl ⟨hf, legalAddress_toInt_none.mp hl, by simp [fetch, hf, hl]⟩)
    | some ip =>
      obtain ⟨rfl, hle⟩ := legalAddress_toInt.mp hl
      by_cases hw : (s.Mem.read s.IP.toNat).toInt = 99
      · exact .inr (.inr (.inl ⟨hf, hle, hw, by simp [fetch, hf, hl, hw, Config.HALT_WORD]⟩))
      · exact .inr (.inr (.inr ⟨hf, hle, hw, by simp [fetch, hf, hl, hw, Config.HALT_WORD]⟩))
  · exact .inl ⟨hf, by simp [fetch, hf]⟩

/-- Everything stages 2 and 3 can do at a legal IP. -/
theorem fetchAt_cases (ip : Nat) (s : State XLEN) :
    (∃ f, decodeWord (s.Mem.read ip) = .error f ∧
      fetchAt ip s = .raises (.ofDecode f) (s.touch ip)) ∨
    (∃ h, decodeWord (s.Mem.read ip) = .ok h ∧ Config.ADDR_MAX XLEN < ip + h.op.operandCount ∧
      fetchAt ip s = .raises (.invalidAddress 0) (s.touch ip)) ∨
    (∃ h, decodeWord (s.Mem.read ip) = .ok h ∧ ip + h.op.operandCount ≤ Config.ADDR_MAX XLEN ∧
      fetchAt ip s = .run (h.instr fun i => s.Mem.read (ip + i))
        (s.touch (ip + h.op.operandCount))) := by
  unfold fetchAt
  cases hd : decodeWord (s.Mem.read ip) with
  | error f => exact .inl ⟨f, rfl, rfl⟩
  | ok h =>
    by_cases hn : ip + h.op.operandCount ≤ Config.ADDR_MAX XLEN
    · exact .inr (.inr ⟨h, rfl, hn, by simp [hn]⟩)
    · exact .inr (.inl ⟨h, rfl, by omega, by simp [hn]⟩)

/-- A decoder rejection raises a fault of the table. -/
theorem decodeWord_error_ok {W : Word XLEN} {e : DecodeFault} (h : decodeWord W = .error e) :
    (Fault.ofDecode e).ok := by
  have hd : ∀ hd : Head, checkDestination hd = .error e → (Fault.ofDecode e).ok := by
    intro hd h
    unfold checkDestination at h
    split at h
    · cases h
    · rename_i d hdst
      split at h
      · cases h
        cases ho : hd.op <;> rw [ho] at hdst <;> cases hdst <;> rfl
      · cases h
  unfold decodeWord at h
  split at h
  · cases h
  · split at h
    · cases h; rfl
    · split at h
      · cases h; rfl
      · unfold decodeModes at h
        split at h
        · cases h; rfl
        · split at h
          · cases h; rfl
          · split at h
            · cases h; rfl
            · exact hd _ h

/-- What a step does, by what its fetch gives. -/
theorem step_of_fetch (s : State) :
    (fetch s = .idle → step s = .next s) ∧
    (∀ f t, fetch s = .raises f t → step s = .next (t.raise f)) ∧
    (∀ i t, fetch s = .run i t → step s = exec i t) :=
  ⟨fun h => by simp [step, stepWith, h], fun f t h => by simp [step, stepWith, h],
    fun i t h => by simp [step, stepWith, h]⟩

/-- The same at any width. -/
theorem stepAt_of_fetch (s : State XLEN) :
    (fetch s = .idle → stepAt s = .next s) ∧
    (∀ f t, fetch s = .raises f t → stepAt s = .next (t.raise f)) ∧
    (∀ i t, fetch s = .run i t → stepAt s = execAt i t) :=
  ⟨fun h => by simp [stepAt, stepWith, h], fun f t h => by simp [stepAt, stepWith, h],
    fun i t h => by simp [stepAt, stepWith, h]⟩

/-- A step of this hardware is a step of any width at 64 (00_scope.md rule R3). -/
@[simp] theorem stepAt_eq_step (s : State) : stepAt s = step s := by
  rw [stepAt, step, exec_eq_execAt]

/-- An instruction runs in the state the step began in, but for the hidden length. -/
theorem fetch_run_state {s t : State XLEN} {i : Instr XLEN} (h : fetch s = .run i t) :
    s.FAULT = 0#3 ∧ s.IP.toNat ≤ Config.ADDR_MAX XLEN ∧ ∃ m, Grown s m ∧ t = { s with MLEN := m } := by
  obtain ⟨-, h'⟩ | ⟨-, -, h'⟩ | ⟨hf, hi, -, h'⟩ | ⟨hf, hi, -, h'⟩ := fetch_cases s
  · rw [h'] at h; cases h
  · rw [h'] at h; cases h
  · rw [h'] at h; cases h
    exact ⟨hf, hi, _, Grown.refl _, rfl⟩
  · rw [h'] at h
    obtain ⟨_, -, hr⟩ | ⟨_, -, -, hr⟩ | ⟨_, -, hle, hr⟩ := fetchAt_cases s.IP.toNat s
    · rw [hr] at h; cases h
    · rw [hr] at h; cases h
    · rw [hr] at h; cases h
      exact ⟨hf, hi, _, by unfold Grown; omega, rfl⟩

/-- A fault of the fetch is raised in the state the step began in, but for the hidden length. -/
theorem fetch_raises_state {s t : State XLEN} {f : Fault} (h : fetch s = .raises f t) :
    s.FAULT = 0#3 ∧ f.ok ∧ ∃ m, Grown s m ∧ t = { s with MLEN := m } := by
  obtain ⟨-, h'⟩ | ⟨hf, -, h'⟩ | ⟨hf, hi, -, h'⟩ | ⟨hf, hi, -, h'⟩ := fetch_cases s
  · rw [h'] at h; cases h
  · rw [h'] at h; cases h
    exact ⟨hf, rfl, _, Grown.refl _, rfl⟩
  · rw [h'] at h; cases h
  · rw [h'] at h
    have hg : Grown s (max s.MLEN (s.IP.toNat + 1)) := by unfold Grown; omega
    obtain ⟨e, he, hr⟩ | ⟨_, -, -, hr⟩ | ⟨_, -, hle, hr⟩ := fetchAt_cases s.IP.toNat s
    · rw [hr] at h; cases h; exact ⟨hf, decodeWord_error_ok he, _, hg, rfl⟩
    · rw [hr] at h; cases h; exact ⟨hf, rfl, _, hg, rfl⟩
    · rw [hr] at h; cases h

/-- The inversion lemma of `stepAt`: no step, a fault of the fetch, or an instruction and its effect, in a
state that differs from the one the step began in by the hidden length alone. -/
theorem stepAt_cases {s t : State XLEN} (h : stepAt s = .next t) :
    (s.FAULT ≠ 0#3 ∧ t = s) ∨
    (s.FAULT = 0#3 ∧ ∃ f m, f.ok ∧ Grown s m ∧ fetch s = .raises f { s with MLEN := m } ∧
      t = ({ s with MLEN := m } : State XLEN).raise f) ∨
    (s.FAULT = 0#3 ∧ s.IP.toNat ≤ Config.ADDR_MAX XLEN ∧ ∃ i m, Grown s m ∧
      fetch s = .run i { s with MLEN := m } ∧ Effect i { s with MLEN := m } t) := by
  cases hf : fetch s with
  | idle =>
    rw [(stepAt_of_fetch s).1 hf] at h
    cases h
    obtain ⟨hn, -⟩ | ⟨-, -, h'⟩ | ⟨-, -, -, h'⟩ | ⟨-, -, -, h'⟩ := fetch_cases s
    · exact .inl ⟨hn, rfl⟩
    · rw [h'] at hf; cases hf
    · rw [h'] at hf; cases hf
    · rw [h'] at hf
      obtain ⟨_, -, hr⟩ | ⟨_, -, -, hr⟩ | ⟨_, -, -, hr⟩ := fetchAt_cases s.IP.toNat s <;>
        rw [hr] at hf <;> cases hf
  | raises f u =>
    obtain ⟨h0, hk, m, hg, rfl⟩ := fetch_raises_state hf
    rw [(stepAt_of_fetch s).2.1 _ _ hf] at h
    cases h
    exact .inr (.inl ⟨h0, f, m, hk, hg, rfl, rfl⟩)
  | run i u =>
    obtain ⟨h0, hi, m, hg, rfl⟩ := fetch_run_state hf
    rw [(stepAt_of_fetch s).2.2 _ _ hf] at h
    exact .inr (.inr ⟨h0, hi, i, m, hg, rfl, execAt_effect h⟩)

/-- The inversion lemma of `step`. -/
theorem step_cases {s t : State} (h : step s = .next t) :
    (s.FAULT ≠ 0#3 ∧ t = s) ∨
    (s.FAULT = 0#3 ∧ ∃ f m, f.ok ∧ Grown s m ∧ fetch s = .raises f { s with MLEN := m } ∧
      t = ({ s with MLEN := m } : State).raise f) ∨
    (s.FAULT = 0#3 ∧ s.IP.toNat ≤ Config.ADDR_MAX ∧ ∃ i m, Grown s m ∧
      fetch s = .run i { s with MLEN := m } ∧ Effect i { s with MLEN := m } t) :=
  stepAt_cases (by rwa [stepAt_eq_step])

end Sys2Proof.Machine
end

