-- ==== Sys2Proof/Laws/Status.lean ====
section
/-! SUPPORT. What the status, the outcome and the channel traffic of a step can be. -/

namespace Sys2Proof.Machine

variable {XLEN : Nat}

theorem inputCell_ok {d : Operand XLEN} {s : State XLEN} {e : Nat} :
    inputCell d s = .ok e ↔
      d.writable = true ∧ cellOf d s = some e ∧ s.IP.toNat + 2 ≤ Config.ADDR_MAX XLEN := by
  unfold inputCell
  by_cases hw : d.writable = true
  · cases hc : cellOf d s with
    | none => simp [hw]
    | some a =>
      by_cases hi : s.IP.toNat + 2 ≤ Config.ADDR_MAX XLEN <;> simp [hw, hi]
  · simp [hw]

theorem halted_iff {s : State XLEN} : halted s = true ↔ (s.Mem.read s.IP.toNat).toInt = 99 := by
  unfold halted
  rw [decide_eq_true_eq]
  exact Iff.rfl

/-- The cases of R24, in its order of precedence. -/
theorem status_cases (s : State XLEN) :
    (s.FAULT ≠ 0#3 ∧ status s = .faulted s.FAULT s.FINFO) ∨
    (s.FAULT = 0#3 ∧ halted s = true ∧ status s = .halted) ∨
    (s.FAULT = 0#3 ∧ halted s = false ∧ nextInput s = some none ∧ status s = .waiting) ∨
    (s.FAULT = 0#3 ∧ halted s = false ∧ nextInput s ≠ some none ∧ status s = .running) := by
  by_cases hf : s.FAULT = 0#3
  · cases hh : halted s with
    | true => exact .inr (.inl ⟨hf, rfl, by simp [status, hf, hh]⟩)
    | false =>
      by_cases hw : nextInput s = some none
      · exact .inr (.inr (.inl ⟨hf, rfl, hw, by simp [status, hf, hh, hw]⟩))
      · exact .inr (.inr (.inr ⟨hf, rfl, hw, by simp [status, hf, hh, hw]⟩))
  · exact .inl ⟨hf, by simp [status, hf]⟩

/-- The cases of R112. -/
theorem outcome_cases (s : State XLEN) :
    (s.FAULT ≠ 0#3 ∧ outcome s = .faulted) ∨
    (s.FAULT = 0#3 ∧ halted s = true ∧ outcome s = .halted) ∨
    (s.FAULT = 0#3 ∧ halted s = false ∧ nextInput s = some none ∧ outcome s = .blocked) ∨
    (status s = .running ∧ s.FAULT = 0#3 ∧ (afterStep s).FAULT ≠ 0#3 ∧
      outcome s = .fault (afterStep s).FAULT (afterStep s).FINFO) ∨
    (status s = .running ∧ s.FAULT = 0#3 ∧ (afterStep s).FAULT = 0#3 ∧
      ∃ v, nextOutput s = some v ∧ outcome s = .retiredOutput v) ∨
    (status s = .running ∧ s.FAULT = 0#3 ∧ (afterStep s).FAULT = 0#3 ∧ nextOutput s = none ∧
      outcome s = .retired) := by
  obtain ⟨hf, hs⟩ | ⟨hf, hh, hs⟩ | ⟨hf, hh, hw, hs⟩ | ⟨hf, -, -, hs⟩ := status_cases s
  · exact .inl ⟨hf, by simp [outcome, hs]⟩
  · exact .inr (.inl ⟨hf, hh, by simp [outcome, hs]⟩)
  · exact .inr (.inr (.inl ⟨hf, hh, hw, by simp [outcome, hs]⟩))
  · by_cases ha : (afterStep s).FAULT = 0#3
    · cases ho : nextOutput s with
      | none => exact .inr (.inr (.inr (.inr (.inr ⟨hs, hf, ha, rfl, by simp [outcome, hs, ha, ho]⟩))))
      | some v =>
        exact .inr (.inr (.inr (.inr (.inl ⟨hs, hf, ha, v, rfl, by simp [outcome, hs, ha, ho]⟩))))
    · exact .inr (.inr (.inr (.inl ⟨hs, hf, ha, by simp [outcome, hs, ha]⟩)))

theorem afterStep_of_stepAt {s t : State XLEN} (h : stepAt s = .next t) : afterStep s = t := by
  simp [afterStep, h]

theorem afterStep_eq {s t : State} (h : step s = .next t) : afterStep s = t :=
  afterStep_of_stepAt (by rwa [stepAt_eq_step])

/-- If the next step has to do with INQ, the instruction at IP is an IN that raises no fault. -/
theorem nextInput_some {s : State XLEN} {r : Option (Word XLEN)} (h : nextInput s = some r) :
    r = s.INQ.head? ∧ ∃ d e m, Grown s m ∧ s.FAULT = 0#3 ∧
      fetch s = .run (.inp d) { s with MLEN := m } ∧
      inputCell d { s with MLEN := m } = .ok e := by
  unfold nextInput at h
  split at h
  · cases h
  · cases h
  · rename_i i t hf
    obtain ⟨h0, -, m, hg, rfl⟩ := fetch_run_state hf
    cases i <;> simp only [inputOf] at h
    case inp d =>
      split at h
      · rename_i e he
        cases h
        exact ⟨rfl, d, e, m, hg, h0, hf, he⟩
      · cases h
    all_goals cases h

/-- If the next step appends to OUTQ, the instruction at IP is an OUT that raises no fault. -/
theorem nextOutput_some {s : State XLEN} {v : Word XLEN} (h : nextOutput s = some v) :
    ∃ a m, Grown s m ∧ s.FAULT = 0#3 ∧ fetch s = .run (.out a) { s with MLEN := m } ∧
      s.IP.toNat + 2 ≤ Config.ADDR_MAX XLEN ∧ sourceValue a { s with MLEN := m } = some v := by
  unfold nextOutput at h
  split at h
  · cases h
  · cases h
  · rename_i i t hf
    obtain ⟨h0, -, m, hg, rfl⟩ := fetch_run_state hf
    cases i <;> simp only [outputOf] at h
    case out a =>
      split at h
      · exact ⟨a, m, hg, h0, hf, ‹_›, h⟩
      · cases h
    all_goals cases h

/-- An IN that raises no fault completes on an INQ that is not empty (R130). -/
theorem nextInput_completes {s : State XLEN} {x : Word XLEN} (h : nextInput s = some (some x)) :
    status s = .running ∧ outcome s = .retired := by
  obtain ⟨hx, d, e, m, -, h0, hf, he⟩ := nextInput_some h
  obtain ⟨q, hq⟩ : ∃ q, s.INQ = x :: q := by
    cases hi : s.INQ with
    | nil => rw [hi] at hx; cases hx
    | cons y q => rw [hi] at hx; cases hx; exact ⟨q, rfl⟩
  have hh : halted s = false := by
    rw [Bool.eq_false_iff]
    intro hh
    obtain ⟨-, h'⟩ | ⟨-, -, h'⟩ | ⟨-, -, -, h'⟩ | ⟨-, -, hw, -⟩ := fetch_cases s
    · rw [h'] at hf; cases hf
    · rw [h'] at hf; cases hf
    · rw [h'] at hf; cases hf
    · exact hw (halted_iff.mp hh)
  have hs : status s = .running := by simp [status, h0, hh, h]
  have hstep : stepAt s = execIn d { s with MLEN := m } := (stepAt_of_fetch s).2.2 _ _ hf
  have ha : (afterStep s).FAULT = 0#3 := by
    unfold execIn at hstep
    rw [he] at hstep
    dsimp only at hstep
    rw [hq] at hstep
    dsimp only at hstep
    rw [retire_fits _ (by exact (inputCell_ok.mp he).2.2)] at hstep
    rw [afterStep_of_stepAt hstep]
    exact h0
  have ho : nextOutput s = none := by simp [nextOutput, hf, outputOf]
  exact ⟨hs, by simp [outcome, hs, ha, ho]⟩

end Sys2Proof.Machine
end

