-- ==== Sys2Proof/Laws/HostOps.lean ====
section
/-! SUPPORT. What the host operations and the run modes can do, said once. -/

namespace Sys2Proof.Machine

variable {XLEN : Nat}

/-- Everything `poke` can do (R172). -/
theorem State.poke_cases (s : State XLEN) (a : Int) (x : Word XLEN) :
    (legalAddress XLEN a = none ∧ s.poke a x = none) ∨
    (∃ n : Nat, (n : Int) = a ∧ n ≤ Config.ADDR_MAX XLEN ∧ s.poke a x = some (s.store n x)) := by
  unfold State.poke
  cases h : legalAddress XLEN a with
  | none => exact .inl ⟨rfl, rfl⟩
  | some n =>
    obtain ⟨h1, h2⟩ := legalAddress_eq_some.mp h
    exact .inr ⟨n, h1, h2, rfl⟩

/-- Everything `peek` can do (R173). -/
theorem State.peek_cases (s : State XLEN) (a : Int) :
    (legalAddress XLEN a = none ∧ s.peek a = none) ∨
    (∃ n : Nat, (n : Int) = a ∧ n ≤ Config.ADDR_MAX XLEN ∧
      s.peek a = some (s.Mem.read n, s.touch n)) := by
  unfold State.peek
  cases h : legalAddress XLEN a with
  | none => exact .inl ⟨rfl, rfl⟩
  | some n =>
    obtain ⟨h1, h2⟩ := legalAddress_eq_some.mp h
    exact .inr ⟨n, h1, h2, rfl⟩

/-- Everything a host operation but reset can do: a step, a poke of a legal cell, or something that
touches no more than the channels and the hidden length (R172 to R179). -/
theorem hostDo_frame (op : HostOp XLEN) (s : State XLEN) (h : noReset [op] = true) :
    op = .step ∨
    (∃ a x n, op = .poke a x ∧ ((n : Nat) : Int) = a ∧ n ≤ Config.ADDR_MAX XLEN ∧
      hostDo op s = (.done, s.store n x)) ∨
    (∃ q o m, s.MLEN ≤ m ∧ (hostDo op s).2 = { s with INQ := q, OUTQ := o, MLEN := m }) := by
  cases op with
  | new P => cases h
  | step => exact .inl rfl
  | poke a x =>
    obtain ⟨-, hp⟩ | ⟨n, hn, hle, hp⟩ := s.poke_cases a x
    · exact .inr (.inr ⟨s.INQ, s.OUTQ, s.MLEN, Nat.le_refl _, by simp [hostDo, hp]⟩)
    · exact .inr (.inl ⟨a, x, n, rfl, hn, hle, by simp [hostDo, hp]⟩)
  | peek a =>
    obtain ⟨-, hp⟩ | ⟨n, -, -, hp⟩ := s.peek_cases a
    · exact .inr (.inr ⟨s.INQ, s.OUTQ, s.MLEN, Nat.le_refl _, by simp [hostDo, hp]⟩)
    · exact .inr (.inr ⟨s.INQ, s.OUTQ, _, Nat.le_max_left _ _, by simp [hostDo, hp]; rfl⟩)
  | popOutput =>
    cases hq : s.OUTQ with
    | nil =>
      exact .inr (.inr ⟨s.INQ, s.OUTQ, s.MLEN, Nat.le_refl _, by rw [hostDo, State.popOutput, hq]; simp [← hq]⟩)
    | cons x q =>
      exact .inr (.inr ⟨s.INQ, q, s.MLEN, Nat.le_refl _, by simp [hostDo, State.popOutput, hq]⟩)
  | view => exact .inr (.inr ⟨_, _, _, Nat.le_refl _, rfl⟩)
  | pushInput x => exact .inr (.inr ⟨_, _, _, Nat.le_refl _, rfl⟩)
  | drainOutputs => exact .inr (.inr ⟨_, _, _, Nat.le_refl _, rfl⟩)
  | clearInput => exact .inr (.inr ⟨_, _, _, Nat.le_refl _, rfl⟩)
  | isHalted => exact .inr (.inr ⟨_, _, _, Nat.le_max_left _ _, rfl⟩)

/-! ## Loops of attempts -/

@[simp] theorem stepsFrom_zero (s : State XLEN) : stepsFrom 0 s = s := rfl

theorem stepsFrom_succ (k : Nat) (s : State XLEN) :
    stepsFrom (k + 1) s = stepsFrom k (afterStep s) := rfl

/-- An attempt added at the end. -/
theorem stepsFrom_succ_last (k : Nat) (s : State XLEN) :
    stepsFrom (k + 1) s = afterStep (stepsFrom k s) := by
  induction k generalizing s with
  | zero => rfl
  | succ k ih => exact ih (afterStep s)

/-- A loop that ends does so at the first attempt that ends it, within its bound. -/
theorem runLoop_some {ρ : Type} {ends : State XLEN → StepOutcome XLEN → Option ρ} {k : Nat}
    {s t : State XLEN} {r : ρ} :
    runLoop ends k s = (some r, t) ↔
      ∃ j, j < k ∧ (∀ i, i < j → ends (stepsFrom (i + 1) s) (outcome (stepsFrom i s)) = none) ∧
        ends t (outcome (stepsFrom j s)) = some r ∧ t = stepsFrom (j + 1) s := by
  induction k generalizing s with
  | zero => simp [runLoop]
  | succ k ih =>
    unfold runLoop
    cases he : ends (afterStep s) (outcome s) with
    | some q =>
      constructor
      · intro h
        cases h
        exact ⟨0, by omega, fun i hi => by omega, he, rfl⟩
      · rintro ⟨j, -, hb, hj, rfl⟩
        cases j with
        | zero => rw [stepsFrom_zero] at hj; rw [hj.symm.trans he |> Option.some.inj]; rfl
        | succ j => exact absurd (hb 0 (by omega)) (by simp [stepsFrom_succ, he])
    | none =>
      simp only [ih]
      constructor
      · rintro ⟨j, hj, hb, hr, ht⟩
        refine ⟨j + 1, by omega, fun i hi => ?_, hr, ht⟩
        cases i with
        | zero => exact he
        | succ i => exact hb i (by omega)
      · rintro ⟨j, hj, hb, hr, ht⟩
        cases j with
        | zero => subst ht; exact absurd hr (by simp [stepsFrom_succ, he])
        | succ j => exact ⟨j, by omega, fun i hi => hb (i + 1) (by omega), hr, ht⟩

/-- A loop that does not end has made every attempt, and none of them ends it. -/
theorem runLoop_none {ρ : Type} {ends : State XLEN → StepOutcome XLEN → Option ρ} {k : Nat}
    {s t : State XLEN} :
    runLoop ends k s = (none, t) ↔
      (∀ i, i < k → ends (stepsFrom (i + 1) s) (outcome (stepsFrom i s)) = none) ∧
        t = stepsFrom k s := by
  induction k generalizing s with
  | zero => simp [runLoop, eq_comm]
  | succ k ih =>
    unfold runLoop
    cases he : ends (afterStep s) (outcome s) with
    | some q =>
      constructor
      · intro h; cases h
      · rintro ⟨hb, -⟩; exact absurd (hb 0 (by omega)) (by simp [stepsFrom_succ, he])
    | none =>
      simp only [ih]
      constructor
      · rintro ⟨hb, ht⟩
        refine ⟨fun i hi => ?_, ht⟩
        cases i with
        | zero => exact he
        | succ i => exact hb i (by omega)
      · rintro ⟨hb, ht⟩
        exact ⟨fun i hi => hb (i + 1) (by omega), ht⟩

end Sys2Proof.Machine
end

