-- ==== Sys2Proof/Laws/PerInstr.lean ====
section
/-! SUPPORT. Facts of the instruction as syntax, one lemma per constructor.  `EncodingLength`: an
instruction is its word and as many words as it has operands, from one word to four (30_encoding.md
rules R70, R75). -/

namespace Sys2Proof.Laws.EncodingLength

/-- R70: the length of an instruction in words. -/
def Statement (i : Instr) : Prop :=
  (encode i).length = 1 + i.operandCount ∧ i.operands.length = i.operandCount ∧
    i.opcode.operandCount = i.operandCount ∧ i.operandCount ≤ Config.MAXOPS

theorem add (a b d : Operand) : Statement (.add a b d) := ⟨rfl, rfl, rfl, by simp [Instr.operandCount, Config.MAXOPS]⟩
theorem mul (a b d : Operand) : Statement (.mul a b d) := ⟨rfl, rfl, rfl, by simp [Instr.operandCount, Config.MAXOPS]⟩
theorem inp (d : Operand) : Statement (.inp d) := ⟨rfl, rfl, rfl, by simp [Instr.operandCount, Config.MAXOPS]⟩
theorem out (a : Operand) : Statement (.out a) := ⟨rfl, rfl, rfl, by simp [Instr.operandCount, Config.MAXOPS]⟩
theorem jt (c t : Operand) : Statement (.jt c t) := ⟨rfl, rfl, rfl, by simp [Instr.operandCount, Config.MAXOPS]⟩
theorem jf (c t : Operand) : Statement (.jf c t) := ⟨rfl, rfl, rfl, by simp [Instr.operandCount, Config.MAXOPS]⟩
theorem lt (a b d : Operand) : Statement (.lt a b d) := ⟨rfl, rfl, rfl, by simp [Instr.operandCount, Config.MAXOPS]⟩
theorem eq (a b d : Operand) : Statement (.eq a b d) := ⟨rfl, rfl, rfl, by simp [Instr.operandCount, Config.MAXOPS]⟩
theorem arb (a : Operand) : Statement (.arb a) := ⟨rfl, rfl, rfl, by simp [Instr.operandCount, Config.MAXOPS]⟩
theorem halt : Statement .halt := ⟨rfl, rfl, rfl, by simp [Instr.operandCount, Config.MAXOPS]⟩

end Sys2Proof.Laws.EncodingLength
end

