-- ==== Sys2Proof/Laws/System.lean ====
section
/-! SUPPORT. What an event can do to a system, what ends a call of a run mode in one, and what
weak fairness gives, said once. -/

namespace Sys2Proof.Machine

variable {XLEN : Nat}

/-! ## Putting an instance back -/

section
variable (y : System XLEN) (k : Nat) (n : Node XLEN) (t : State XLEN)

@[simp] theorem System.putBack_hostFeeds : (y.putBack k n t).hostFeeds = y.hostFeeds := rfl

@[simp] theorem System.putBack_hostTakes : (y.putBack k n t).hostTakes = y.hostTakes := rfl

@[simp] theorem System.putBack_nodes : (y.putBack k n t).nodes =
    y.nodes.set k { n with own := { t with INQ := n.own.INQ, OUTQ := n.own.OUTQ } } := rfl

@[simp] theorem System.putBack_length : (y.putBack k n t).chans.length = y.chans.length := by
  unfold System.putBack
  dsimp only
  split <;> simp

theorem System.putBack_chan_other {c : Nat} (hi : c ≠ n.inCh) (ho : c ≠ n.outCh) :
    (y.putBack k n t).chan c = y.chan c := by
  simp only [System.putBack, System.chan, List.getD_eq_getElem?_getD]
  split <;> simp [List.getElem?_set_ne, Ne.symm hi, Ne.symm ho]

/-- An event that leaves OUTQ alone puts INQ back on its channel, and no other channel changes. -/
theorem System.putBack_chan_in (c : Nat) (h : t.OUTQ = y.chan n.outCh) :
    (y.putBack k n t).chan c =
      if c = n.inCh ∧ n.inCh < y.chans.length then t.INQ else y.chan c := by
  simp only [System.putBack, if_pos h]
  simp only [System.chan, List.getD_eq_getElem?_getD, List.getElem?_set]
  by_cases hc : n.inCh = c
  · subst hc
    by_cases hl : n.inCh < y.chans.length
    · simp [hl]
    · have : y.chans[n.inCh]? = none := List.getElem?_eq_none (by omega)
      simp [hl]
  · simp [hc, Ne.symm hc]

/-- An event that leaves INQ alone puts OUTQ back on its channel, and no other channel changes. -/
theorem System.putBack_chan_out (c : Nat) (hi : t.INQ = y.chan n.inCh) :
    (y.putBack k n t).chan c =
      if c = n.outCh ∧ n.outCh < y.chans.length then t.OUTQ else y.chan c := by
  have hset : y.chans.set n.inCh t.INQ = y.chans := by
    rw [hi]
    apply List.ext_getElem? fun j => ?_
    rw [List.getElem?_set]
    split
    · subst_vars
      split <;> rename_i hl
      · simp [System.chan, hl]
      · exact (List.getElem?_eq_none (by omega)).symm
    · rfl
  simp only [System.putBack, hset]
  split
  · rename_i h
    split <;> rename_i hc
    · rw [hc.1, h]; rfl
    · rfl
  · simp only [System.chan, List.getD_eq_getElem?_getD, List.getElem?_set]
    by_cases hc : n.outCh = c
    · subst hc
      by_cases hl : n.outCh < y.chans.length
      · simp [hl]
      · have : y.chans[n.outCh]? = none := List.getElem?_eq_none (by omega)
        simp [hl]
    · simp [hc, Ne.symm hc]

end

/-- The wiring alone says whether a topology is legal. -/
theorem System.topologyOk_congr {y z : System XLEN}
    (hi : z.nodes.map Node.inCh = y.nodes.map Node.inCh)
    (ho : z.nodes.map Node.outCh = y.nodes.map Node.outCh) (hl : z.chans.length = y.chans.length)
    (hf : z.hostFeeds = y.hostFeeds) (ht : z.hostTakes = y.hostTakes) :
    z.topologyOk = y.topologyOk := by
  unfold System.topologyOk
  rw [hi, ho, hl, hf, ht]

/-- Putting an instance back keeps every instance's wiring. -/
theorem System.putBack_wiring {ω : Type} (f : Node XLEN → ω)
    (hf : ∀ (n : Node XLEN) (s : State XLEN), f { n with own := s } = f n) {y : System XLEN} {k : Nat}
    {n : Node XLEN} (t : State XLEN) (hk : y.nodes[k]? = some n) :
    (y.putBack k n t).nodes.map f = y.nodes.map f := by
  rw [System.putBack_nodes, List.map_set, hf]
  apply List.ext_getElem? fun j => ?_
  rw [List.getElem?_set]
  split
  · subst_vars
    simp only [List.getElem?_map, hk]
    split
    · rfl
    · rename_i hl
      have := (List.getElem?_eq_some_iff.mp hk).1
      simp only [List.length_map] at hl
      omega
  · rfl

theorem System.putBack_topologyOk {y : System XLEN} {k : Nat} {n : Node XLEN} (t : State XLEN)
    (hk : y.nodes[k]? = some n) : (y.putBack k n t).topologyOk = y.topologyOk :=
  System.topologyOk_congr (System.putBack_wiring _ (fun _ _ => rfl) t hk)
    (System.putBack_wiring _ (fun _ _ => rfl) t hk) (System.putBack_length ..) rfl rfl

/-! ## Events -/

/-- Everything an event can do: it is refused, and nothing changes; a host operation on an instance; or
reset of the whole. -/
theorem System.apply_cases (y : System XLEN) (e : SysEvent XLEN) :
    y.apply e = (.refused, y) ∨
    (∃ k op n, e = .on k op ∧ y.topologyOk = true ∧ y.nodes[k]? = some n ∧ y.permits n op = true ∧
      y.apply e = ((hostDo op (y.view n)).1, y.putBack k n (hostDo op (y.view n)).2)) ∨
    (∃ Ps z, e = .reset Ps ∧ y.topologyOk = true ∧ y.resetAll Ps = some z ∧ y.apply e = (.done, z)) := by
  by_cases ht : y.topologyOk = true
  · cases e with
    | on k op =>
      cases hk : y.nodes[k]? with
      | none => exact .inl (by simp [System.apply, ht, hk])
      | some n =>
        by_cases hp : y.permits n op = true
        · exact .inr (.inl ⟨k, op, n, rfl, ht, hk, hp, by simp [System.apply, ht, hk, hp]⟩)
        · exact .inl (by simp [System.apply, ht, hk, hp])
    | reset Ps =>
      cases hr : y.resetAll Ps with
      | none => exact .inl (by simp [System.apply, ht, hr])
      | some z => exact .inr (.inr ⟨Ps, z, rfl, ht, hr, by simp [System.apply, ht, hr]⟩)
  · exact .inl (by simp [System.apply, ht])

theorem System.apply_on {y : System XLEN} {k : Nat} {op : HostOp XLEN} {n : Node XLEN}
    (ht : y.topologyOk = true) (hk : y.nodes[k]? = some n) (hp : y.permits n op = true) :
    y.apply (.on k op) = ((hostDo op (y.view n)).1, y.putBack k n (hostDo op (y.view n)).2) := by
  simp [System.apply, ht, hk, hp]

/-! ## Schedules -/

@[simp] theorem System.run_nil (y : System XLEN) : y.run [] = ([], y) := rfl

theorem System.run_cons (y : System XLEN) (e : SysEvent XLEN) (es : List (SysEvent XLEN)) :
    (y.run (e :: es)).2 = ((y.apply e).2.run es).2 := rfl

theorem System.run_append (y : System XLEN) (es fs : List (SysEvent XLEN)) :
    (y.run (es ++ fs)).2 = ((y.run es).2.run fs).2 := by
  induction es generalizing y with
  | nil => rfl
  | cons e es ih => exact ih (y.apply e).2

theorem System.runCall_cons {ρ : Type} (k : Nat) (ends : State XLEN → StepOutcome XLEN → Option ρ)
    (e : SysEvent XLEN) (es : List (SysEvent XLEN)) (y : System XLEN) :
    System.runCall k ends (e :: es) y =
      match System.endedBy k ends y e with
      | some r => (some r, (y.apply e).2, es)
      | none => System.runCall k ends es (y.apply e).2 := rfl

/-- A call that ends does so at the first event that ends it. -/
theorem System.runCall_some {ρ : Type} {k : Nat} {ends : State XLEN → StepOutcome XLEN → Option ρ}
    {es rest : List (SysEvent XLEN)} {y z : System XLEN} {r : ρ} :
    System.runCall k ends es y = (some r, z, rest) ↔
      ∃ before e, es = before ++ e :: rest ∧
        (∀ b c after, before = b ++ c :: after → System.endedBy k ends (y.run b).2 c = none) ∧
        System.endedBy k ends (y.run before).2 e = some r ∧ z = ((y.run before).2.apply e).2 := by
  induction es generalizing y with
  | nil => simp [System.runCall]
  | cons e es ih =>
    rw [System.runCall_cons]
    cases he : System.endedBy k ends y e with
    | some q =>
      constructor
      · intro h
        cases h
        exact ⟨[], e, rfl, fun b c a h => by simp at h, he, rfl⟩
      · rintro ⟨before, e', hes, hb, hr, rfl⟩
        cases before with
        | nil =>
          cases hes
          rw [System.run_nil] at hr
          rw [hr] at he
          cases he
          rfl
        | cons c before =>
          cases hes
          have := hb [] e before rfl
          rw [System.run_nil, he] at this
          cases this
    | none =>
      simp only [ih]
      constructor
      · rintro ⟨before, e', hes, hb, hr, hz⟩
        refine ⟨e :: before, e', by rw [hes]; rfl, fun b c a h => ?_, hr, hz⟩
        cases b with
        | nil => cases h; exact he
        | cons d b => cases h; exact hb b c a rfl
      · rintro ⟨before, e', hes, hb, hr, hz⟩
        cases before with
        | nil =>
          cases hes
          rw [System.run_nil, he] at hr
          cases hr
        | cons c before =>
          cases hes
          exact ⟨before, e', rfl, fun b d a h => hb (e :: b) d a (by rw [h]; rfl), hr, hz⟩

/-- A call that does not end has let every event happen. -/
theorem System.runCall_none {ρ : Type} {k : Nat} {ends : State XLEN → StepOutcome XLEN → Option ρ}
    {es rest : List (SysEvent XLEN)} {y z : System XLEN}
    (h : System.runCall k ends es y = (none, z, rest)) :
    rest = [] ∧ z = (y.run es).2 ∧
      ∀ b c after, es = b ++ c :: after → System.endedBy k ends (y.run b).2 c = none := by
  induction es generalizing y with
  | nil => cases h; exact ⟨rfl, rfl, fun b c a h => by simp at h⟩
  | cons e es ih =>
    rw [System.runCall_cons] at h
    cases he : System.endedBy k ends y e with
    | some q => rw [he] at h; cases h
    | none =>
      rw [he] at h
      obtain ⟨h1, h2, h3⟩ := ih h
      refine ⟨h1, h2, fun b c a hb => ?_⟩
      cases b with
      | nil => cases hb; exact he
      | cons d b => cases hb; exact h3 b c a rfl

/-! ## Weak fairness -/

/-- R249: an instance that is running and enabled, and stays so until its step, takes that step. -/
theorem WeaklyFair.step_taken {y : Nat → System XLEN} {go : Nat → Nat → Bool}
    {e : Nat → SysEvent XLEN} (h : WeaklyFair y go e) {k t : Nat}
    (hr : ∀ u, t ≤ u → (∀ v, t ≤ v → v < u → e v ≠ .on k .step) →
      go u k = true ∧ ∃ n, (y u).nodes[k]? = some n ∧ (y u).status n = .running) :
    ∃ u, t ≤ u ∧ e u = .on k .step ∧ ∀ v, t ≤ v → v < u → e v ≠ .on k .step := by
  have hex : ∃ u, t ≤ u ∧ e u = .on k .step := by
    by_contra hn
    exact hn (h.2.2 k t fun u hu => hr u hu fun v hv _ he => hn ⟨v, hv, he⟩)
  obtain ⟨hu, he⟩ := Nat.find_spec hex
  exact ⟨_, hu, he, fun v hv hlt hev => Nat.find_min hex hlt ⟨hv, hev⟩⟩

/-- R249: a held IN completes, once INQ stays non-empty and its core enabled until it does. -/
theorem WeaklyFair.heldInCompletes {y : Nat → System XLEN} {go : Nat → Nat → Bool}
    {e : Nat → SysEvent XLEN} (h : WeaklyFair y go e) {k t : Nat} (hok : ∀ u, (y u).topologyOk = true)
    (hr : ∀ u, t ≤ u → (∀ v, t ≤ v → v < u → e v ≠ .on k .step) →
      go u k = true ∧ ∃ n x, (y u).nodes[k]? = some n ∧ nextInput ((y u).view n) = some (some x)) :
    ∃ u, t ≤ u ∧ e u = .on k .step ∧ ((y u).apply (e u)).1 = .attempted .retired := by
  obtain ⟨u, hu, he, hmin⟩ := h.step_taken fun u hu hv =>
    have ⟨hg, n, _, hk, hx⟩ := hr u hu hv
    ⟨hg, n, hk, (nextInput_completes hx).1⟩
  obtain ⟨-, n, x, hk, hx⟩ := hr u hu hmin
  refine ⟨u, hu, he, ?_⟩
  rw [he, System.apply_on (hok u) hk rfl]
  exact congrArg HostReply.attempted (nextInput_completes hx).2

end Sys2Proof.Machine
end

