-- ==== Sys2Proof/Tests/Slice0.lean ====
section
/-! SUPPORT. Tests: ill-formed terms are refused, words written out from the spec decode to their
instructions, one step of each instruction on the spec's own examples, and for each statement with
hypotheses a theorem `witness_<statement>` with states and operands that meet them. -/

namespace Sys2Proof.Tests

open Sys2Proof Sys2Proof.Machine

/-! ## Helpers -/

/-- The state right after reset with a program image. -/
def tape (P : List Int) : State := (State.new P).getD State.reset

/-- A state whose one listed cell, which holds `w`, is at IP, `back` cells below the top. -/
def nearTop (back : Nat) (w : Nat) : State :=
  { State.reset with
    Mem := [(Config.ADDR_MAX - back, BitVec.ofNat 64 w)]
    IP := BitVec.ofNat 64 (Config.ADDR_MAX - back) }

/-- The word of an integer. -/
def word (x : Int) : Word := BitVec.ofInt 64 x

/-- The instruction the next step runs, if it runs one. -/
def fetched (s : State) : Option Instr :=
  match fetch s with
  | .idle => none
  | .raises _ _ => none
  | .run i _ => some i

/-- The attempt at a step answers a next state. -/
def steps (s : State) : Bool :=
  match step s with
  | .next _ => true
  | .fault _ => false
  | .refused _ => false

theorem steps_next {s : State} (h : steps s = true) : step s = .next (afterStep s) := by
  unfold steps at h
  split at h
  · rename_i t ht; rw [afterStep_eq ht, ht]
  · cases h
  · cases h

/-- The state an instruction leaves. -/
def executed (i : Instr) (s : State) : State :=
  match exec i s with
  | .next t => t
  | .fault _ => s
  | .refused _ => s

/-! ## Well-formedness: an immediate destination is refused (R80), everything else is not -/

theorem test_wf_add : (Instr.add ⟨.position, 0⟩ ⟨.position, 0⟩ ⟨.immediate, 0⟩ : Instr).wf = false := by decide
theorem test_wf_mul : (Instr.mul ⟨.position, 0⟩ ⟨.position, 0⟩ ⟨.immediate, 0⟩ : Instr).wf = false := by decide
theorem test_wf_inp : (Instr.inp ⟨.immediate, 0⟩ : Instr).wf = false := by decide
theorem test_wf_lt : (Instr.lt ⟨.position, 0⟩ ⟨.position, 0⟩ ⟨.immediate, 0⟩ : Instr).wf = false := by decide
theorem test_wf_eq : (Instr.eq ⟨.position, 0⟩ ⟨.position, 0⟩ ⟨.immediate, 0⟩ : Instr).wf = false := by decide
theorem test_wf_sources :
    (Instr.add ⟨.immediate, 0⟩ ⟨.immediate, 0⟩ ⟨.relative, word (-1)⟩ : Instr).wf = true ∧
    (Instr.out ⟨.immediate, 0⟩ : Instr).wf = true ∧
    (Instr.jt ⟨.immediate, 0⟩ ⟨.immediate, 0⟩ : Instr).wf = true := by
  decide

/-! ## Decoding, by words written out from 30_encoding.md rule R71 (`ABCDE`, `op = DE`, `m[1] = C`,
`m[2] = B`, `m[3] = A`) -/

/-- `21101,7,0,0` is `ADD #7, #0, [rb+0]` (R85). -/
theorem test_decode_add : decode (XLEN := 64) [21101, 7, 0, 0] =
    .ok (.add ⟨.immediate, 7⟩ ⟨.immediate, 0⟩ ⟨.relative, 0⟩, []) := by decide
/-- `1002,4,3,4` is `MUL [4], #3, [4]` (R85). -/
theorem test_decode_mul : decode (XLEN := 64) [1002, 4, 3, 4, 33] =
    .ok (.mul ⟨.position, 4⟩ ⟨.immediate, 3⟩ ⟨.position, 4⟩, [33]) := by decide
/-- Word `C03` with `C = 2`. -/
theorem test_decode_inp : decode (XLEN := 64) [203, 5] = .ok (.inp ⟨.relative, 5⟩, []) := by decide
/-- `30004,0,99` is `OUT [0]` (R81). -/
theorem test_decode_out : decode (XLEN := 64) [30004, 0, 99] = .ok (.out ⟨.position, 0⟩, [99]) := by decide
/-- `1000000000000000104,7,99` is `OUT #7` (R81). -/
theorem test_decode_out_high_digits : decode (XLEN := 64) [1000000000000000104, 7, 99] =
    .ok (.out ⟨.immediate, 7⟩, [99]) := by decide
/-- Word `BC05` with `B = 2`, `C = 1`. -/
theorem test_decode_jt : decode (XLEN := 64) [2105, 1, 4] =
    .ok (.jt ⟨.immediate, 1⟩ ⟨.relative, 4⟩, []) := by decide
/-- Word `BC06` with `B = 1`, `C = 0`. -/
theorem test_decode_jf : decode (XLEN := 64) [1006, 1, 4] =
    .ok (.jf ⟨.position, 1⟩ ⟨.immediate, 4⟩, []) := by decide
/-- Word `ABC07` with `A = 2`, `B = 0`, `C = 1`. -/
theorem test_decode_lt : decode (XLEN := 64) [20107, 1, 2, 3] =
    .ok (.lt ⟨.immediate, 1⟩ ⟨.position, 2⟩ ⟨.relative, 3⟩, []) := by decide
/-- Word `ABC08` with `A = 0`, `B = 2`, `C = 1`. -/
theorem test_decode_eq : decode (XLEN := 64) [2108, 1, 2, 3] =
    .ok (.eq ⟨.immediate, 1⟩ ⟨.relative, 2⟩ ⟨.position, 3⟩, []) := by decide
/-- Word `C09` with `C = 1`. -/
theorem test_decode_arb : decode (XLEN := 64) [109, word (-5)] = .ok (.arb ⟨.immediate, word (-5)⟩, []) := by decide
/-- The whole word 99. -/
theorem test_decode_halt : decode (XLEN := 64) [99, 1] = .ok (.halt, [1]) := by decide
/-- R206's examples, R78's negative word and opcode field 99, and a list that ends too soon. -/
theorem test_decode_refused :
    decodeWord 1398#64 = .error .invalidOpcode ∧ decodeWord 13101#64 = .error (.invalidMode 2) ∧
    decodeWord 10001#64 = .error (.invalidDestination 3) ∧
    decodeWord 30103#64 = .error (.invalidDestination 1) ∧
    decodeWord (word (-99)) = .error .invalidOpcode ∧ decodeWord 199#64 = .error .invalidOpcode ∧
    decode (XLEN := 64) [1, 0, 0] = .error .truncated := by decide
/-- R85: assembly of `MUL [4], #3, [4]`. -/
theorem test_encode_mul :
    encode (XLEN := 64) (.mul ⟨.position, 4⟩ ⟨.immediate, 3⟩ ⟨.position, 4⟩) = [1002, 4, 3, 4] := by decide

/-- A table word of one 64-bit word, and of two: bit 64 is bit 0 of the second. -/
theorem test_table_word :
    decodeTableWord 64 1002 = some (.mul ⟨.position, 0⟩ ⟨.immediate, 0⟩ ⟨.position, 0⟩) ∧
    decodeTableWord 128 (104 + 7 * 2 ^ 64) = some (.out ⟨.immediate, 7⟩) ∧
    decodeTableWord 64 103 = none := by decide

/-- The placed instruction is the one the very next step runs. -/
theorem test_withFetchWord :
    fetched (State.reset.withFetchWord 128 (104 + 7 * 2 ^ 64)) = some (.out ⟨.immediate, 7⟩) ∧
    outcome (State.reset.withFetchWord 64 99) = .halted := by decide

/-! ## One step of each instruction, on the examples of the rules -/

/-- R120's first example. -/
theorem test_add :
    let t := afterStep (tape [1, 9, 10, 3, 2, 3, 11, 0, 99, 30, 40, 50])
    t.Mem.read 3 = 70 ∧ t.IP = 4 ∧ t.FAULT = 0 := by decide
/-- R125: `WMAX + 1` is `WMIN`. -/
theorem test_add_wraps :
    ((afterStep (tape [1101, 9223372036854775807, 1, 5])).Mem.read 5).toInt =
      -9223372036854775808 := by decide
/-- R121's first example; the machine is then halted. -/
theorem test_mul :
    let t := afterStep (tape [1002, 4, 3, 4, 33])
    t.Mem.read 4 = 99 ∧ t.IP = 4 ∧ halted t = true := by decide
/-- R125: `4294967296 * 4294967296` is stored as 0. -/
theorem test_mul_wraps :
    (afterStep (tape [1102, 4294967296, 4294967296, 5, 99, 8])).Mem.read 5 = 0 := by decide
/-- R122's first example: the comparison is signed. -/
theorem test_lt_signed : (afterStep (tape [1107, -1, 0, 5, 99, 0])).Mem.read 5 = 1 := by decide
/-- R122's second example: equal operands give 0. -/
theorem test_lt_equal : (afterStep (tape [1107, 3, 3, 5, 99, 7])).Mem.read 5 = 0 := by decide
/-- R123's first example. -/
theorem test_eq : (afterStep (tape [1108, -7, -7, 5, 99, 0])).Mem.read 5 = 1 := by decide
/-- R123's second example. -/
theorem test_eq_not : (afterStep (tape [1108, -7, 7, 5, 99, 9])).Mem.read 5 = 0 := by decide
/-- R130's example. -/
theorem test_in :
    let t := afterStep ((tape [3, 0, 4, 0, 99]).pushInput 42)
    t.Mem.read 0 = 42 ∧ t.INQ = [] ∧ t.IP = 2 := by decide
/-- R130's example with an empty channel. -/
theorem test_in_blocked :
    outcome (tape [3, 0, 4, 0, 99]) = .blocked ∧ (afterStep (tape [3, 0, 4, 0, 99])).IP = 0 := by decide
/-- R131's first example. -/
theorem test_out :
    let t := afterStep { tape [42, 0, 4, 0, 99] with IP := 2 }
    t.OUTQ = [42] ∧ t.IP = 4 := by decide
/-- R131's third example: `204,-1` with `RB = 1` appends `Mem[0]`. -/
theorem test_out_relative : (afterStep { tape [204, -1] with RB := 1 }).OUTQ = [204] := by decide
/-- R140's first example. -/
theorem test_jt : (afterStep (tape [1105, 1, 4, 99, 104, 9, 99])).IP = 4 := by decide
/-- R140's second example: an unused target may be negative. -/
theorem test_jt_untaken : (afterStep (tape [1105, 0, -3, 99])).IP = 3 := by decide
/-- R141's first example. -/
theorem test_jf : (afterStep (tape [1106, 0, 4, 99, 104, 9, 99])).IP = 4 := by decide
/-- R141's second example. -/
theorem test_jf_untaken : (afterStep (tape [1106, 5, -3, 99])).IP = 3 := by decide
/-- R150: `109,19` with `RB = 2000`. -/
theorem test_arb : (afterStep { tape [109, 19] with RB := 2000 }).RB = 2019 := by decide
/-- R150: `209,4,99,0,0` with `RB = -2` reads at the old base. -/
theorem test_arb_relative :
    (afterStep { tape [209, 4, 99, 0, 0] with RB := word (-2) }).RB = 97 := by decide
/-- R160: halted at once, nothing retires. -/
theorem test_halt : outcome (tape [99]) = .halted ∧ afterStep (tape [99]) = tape [99] := by decide
/-- R206: `10001,-1,0,0` reports `InvalidDestination(3)`. -/
theorem test_fault_priority : outcome (tape [10001, -1, 0, 0]) = .fault 3 3 := by decide

/-! ## Witnesses: the hypotheses of each statement can be met, clause by clause -/

theorem witness_DecodeOfEncodeIsIdentity :
    (Instr.add ⟨.relative, word Config.WMIN⟩ ⟨.immediate, word Config.WMAX⟩
      ⟨.relative, word (-1)⟩ : Instr).wf = true := by decide

theorem witness_DecoderAcceptsExactlyTheEncodings :
    decode (XLEN := 64) [30004, 0, 99] = .ok (.out ⟨.position, 0⟩, [99]) ∧
    decode (XLEN := 64) [99] = .ok (.halt, []) := by
  decide

theorem witness_IllegalOpcodeRaisesInvalidOpcode :
    (let s := State.reset
     s.FAULT = 0#3 ∧ s.IP.toNat ≤ Config.ADDR_MAX ∧
       decodeWord (s.Mem.read s.IP.toNat) = .error .invalidOpcode) ∧
    (let s := nearTop 0 199
     s.FAULT = 0#3 ∧ s.IP.toNat = Config.ADDR_MAX ∧
       decodeWord (s.Mem.read s.IP.toNat) = .error .invalidOpcode) := by decide

theorem witness_IllegalModeDigitRaisesInvalidMode :
    ∀ p ∈ [(301, 1), (3001, 2), (30001, 3), (13101, 2)],
      (tape [p.1]).FAULT = 0#3 ∧ (tape [p.1]).IP.toNat ≤ Config.ADDR_MAX ∧
        decodeWord ((tape [p.1]).Mem.read (tape [p.1]).IP.toNat) = .error (.invalidMode p.2) := by
  decide

theorem witness_ImmediateDestinationRaisesInvalidDestination :
    ∀ p ∈ [(10001, 3), (11102, 3), (10107, 3), (12208, 3), (103, 1)],
      (tape [p.1]).FAULT = 0#3 ∧ (tape [p.1]).IP.toNat ≤ Config.ADDR_MAX ∧
        decodeWord ((tape [p.1]).Mem.read (tape [p.1]).IP.toNat) = .error (.invalidDestination p.2) := by
  decide

theorem witness_UnexaminedDigitsAreIgnored :
    (let W : Word := 30004
     let V : Word := 4
     0 ≤ W.toInt ∧ 0 ≤ V.toInt ∧ opcodeOfField (W.toNat % 100) = some .out ∧
       W.toNat % 10 ^ (Opcode.operandCount .out + 2) = V.toNat % 10 ^ (Opcode.operandCount .out + 2)) ∧
    (let W : Word := 199
     W.toNat % 100 = 99 ∧ W.toNat / 100 ≠ 0) := by decide

/-- An ADD that ends at the top, and HALT on the top cell. -/
theorem witness_StepRunsTheDecodedInstruction :
    (let s := nearTop 3 1101
     let i : Instr := .add ⟨.immediate, 0⟩ ⟨.immediate, 0⟩ ⟨.position, 0⟩
     i.wf = true ∧ s.FAULT = 0#3 ∧ s.IP.toNat + i.operandCount = Config.ADDR_MAX ∧
       decode (s.Mem.words s.IP.toNat (1 + i.operandCount)) = .ok (i, [])) ∧
    (let s := nearTop 0 99
     s.FAULT = 0#3 ∧ s.IP.toNat + (.halt : Instr).operandCount ≤ Config.ADDR_MAX ∧
       decode (s.Mem.words s.IP.toNat (1 + (.halt : Instr).operandCount)) = .ok (.halt, [])) := by decide

/-- The last operand cell on the top address, and one above it. -/
theorem witness_OperandFetchReadsTheFollowingCells :
    ∀ k ∈ [1, 0],
      let s := nearTop k 104
      s.FAULT = 0#3 ∧ s.IP.toNat ≤ Config.ADDR_MAX ∧ (s.Mem.read s.IP.toNat).toInt ≠ 99 ∧
        decodeWord (s.Mem.read s.IP.toNat) = .ok ⟨.out, .immediate, .position, .position⟩ ∧
        (k = 1 → s.IP.toNat + Opcode.operandCount .out ≤ Config.ADDR_MAX) ∧
        (k = 0 → Config.ADDR_MAX < s.IP.toNat + Opcode.operandCount .out) := by decide

/-- A faulted, a halted and a waiting state. -/
theorem witness_NoStepWhenFaultedHaltedOrHeld :
    (afterStep (tape [])).FAULT ≠ 0#3 ∧
    ((nearTop 0 99).FAULT = 0#3 ∧ (nearTop 0 99).IP.toNat ≤ Config.ADDR_MAX ∧
      ((nearTop 0 99).Mem.read (nearTop 0 99).IP.toNat).toInt = 99) ∧
    status (tape [3, 0]) = .waiting := by decide

/-- A state for each outcome. -/
theorem witness_OutcomeTellsTheStateChange :
    (tape [1101, 1, 1, 0]).Inv ∧
    step (tape [1101, 1, 1, 0]) = .next (afterStep (tape [1101, 1, 1, 0])) ∧
    outcome (tape [1101, 1, 1, 0]) = .retired ∧ outcome (tape [104, 7]) = .retiredOutput 7 ∧
    outcome (tape [99]) = .halted ∧ outcome (tape [3, 0]) = .blocked ∧
    outcome (tape [0]) = .fault 1 0 ∧ outcome (afterStep (tape [0])) = .faulted :=
  ⟨by decide, steps_next (by decide), by decide, by decide, by decide, by decide, by decide, by decide⟩

theorem witness_FaultsArePrecise :
    let s := tape [21101, 1, 1, -1, 99]
    s.FAULT = 0#3 ∧ step s = .next (afterStep s) ∧ (afterStep s).FAULT ≠ 0#3 :=
  ⟨by decide, steps_next (by decide), by decide⟩

theorem witness_OnlyResetClearsAFault :
    (afterStep (tape [])).FAULT ≠ 0#3 ∧
    noReset (XLEN := 64) [.step, .poke 0 99, .pushInput 1, .clearInput, .step] = true ∧
    State.new [] = some State.reset := by decide

/-- Each instruction, fetched and completed; a jump taken and not taken. -/
theorem witness_StepWritesIPOnce :
    (∀ P ∈ [[1101, 1, 1, 0], [1102, 1, 1, 0], [1107, 1, 1, 0], [1108, 1, 1, 0], [3, 0], [104, 1],
        [109, 1], [1105, 1, 0], [1105, 0, 0], [1106, 0, 0], [1106, 1, 0], [99]],
      fetched ((tape P).pushInput 5) ≠ none ∧ (afterStep ((tape P).pushInput 5)).FAULT = 0#3) ∧
    outcome (tape [3, 0]) = .blocked ∧ outcome (tape [99]) = .halted ∧
    outcome (afterStep (tape [])) = .faulted ∧ (afterStep (tape [])).FAULT ≠ 0#3 := by decide

theorem witness_StepWritesOnlyTheDestinationCell :
    step (tape [1101, 1, 2, 5]) = .next (afterStep (tape [1101, 1, 2, 5])) ∧
    ∀ i u k d, fetch (tape [1101, 1, 2, 5]) = .run i u → i.destination? = some (k, d) →
      cellOf d (tape [1101, 1, 2, 5]) ≠ some 6 := by
  refine ⟨steps_next (by decide), fun i u k d h hd => ?_⟩
  have hf : fetched (tape [1101, 1, 2, 5]) =
      some (.add ⟨.immediate, 1⟩ ⟨.immediate, 2⟩ ⟨.position, 5⟩) := by decide
  rw [fetched, h] at hf
  cases hf
  cases hd
  decide

theorem witness_OnlyArbWritesRB :
    step (tape [109, 5]) = .next (afterStep (tape [109, 5])) ∧
    (noReset (XLEN := 64) [HostOp.poke 0 1] = true ∧ (.poke 0 1 : HostOp) ≠ .step) ∧
    State.new [109, 5] = some (tape [109, 5]) ∧
    ((∀ o ∈ (Instr.out ⟨.immediate, 5⟩ : Instr).operands, o.mode ≠ .relative) ∧
      (∀ a, (.out ⟨.immediate, 5⟩ : Instr) ≠ .arb a) ∧
      ∃ t, exec (.out ⟨.immediate, 5⟩) (tape [104, 5]) = .next t) :=
  ⟨steps_next (by decide), by decide, by decide, by decide, ⟨fun _ h => (by cases h), _, rfl⟩⟩

theorem witness_OnlyInTakesInputAndOnlyOutAppends :
    step (tape [3, 0]) = .next (afterStep (tape [3, 0])) := steps_next (by decide)

/-- Two states that differ in FINFO, OUTQ, MLEN and the rest of INQ. -/
theorem witness_StepReadsOnlyWhatR113Lists :
    let s := { tape [3, 0] with INQ := [1, 2], OUTQ := [8] }
    let s' := { tape [3, 0] with INQ := [1], FINFO := 3, MLEN := 9 }
    s.Mem = s'.Mem ∧ s.IP = s'.IP ∧ s.RB = s'.RB ∧ s.FAULT = s'.FAULT ∧
      s.INQ.head? = s'.INQ.head? ∧ step s = .next (afterStep s) ∧
      step s' = .next (afterStep s') ∧ s ≠ s' :=
  ⟨by decide, by decide, by decide, by decide, by decide, steps_next (by decide),
    steps_next (by decide), by decide⟩

theorem witness_StatusFollowsItsPrecedence :
    (∀ P ∈ [[99], [3, 0], [0]], (tape P).IP.toNat ≤ Config.ADDR_MAX) ∧
    ((tape [99]).Mem.wf = true ∧ status (tape [99]) = .halted ∧
      ((tape [99]).poke (tape [99]).IP.toNat 4).isSome = true ∧ (4 : Word).toInt ≠ 99) ∧
    status (tape [3, 0]) = .waiting ∧ status (tape [3, -1]) = .running ∧
    (status (afterStep (tape [0])) = .faulted 1 0 ∧ noReset (XLEN := 64) [.poke 0 99] = true) := by decide

theorem witness_StepKeepsTheInvariant :
    (tape [1101, 1, 2, 5]).Inv ∧
      step (tape [1101, 1, 2, 5]) = .next (afterStep (tape [1101, 1, 2, 5])) :=
  ⟨by decide, steps_next (by decide)⟩

/-- At the width of this hardware, with IP on the top cell, and at a larger one. -/
theorem witness_HostOperationsKeepTheInvariant :
    ((64 : Nat) ≤ 64 ∧ (nearTop 0 99).IP.toNat = Config.ADDR_MAX ∧
      ({ nearTop 0 99 with MLEN := Config.ADDR_MAX + 1 } : State).Inv) ∧
    ((64 : Nat) ≤ 100 ∧ (State.resetAt 100).Inv) := by decide

theorem witness_CanonicalTapesWithEqualReadsAreEqual :
    let m : Memory := [(3, 7), (Config.ADDR_MAX, 1)]
    m.wf = true ∧ ∀ a, m.read a = m.read a := ⟨by decide, fun _ => rfl⟩

/-- Cells loaded, stored to by an instruction, poked, and neither; and a store on the top cell. -/
theorem witness_TapeReadsBackWhatWasWritten :
    (let s := tape [1101, 1, 2, 5]
     let ops : List HostOp := [.step, .poke Config.ADDR_MAX 4, .pushInput 1, .step]
     State.new [1101, 1, 2, 5] = some s ∧ noReset ops = true ∧
       lastWrite 5 0 ops s = 3 ∧ lastWrite Config.ADDR_MAX 0 ops s = 4 ∧
       lastWrite 1 1 ops s = 1 ∧ lastWrite 9 0 ops s = 0) ∧
    (tape [1, 2]).Mem.wf = true ∧ Config.ADDR_MAX ≤ Config.ADDR_MAX ∧ (5 : Nat) ≠ Config.ADDR_MAX := by
  decide

theorem witness_TapeLengthNeverShrinks : noReset (XLEN := 64) [.peek 7, .step, .poke 9 0] = true := by decide

theorem witness_SourceValueIsLiteralOrCell :
    (Operand.mk .immediate 5 : Operand).mode = .immediate ∧
    ((Operand.mk .relative 5 : Operand).mode ≠ .immediate ∧
      cellOf (Operand.mk .relative 5 : Operand) { State.reset with RB := word (-5) } = some 0) := by decide

theorem witness_WrapIsTheUniqueCongruentWord :
    ((word Config.WMIN).toInt - (Config.WMAX + 1)) % 2 ^ 64 = 0 ∧
    (64 : Nat) ≤ 100 ∧ Config.WMIN 100 ≤ Config.WMAX + 1 ∧ Config.WMAX + 1 ≤ Config.WMAX 100 ∧
    ((0#100).toInt - 2 ^ 100) % 2 ^ 100 = 0 := by decide

/-! ### The instructions -/

/-- The hypotheses on an instruction word: opcode `c`, and mode digit 3 on operand `i` alone. -/
def BadMode (c i : Nat) : Prop :=
  let s := tape [(c + 3 * 10 ^ (i + 1) : Nat)]
  atOpcode s c ∧ 3 ≤ dig (i + 1) (s.Mem.read s.IP.toNat).toNat ∧
    ∀ j ∈ [1, 2, 3], j < i → dig (j + 1) (s.Mem.read s.IP.toNat).toNat ≤ 2

/-- The hypotheses on an instruction word: opcode `c`, and mode digit 1 on operand `d` alone. -/
def BadDestination (c d : Nat) : Prop :=
  let s := tape [(c + 10 ^ (d + 1) : Nat)]
  atOpcode s c ∧ (∀ j ∈ [1, 2, 3], dig (j + 1) (s.Mem.read s.IP.toNat).toNat ≤ 2) ∧
    dig (d + 1) (s.Mem.read s.IP.toNat).toNat = 1

/-- The hypotheses of a three-operand instruction: it completes with the successor on the top address,
and each of its faults arises.  They are about operands and state, the same for all four. -/
def ThreeOperands (c : Nat) : Prop :=
  (let s := { nearTop 4 c with RB := word (-1) }
   sourceValue ⟨.immediate, word (-1)⟩ s = some (word (-1)) ∧
     sourceValue ⟨.relative, 1⟩ s = some 0 ∧
     cellOf ⟨.position, word Config.WMAX⟩ s = some Config.ADDR_MAX ∧
     s.IP.toNat + 4 = Config.ADDR_MAX) ∧
  BadMode c 1 ∧ BadMode c 3 ∧ BadDestination c 3 ∧
  (let s := nearTop 3 c
   (Operand.mk .position 0 : Operand).writable = true ∧ sourceValue ⟨.position, word (-1)⟩ s = none ∧
     sourceValue ⟨.immediate, word (-1)⟩ s = some (word (-1)) ∧
     cellOf ⟨.relative, word (-1)⟩ s = none ∧ (Operand.mk .relative (word (-1)) : Operand).writable = true ∧
     cellOf ⟨.position, 0⟩ s = some 0 ∧ Config.ADDR_MAX < s.IP.toNat + 4)

theorem witness_AddStoresTheWrappedSum : ThreeOperands 1 := by
  unfold ThreeOperands BadMode BadDestination atOpcode; decide
theorem witness_MulStoresTheWrappedProduct : ThreeOperands 2 := by
  unfold ThreeOperands BadMode BadDestination atOpcode; decide
theorem witness_LtStoresTheSignedComparison : ThreeOperands 7 := by
  unfold ThreeOperands BadMode BadDestination atOpcode; decide
theorem witness_EqStoresTheEquality : ThreeOperands 8 := by
  unfold ThreeOperands BadMode BadDestination atOpcode; decide

theorem witness_InTakesTheOldestInput :
    (let s := (nearTop 2 203).pushInput 5
     cellOf ⟨.position, word Config.WMAX⟩ s = some Config.ADDR_MAX ∧
       s.IP.toNat + 2 = Config.ADDR_MAX ∧ s.INQ = [5]) ∧
    (let s := nearTop 2 203
     cellOf ⟨.relative, 0⟩ s = some 0 ∧ s.IP.toNat + 2 = Config.ADDR_MAX ∧ s.INQ = []) ∧
    (let s := nearTop 1 203
     (Operand.mk .position (word (-1)) : Operand).writable = true ∧ cellOf ⟨.position, word (-1)⟩ s = none ∧
       (Operand.mk .position 0 : Operand).writable = true ∧ cellOf ⟨.position, 0⟩ s = some 0 ∧
       Config.ADDR_MAX < s.IP.toNat + 2) ∧
    BadMode 3 1 ∧ BadDestination 3 1 := by
  unfold BadMode BadDestination atOpcode; decide

/-- The hypotheses of OUT and ARB. -/
def OneSource (c : Nat) : Prop :=
  (let s := nearTop 2 c
   sourceValue ⟨.position, word Config.WMAX⟩ s = some 0 ∧ s.IP.toNat + 2 = Config.ADDR_MAX) ∧
  (let s := nearTop 1 c
   sourceValue ⟨.position, word (-1)⟩ s = none ∧
     sourceValue ⟨.immediate, word (-1)⟩ s = some (word (-1)) ∧ Config.ADDR_MAX < s.IP.toNat + 2) ∧
  BadMode c 1

theorem witness_OutAppendsItsValue : OneSource 4 ∧
    (let s := tape [104, 7]
     fetch s = .run (.out ⟨.immediate, 7⟩) s ∧ sourceValue ⟨.immediate, 7⟩ s = some 7 ∧
       s.IP.toNat + 2 ≤ Config.ADDR_MAX) := by
  unfold OneSource BadMode atOpcode; decide
theorem witness_ArbAddsToRB : OneSource 9 := by
  unfold OneSource BadMode atOpcode; decide

/-- The hypotheses of the jumps: taken to the lowest and the highest target, not taken, and each fault;
`yes` is a condition word that takes the jump and `no` one that does not. -/
def TwoSources (c : Nat) (yes no : Word) (taken : Word → Prop) : Prop :=
  (let s := nearTop 3 c
   sourceValue ⟨.immediate, yes⟩ s = some yes ∧ taken yes ∧
     sourceValue ⟨.position, 0⟩ s = some 0 ∧ 0 ≤ (0 : Word).toInt ∧
     sourceValue ⟨.immediate, word Config.WMAX⟩ s = some (word Config.WMAX) ∧
     0 ≤ (word Config.WMAX).toInt ∧
     sourceValue ⟨.immediate, no⟩ s = some no ∧ ¬ taken no ∧
     sourceValue ⟨.immediate, word (-1)⟩ s = some (word (-1)) ∧ (word (-1)).toInt < 0 ∧
     s.IP.toNat + 3 = Config.ADDR_MAX) ∧
  (let s := nearTop 2 c
   sourceValue ⟨.position, word (-1)⟩ s = none ∧ sourceValue ⟨.relative, word (-1)⟩ s = none ∧
     sourceValue ⟨.immediate, no⟩ s = some no ∧ Config.ADDR_MAX < s.IP.toNat + 3) ∧
  BadMode c 1 ∧ BadMode c 2

theorem witness_JtJumpsWhenNotZero : TwoSources 5 (word (-1)) 0 fun x => x.toInt ≠ 0 := by
  unfold TwoSources BadMode atOpcode; decide
theorem witness_JfJumpsWhenZero : TwoSources 6 0 (word (-1)) fun x => x.toInt = 0 := by
  unfold TwoSources BadMode atOpcode; decide

theorem witness_HaltChangesNothing :
    (nearTop 0 99).FAULT = 0#3 ∧ (nearTop 0 99).IP.toNat = Config.ADDR_MAX ∧
      ((nearTop 0 99).Mem.read (nearTop 0 99).IP.toNat).toInt = 99 := by decide

/-! ### Frames and rules across instructions -/

/-- Each of the four, completing and faulting on its destination. -/
theorem witness_FrameOfThreeOperandInstructions :
    (∀ mk ∈ ([Instr.add, Instr.mul, Instr.lt, Instr.eq] :
        List (Operand → Operand → Operand → Instr)),
      ∃ t, exec (mk ⟨.immediate, 1⟩ ⟨.immediate, 2⟩ ⟨.position, 5⟩) State.reset = .next t) ∧
    cellOf ⟨.position, 5⟩ State.reset = some 5 ∧ (6 : Nat) ≠ 5 ∧
    cellOf ⟨.position, word (-1)⟩ State.reset = none ∧
    ∃ t, exec (.add ⟨.immediate, 1⟩ ⟨.immediate, 2⟩ ⟨.position, word (-1)⟩) State.reset = .next t := by
  refine ⟨?_, by decide, by decide, by decide, _, rfl⟩
  intro mk h
  simp only [List.mem_cons, List.not_mem_nil, or_false] at h
  rcases h with rfl | rfl | rfl | rfl <;> exact ⟨_, rfl⟩

theorem witness_FrameOfIn :
    (∃ t, exec (.inp ⟨.position, 5⟩) (State.reset.pushInput 7) = .next t) ∧
    (∃ t, exec (.inp ⟨.position, 5⟩) State.reset = .next t) ∧
    cellOf ⟨.position, 5⟩ (State.reset.pushInput 7) = some 5 ∧ (6 : Nat) ≠ 5 ∧
    cellOf ⟨.position, word (-1)⟩ State.reset = none ∧
    ∃ t, exec (.inp ⟨.position, word (-1)⟩) State.reset = .next t :=
  ⟨⟨_, rfl⟩, ⟨_, rfl⟩, by decide, by decide, by decide, _, rfl⟩

theorem witness_FrameOfInstructionsThatStoreNothing :
    let a : Operand := ⟨.immediate, 1⟩
    (∃ t, exec (.out a) State.reset = .next t) ∧ (∃ t, exec (.jt a a) State.reset = .next t) ∧
    (∃ t, exec (.jf a a) State.reset = .next t) ∧ (∃ t, exec (.arb a) State.reset = .next t) ∧
    (∃ t, exec .halt State.reset = .next t) ∧ Instr.jt a a ≠ .out a ∧ Instr.out a ≠ .arb a :=
  ⟨⟨_, rfl⟩, ⟨_, rfl⟩, ⟨_, rfl⟩, ⟨_, rfl⟩, ⟨_, rfl⟩, by decide, by decide⟩

theorem witness_RelativeModeRoundTrip :
    State.reset.RB = 0#64 ∧ 0 ≤ (word Config.WMAX).toInt ∧
      State.reset.IP.toNat + 6 ≤ Config.ADDR_MAX ∧ State.reset.Mem.wf = true ∧
      sourceValue ⟨.immediate, 7⟩ (afterStep (tape [109, 50])) = some 7 := by decide

/-- The instruction that stores, the state, the cell and the word stored: each instruction, onto the cell
the cursor then points at (the ADD is R161's example), and the words a next step can find there: 99,
one that is refused, one whose operand lies in the address space and one whose operand lies above it. -/
def storesUnderTheCursor : List (Instr × State × Nat × Word) :=
  [(.add ⟨.immediate, 90⟩ ⟨.immediate, 9⟩ ⟨.position, 4⟩, tape [1101, 90, 9, 4, 4, 0, 99], 4, 99),
    (.mul ⟨.immediate, 52⟩ ⟨.immediate, 2⟩ ⟨.position, 4⟩, tape [1102, 52, 2, 4], 4, 104),
    (.lt ⟨.immediate, 2⟩ ⟨.immediate, 2⟩ ⟨.position, 4⟩, tape [1107, 2, 2, 4, 99], 4, 0),
    (.eq ⟨.immediate, 2⟩ ⟨.immediate, 2⟩ ⟨.position, 4⟩, tape [1108, 2, 2, 4, 99], 4, 1),
    (.inp ⟨.position, 2⟩, (tape [3, 2]).pushInput 99, 2, 99),
    (.add ⟨.immediate, 100⟩ ⟨.immediate, 4⟩ ⟨.position, word Config.WMAX⟩, nearTop 4 1,
      Config.ADDR_MAX, 104)]

theorem witness_StoreUnderTheCursorIsFetchedNext :
    (∀ p ∈ storesUnderTheCursor,
      p.2.1.Mem.wf = true ∧ p.2.1.FAULT = 0#3 ∧ storeOf p.1 p.2.1 = some p.2.2 ∧
        exec p.1 p.2.1 = .next (executed p.1 p.2.1) ∧ (executed p.1 p.2.1).FAULT = 0#3 ∧
        p.2.2.1 = (executed p.1 p.2.1).IP.toNat) ∧
    (let s := tape [99]
     s.Mem.wf = true ∧ s.FAULT = 0#3 ∧ s.IP.toNat ≤ Config.ADDR_MAX ∧
       s.poke s.IP.toNat 4 = some (tape [4])) ∧
    (∃ f, decodeWord 0#64 = .error f) ∧
    (∃ h, decodeWord 104#64 = .ok h ∧ 4 + h.op.operandCount ≤ Config.ADDR_MAX) ∧
    ∃ h, decodeWord 104#64 = .ok h ∧ Config.ADDR_MAX < Config.ADDR_MAX + h.op.operandCount := by
  refine ⟨fun p hp => ?_, by decide, ⟨_, rfl⟩, ⟨_, rfl, by decide⟩, ⟨_, rfl, by decide⟩⟩
  simp only [storesUnderTheCursor, List.mem_cons, List.not_mem_nil, or_false] at hp
  rcases hp with rfl | rfl | rfl | rfl | rfl | rfl <;>
    exact ⟨by decide, by decide, by decide, rfl, by decide, by decide⟩

theorem witness_ChannelTrafficIsFifo :
    noReset (XLEN := 64) [.pushInput 1, .step, .clearInput, .step, .popOutput, .drainOutputs] = true := by decide

theorem witness_OnlyAPokeAtIPOrResetUnhalts :
    (tape [99]).IP.toNat ≤ Config.ADDR_MAX ∧ halted (tape [99]) = true ∧
      noReset (XLEN := 64) [.pushInput 5] = true ∧ (tape [99]).Inv ∧
      (tape [99]).poke (tape [99]).IP.toNat 4 = some (tape [4]) := by decide

/-! ### The host interface and composition -/

theorem witness_NewLoadsTheImage :
    State.new [7, -1] = some (tape [7, -1]) ∧ (1 : Nat) < [7, -1].length ∧
      ([7, -1] : List Int).length ≤ 2 ∧ (State.new [Config.WMAX + 1] : Option State) = none := by decide

/-- Below, at both ends of, and above the address range. -/
theorem witness_PokeWritesOneCell :
    (-1 : Int) < 0 ∧ (Config.ADDR_MAX : Int) < Config.WMAX + 1 ∧ (0 : Int) ≤ 0 ∧
      (0 : Int) ≤ Config.ADDR_MAX ∧ (0 : Int) ≤ Config.WMAX ∧ Config.WMAX ≤ Config.ADDR_MAX := by decide

theorem witness_PeekAndViewOnlyRead :
    Config.WMIN < 0 ∧ (Config.ADDR_MAX : Int) < Config.WMAX + 1 ∧ (0 : Int) ≤ 0 ∧
      (0 : Int) ≤ Config.ADDR_MAX ∧ (0 : Int) ≤ Config.WMAX ∧ Config.WMAX ≤ Config.ADDR_MAX := by decide

theorem witness_HostChannelOperations :
    State.reset.OUTQ = [] ∧ (afterStep (tape [104, 7])).OUTQ = [7] := by decide

/-- Two instances in a pipeline: `P`, fed by the host, writes to channel 1, from which the second takes a
word, which it passes to the host. -/
def pipeline (P : List Int) : System :=
  { nodes := [⟨tape P, 0, 1⟩, ⟨tape [3, 0, 4, 0, 99], 1, 2⟩], chans := [[], [], []],
    hostFeeds := [0], hostTakes := [2] }

/-- The second instance is tried first; then each takes its steps. -/
def schedule : List SysEvent :=
  [.on 1 .step, .on 0 .step, .on 1 .step, .on 1 .step, .on 1 .step, .on 0 .step]

theorem witness_RunUntilHaltedReportsTheState :
    ((tape [104, 7, 99]).Inv ∧ (runUntilHalted 2 (tape [104, 7, 99])).1 = .halted ∧
      (runUntilHalted 1 (tape [3, 0])).1 = .blocked ∧ (runUntilHalted 1 (tape [0])).1 = .fault 1 0 ∧
      (runUntilHalted 1 (tape [104, 7, 99])).1 = .unfinished) ∧
    ((pipeline [104, 7, 99]).runUntilHalted 1 schedule).1 = .halted ∧
      ((pipeline [104, 7, 99]).runUntilHalted 1 schedule).2.2 = [.on 0 .step] ∧
      ((pipeline [0]).runUntilHalted 0 schedule).1 = .fault 1 0 ∧
      ((pipeline [0]).runUntilHalted 1 schedule).1 = .unfinished := by decide

theorem witness_RunUntilNextOutputStopsAtTheFirstOutput :
    ((tape [104, 7, 99]).Inv ∧ (runUntilNextOutput true 1 (tape [104, 7, 99])).1 = .output 7 ∧
      (runUntilNextOutput true 2 (tape [109, 0, 104, 7, 99])).1 = .output 7 ∧
      (runUntilNextOutput true 1 (tape [99])).1 = .noOutput ∧
      (runUntilNextOutput false 1 (tape [3, 0])).1 = .blocked ∧
      (runUntilNextOutput true 1 (tape [0])).1 = .fault 1 0 ∧
      (runUntilNextOutput true 1 (tape [109, 0])).1 = .unfinished) ∧
    ((pipeline [104, 7, 99]).runUntilNextOutput 1 schedule).1 = .output 7 ∧
      ((pipeline [104, 7, 99]).runUntilNextOutput 0 schedule).1 = .output 7 ∧
      ((pipeline [99]).runUntilNextOutput 0 schedule).1 = .noOutput ∧
      ((pipeline [0]).runUntilNextOutput 0 schedule).1 = .fault 1 0 ∧
      ((pipeline [99]).runUntilNextOutput 1 schedule).1 = .unfinished := by decide

theorem witness_NextOutputOfAHaltedCoreIsAbsent :
    (nearTop 0 99).IP.toNat ≤ Config.ADDR_MAX ∧ (nearTop 0 99).FAULT = 0#3 ∧
      halted (nearTop 0 99) = true := by decide

/-- An event that is carried out, one the host may not do, and one on a wiring with two producers. -/
theorem witness_StepOfOneInstanceLeavesTheOthers :
    (let y := pipeline [104, 7, 99]
     y.nodes[0]? = some ⟨tape [104, 7, 99], 0, 1⟩ ∧ (1 : Nat) ≠ 0 ∧ (2 : Nat) ≠ 0 ∧ (2 : Nat) ≠ 1 ∧
       y.topologyOk = true ∧ (y.apply (.on 0 .step)).1 = .attempted (.retiredOutput 7) ∧
       (y.apply (.on 1 (.pushInput 5))).1 = .refused) ∧
    ({ pipeline [99] with hostFeeds := [0, 1] } : System).topologyOk = false := by decide

theorem witness_SharedChannelHandsOverInOrder :
    let n : Node := ⟨tape [104, 7, 99], 0, 1⟩
    let m : Node := ⟨tape [3, 0, 4, 0, 99], 1, 2⟩
    let y := { pipeline [104, 7, 99] with chans := [[], [5], [8, 9]] }
    y.topologyOk = true ∧ y.nodes[0]? = some n ∧ y.nodes[1]? = some m ∧
      nextOutput (y.view n) = some 7 ∧ n.inCh ≠ n.outCh ∧
      nextInput (y.view m) = some (some 5) ∧ m.inCh ≠ m.outCh ∧
      n.inCh ∈ y.hostFeeds ∧ m.inCh ∉ y.hostFeeds ∧
      m.outCh ∈ y.hostTakes ∧ y.chan m.outCh = [8, 9] ∧ n.outCh ∉ y.hostTakes := by decide

/-- A waiting instance whose producer has halted, under a schedule in which the host sends to the
producer only; the producer itself, waiting, while the host may send; and a running producer. -/
theorem witness_StarvedInstanceStaysWaiting :
    (let y := pipeline [99]
     let n : Node := ⟨tape [3, 0, 4, 0, 99], 1, 2⟩
     y.nodes[1]? = some n ∧ y.starved [0] n = true ∧
       System.allOrdinary [0] [.on 1 .step, .on 0 (.pushInput 4), .on 0 .step, .on 1 .step] y = true ∧
       System.attempts 1 [.on 1 .step, .on 0 (.pushInput 4), .on 0 .step, .on 1 .step] y =
         [.blocked, .blocked]) ∧
    (let y := pipeline [3, 0]
     let n : Node := ⟨tape [3, 0], 0, 1⟩
     y.topologyOk = true ∧ n.inCh ∈ y.hostFeeds ∧ n.inCh ∈ [0] ∧ y.status n = .waiting) ∧
    (let y := pipeline [104, 7, 99]
     let p : Node := ⟨tape [104, 7, 99], 0, 1⟩
     y.topologyOk = true ∧ y.nodes[0]? = some p ∧ p.outCh = 1 ∧ y.status p = .running) := by decide

/-- A step that stores, at 64 and 100 bits. -/
theorem witness_StepIsTheSameAtEveryLargerWidth :
    let s := tape [1101, -1, -2, 5]
    (64 : Nat) ≤ 64 ∧ (64 : Nat) ≤ 100 ∧ s.Inv ∧ s.overflowsNext = false ∧ (afterStep s).FAULT ≠ 4#3 ∧
      ((afterStep (s.widen 100)).Mem.read 5).toInt = -3 := by decide

/-! ## Systems: tests of the rules of 47_host_interface.md section 4 -/

/-- R185, U11: two producers, two consumers, and a channel that does not exist are refused. -/
theorem test_new_system :
    (System.new 3 [0] [2] [([104, 7, 99], 0, 1), ([3, 0, 4, 0, 99], 1, 2)] =
      some (pipeline [104, 7, 99])) ∧
    (System.new 3 [0] [2] [([99], 0, 1), ([99], 1, 1)] : Option System) = none ∧
    (System.new 3 [0] [1] [([99], 0, 1), ([99], 1, 2)] : Option System) = none ∧
    (System.new 2 [0] [2] [([99], 0, 1), ([99], 1, 2)] : Option System) = none := by decide

/-- R187: the second instance is stuck when its producer has halted, whatever the host sends to that
one, and is not stuck while a waiting producer can still be fed. -/
theorem test_stuck :
    (pipeline [99]).stuck [0] = true ∧ (pipeline [3, 0]).stuck [] = true ∧
    (pipeline [3, 0]).stuck [0] = false ∧ (pipeline [104, 7, 99]).stuck [] = false := by decide

/-- R249, R211: of a running instance that the caller does not drive, fairness asks no step; of one that
stays enabled it does. -/
theorem test_fairness :
    WeaklyFair (fun _ => pipeline [104, 7, 99]) (fun _ _ => false) (fun _ => .on 0 .view) ∧
    ¬ WeaklyFair (fun _ => pipeline [104, 7, 99]) (fun _ _ => true) (fun _ => .on 0 .view) := by
  have hy : pipeline [104, 7, 99] = ((pipeline [104, 7, 99]).apply (.on 0 .view)).2 := by decide
  have hr : (pipeline [104, 7, 99]).nodes[0]? = some ⟨tape [104, 7, 99], 0, 1⟩ ∧
      (pipeline [104, 7, 99]).status ⟨tape [104, 7, 99], 0, 1⟩ = .running := by decide
  refine ⟨⟨fun _ => hy, fun _ _ h => ?_, fun _ t h => ?_⟩, fun h => ?_⟩
  · cases h
  · cases (h t (Nat.le_refl t)).1
  · obtain ⟨u, -, hu⟩ := h.2.2 0 0 fun _ _ => ⟨rfl, _, hr⟩
    cases hu

/-- R249: an endless loop that is stepped for ever, beside an instance that waits for ever, is fair. -/
theorem test_fair_run :
    WeaklyFair (fun _ => pipeline [1105, 1, 0]) (fun _ _ => true) (fun _ => .on 0 .step) := by
  have hy : pipeline [1105, 1, 0] = ((pipeline [1105, 1, 0]).apply (.on 0 .step)).2 := by decide
  have hw : (pipeline [1105, 1, 0]).status ⟨tape [3, 0, 4, 0, 99], 1, 2⟩ = .waiting := by decide
  refine ⟨fun _ => hy, fun _ _ _ => rfl, fun k t h => ?_⟩
  obtain ⟨-, n, hk, hs⟩ := h t (Nat.le_refl t)
  match k with
  | 0 => exact ⟨t, Nat.le_refl t, rfl⟩
  | 1 =>
    cases hk
    exact Status.noConfusion (hw.symm.trans hs)
  | k + 2 => cases hk

/-- R183: an event of each kind returns its result. -/
theorem test_events :
    ((pipeline [104, 7, 99]).run [.on 0 .isHalted, .on 0 .step, .on 0 .isHalted, .on 1 .step, .on 1 .step,
      .on 1 .drainOutputs, .on 1 (.peek 0), .on 0 (.new [1]), .reset [[99], [99]]]).1 =
    [.truth false, .attempted (.retiredOutput 7), .truth true, .attempted .retired,
      .attempted (.retiredOutput 7), .words [7], .word 7, .refused, .done] := by decide

end Sys2Proof.Tests
end

section
/-! PROOFS of 10_state.md: lemmas about the decoder and the no-step cases, then the statements about IP
(R13), RB (R15) and the run status (R24). -/

namespace Sys2Proof.Machine

variable {XLEN : Nat}

/-! ## What a decoded word says -/

/-- R80: the destination test lets a head through as it is, its destination in a mode that names a cell. -/
theorem checkDestination_ok {h h' : Head} (hc : checkDestination h = .ok h') :
    h' = h ∧ ∀ d, h.op.destination? = some d → h.mode d ≠ .immediate := by
  unfold checkDestination at hc
  split at hc
  · rename_i hd
    cases hc
    exact ⟨rfl, fun d h => by rw [hd] at h; cases h⟩
  · rename_i d hd
    split at hc
    · cases hc
    · rename_i hm
      cases hc
      exact ⟨rfl, fun d' h' => by rw [hd] at h'; cases h'; exact hm⟩

/-- R80: no word decodes to an immediate destination. -/
theorem decodeWord_destination {W : Word XLEN} {h : Head} {d : Nat} (hW : decodeWord W = .ok h)
    (hd : h.op.destination? = some d) : h.mode d ≠ .immediate := by
  have hmodes : ∀ op n, decodeModes op n = .ok h → h.mode d ≠ .immediate := by
    intro op n hm
    unfold decodeModes at hm
    split at hm
    · cases hm
    · split at hm
      · cases hm
      · split at hm
        · cases hm
        · obtain ⟨rfl, hdst⟩ := checkDestination_ok hm
          exact hdst d hd
  unfold decodeWord at hW
  split at hW
  · cases hW
    cases hd
  · split at hW
    · cases hW
    · split at hW
      · cases hW
      · exact hmodes _ _ hW

/-- R78, case 3: the whole word 99 is HALT. -/
theorem decodeWord_of_toInt_eq_99 {W : Word XLEN} (h : W.toInt = 99) :
    decodeWord W = .ok ⟨.halt, .position, .position, .position⟩ := if_pos h

/-- A head of opcode IN is the IN whose operand is in the head's first mode. -/
theorem Head.instr_of_inp {h : Head} (ho : h.op = .inp) (r : Nat → Word XLEN) :
    h.instr r = .inp ⟨h.m1, r 1⟩ := by simp [Head.instr, ho]

/-- A head that gives an IN is of opcode IN, the operand in its first mode. -/
theorem Head.instr_eq_inp {h : Head} {r : Nat → Word XLEN} {d : Operand XLEN}
    (hi : h.instr r = .inp d) : h.op = .inp ∧ d = ⟨h.m1, r 1⟩ := by
  unfold Head.instr at hi
  split at hi <;> cases hi
  exact ⟨‹_›, rfl⟩

/-- A mode that is not immediate names a cell to write. -/
theorem writable_of_ne_immediate {o : Operand XLEN} (h : o.mode ≠ .immediate) : o.writable = true := by
  unfold Operand.writable
  split
  · rfl
  · exact absurd ‹_› h
  · rfl

/-! ## Operands do not depend on the hidden length -/

/-- A source reads the same whatever the hidden length. -/
theorem sourceValue_mlen {o : Operand XLEN} {s : State XLEN} {m : Nat} {v : Word XLEN}
    (h : sourceValue o { s with MLEN := m } = some v) : sourceValue o s = some v :=
  (sourceValue_congr (s := s) (t := { s with MLEN := m }) o rfl rfl).symm.trans h

/-! ## When the run status is each of its values -/

/-- R24: FAULTED, with the latched pair, exactly if FAULT is not 0. -/
theorem status_faulted_iff {s : State XLEN} {c : BitVec 3} {k : BitVec 2} :
    status s = .faulted c k ↔ s.FAULT ≠ 0#3 ∧ c = s.FAULT ∧ k = s.FINFO := by
  obtain ⟨hf, hs⟩ | ⟨hf, -, hs⟩ | ⟨hf, -, -, hs⟩ | ⟨hf, -, -, hs⟩ := status_cases s
  · rw [hs]
    constructor
    · rintro ⟨⟩
      exact ⟨hf, rfl, rfl⟩
    · rintro ⟨-, rfl, rfl⟩
      rfl
  all_goals simp [hs, hf]

/-- R24: HALTED exactly if FAULT is 0 and the word at IP is 99. -/
theorem status_halted_iff {s : State XLEN} :
    status s = .halted ↔ s.FAULT = 0#3 ∧ (s.Mem.read s.IP.toNat).toInt = 99 := by
  rw [← halted_iff]
  obtain ⟨hf, hs⟩ | ⟨hf, hh, hs⟩ | ⟨hf, hh, -, hs⟩ | ⟨hf, hh, -, hs⟩ := status_cases s <;>
    simp [*]

/-- R24: WAITING exactly if the core is neither faulted nor halted and the next step would hold. -/
theorem status_waiting_iff {s : State XLEN} :
    status s = .waiting ↔ s.FAULT = 0#3 ∧ halted s = false ∧ nextInput s = some none := by
  obtain ⟨hf, hs⟩ | ⟨hf, hh, hs⟩ | ⟨hf, hh, hw, hs⟩ | ⟨hf, hh, hw, hs⟩ := status_cases s <;>
    simp [*]

/-- R24: RUNNING exactly if none of the other three. -/
theorem status_running_iff {s : State XLEN} :
    status s = .running ↔ s.FAULT = 0#3 ∧ halted s = false ∧ nextInput s ≠ some none := by
  obtain ⟨hf, hs⟩ | ⟨hf, hh, hs⟩ | ⟨hf, hh, hw, hs⟩ | ⟨hf, hh, hw, hs⟩ := status_cases s <;>
    simp [*]

/-! ## Attempts that take no step -/

/-- R101: with FAULT latched no step is taken. -/
theorem fetch_of_faulted {s : State XLEN} (hf : s.FAULT ≠ 0#3) : fetch s = .idle := if_neg hf

/-- R111: an IN that raises no fault holds on an empty channel. -/
theorem execIn_hold {d : Operand XLEN} {s : State XLEN} {e : Nat} (hc : inputCell d s = .ok e)
    (hq : s.INQ = []) : execIn d s = .next s := by simp [execIn, hc, hq]

/-- R24, R101: in any status but RUNNING an attempt changes nothing but the hidden length. -/
theorem step_of_not_running {s : State} (hip : s.IP.toNat ≤ Config.ADDR_MAX)
    (hs : status s ≠ .running) : ∃ m, step s = .next { s with MLEN := m } := by
  obtain ⟨hidle, -, hrun⟩ := step_of_fetch s
  obtain ⟨hf, -⟩ | ⟨hf, hh, -⟩ | ⟨-, -, hw, -⟩ | ⟨-, -, -, hr⟩ := status_cases s
  · exact ⟨s.MLEN, hidle (fetch_of_faulted hf)⟩
  · obtain ⟨h0, -⟩ | ⟨-, hlt, -⟩ | ⟨-, -, -, h⟩ | ⟨-, -, hne, -⟩ := fetch_cases s
    · exact absurd hf h0
    · exact absurd hip (Nat.not_le.mpr hlt)
    · exact ⟨s.MLEN, hrun _ _ h⟩
    · exact absurd (halted_iff.mp hh) hne
  · obtain ⟨hnone, d, e, m, -, -, hfetch, hc⟩ := nextInput_some hw
    have hq : s.INQ = [] := List.head?_eq_none_iff.mp hnone.symm
    exact ⟨m, (hrun _ _ hfetch).trans (execIn_hold hc hq)⟩
  · exact absurd hr hs

/-- An attempt with one of the outcomes of R101 is made in a status other than RUNNING. -/
theorem not_running_of_outcome {s : State XLEN}
    (h : outcome s = .halted ∨ outcome s = .blocked ∨ outcome s = .faulted) : status s ≠ .running := by
  intro hs
  obtain ⟨h0, hh, hw⟩ := status_running_iff.mp hs
  obtain ⟨hf, -⟩ | ⟨-, hh', -⟩ | ⟨-, -, hw', -⟩ | ⟨-, -, -, ho⟩ | ⟨-, -, -, v, -, ho⟩ |
    ⟨-, -, -, -, ho⟩ := outcome_cases s
  · exact hf h0
  · exact Bool.false_ne_true (hh.symm.trans hh')
  · exact hw hw'
  all_goals simp [ho] at h

/-! ## The instruction pointer (R13) -/

/-- An instruction raises a fault, which touches no more than the latch and the hidden length, or keeps
the latch. -/
theorem Effect.raises_or_keeps_FAULT {i : Instr XLEN} {s t : State XLEN} (h : Effect i s t) :
    (∃ f m, t = ({ s with MLEN := m } : State XLEN).raise f) ∨ t.FAULT = s.FAULT := by
  cases h with
  | fault f m => exact .inl ⟨f, m, rfl⟩
  | _ => exact .inr rfl

/-- R207: a step that ends with FAULT latched leaves IP where it was. -/
theorem step_IP_of_fault {s t : State} (h : step s = .next t) (hf : t.FAULT ≠ 0#3) : t.IP = s.IP := by
  obtain ⟨-, rfl⟩ | ⟨-, f, m, -, -, -, rfl⟩ | ⟨h0, -, i, m, -, -, he⟩ := step_cases h
  · rfl
  · rfl
  · obtain ⟨f, m', rfl⟩ | hk := he.raises_or_keeps_FAULT
    · rfl
    · exact absurd (hk.trans h0) hf

/-- R101: an attempt in a status other than RUNNING leaves IP where it was. -/
theorem step_IP_of_not_running {s t : State} (h : step s = .next t) (hs : status s ≠ .running) :
    t.IP = s.IP := by
  by_cases hip : s.IP.toNat ≤ Config.ADDR_MAX
  · obtain ⟨m, hm⟩ := step_of_not_running hip hs
    rw [hm] at h
    cases h
    rfl
  · obtain ⟨-, rfl⟩ | ⟨-, f, m, -, -, -, rfl⟩ | ⟨-, hle, -⟩ := step_cases h
    · rfl
    · rfl
    · exact absurd hle hip

/-- The word that holds the legal address of a word is that word. -/
theorem ofNat_of_legalAddress {w : Word XLEN} {e : Nat} (h : legalAddress XLEN w.toInt = some e) :
    BitVec.ofNat XLEN e = w := by
  obtain ⟨rfl, -⟩ := legalAddress_toInt.mp h
  rw [BitVec.ofNat_toNat, BitVec.setWidth_eq]

/-- Settles O16: the no-step cases and the faults leave IP, and the effect of the instruction gives where
a completed one leaves it. -/
theorem stepWritesIPOnce : Obligations.StepWritesIPOnce := by
  intro s t hstep
  refine ⟨?_, fun i u hfetch hF => ?_⟩
  · rintro (h | h | h | hf)
    · exact step_IP_of_not_running hstep (not_running_of_outcome (.inl h))
    · exact step_IP_of_not_running hstep (not_running_of_outcome (.inr (.inl h)))
    · exact step_IP_of_not_running hstep (not_running_of_outcome (.inr (.inr h)))
    · exact step_IP_of_fault hstep hf
  · obtain ⟨-, -, m, -, rfl⟩ := fetch_run_state hfetch
    have heff := exec_effect (((step_of_fetch s).2.2 _ _ hfetch).symm.trans hstep)
    cases heff with
    | fault f m' => exact absurd hF f.code_ne_zero
    | halt => rfl
    | hold e hc hq => exact .inr ⟨hq, rfl⟩
    | input e x q hc he hi hq => exact .inl (toNat_ofNat_addr hi)
    | output v m' hm hv hi => exact toNat_ofNat_addr hi
    | rebase v m' hm hv hi => exact toNat_ofNat_addr hi
    | jump x y e m' hj hm hx hy hp he =>
      have ht := ofNat_of_legalAddress he
      cases hj with
      | jt => exact ⟨x, y, sourceValue_mlen hx, sourceValue_mlen hy, .inl ⟨of_decide_eq_true hp, ht⟩⟩
      | jf => exact ⟨x, y, sourceValue_mlen hx, sourceValue_mlen hy, .inl ⟨of_decide_eq_true hp, ht⟩⟩
    | fallThrough x y m' hj hm hx hy hp hi =>
      have ht := toNat_ofNat_addr hi
      cases hj with
      | jt =>
        exact ⟨x, y, sourceValue_mlen hx, sourceValue_mlen hy,
          .inr ⟨not_not.mp (of_decide_eq_false hp), ht⟩⟩
      | jf => exact ⟨x, y, sourceValue_mlen hx, sourceValue_mlen hy, .inr ⟨of_decide_eq_false hp, ht⟩⟩
    | store x y e m' hs hm hx hy he hi =>
      have ht := toNat_ofNat_addr hi
      cases hs with
      | add => exact ht
      | mul => exact ht
      | lt => exact ht
      | eq => exact ht

/-! ## The relative base (R15) -/

/-- R150: an instruction keeps RB, or is an ARB and adds its operand to RB with `wrap`. -/
theorem Effect.keeps_RB_or_rebases {i : Instr XLEN} {s t : State XLEN} (h : Effect i s t) :
    t.RB = s.RB ∨ ∃ a v, i = .arb a ∧ sourceValue a s = some v ∧ t.RB = wrap (s.RB.toInt + v.toInt) := by
  cases h with
  | rebase v m hm hv hi => exact .inr ⟨_, v, rfl, hv, rfl⟩
  | _ => exact .inl rfl

@[simp] theorem State.storeWords_RB (s : State XLEN) (a : Nat) (ws : List (Word XLEN)) :
    (s.storeWords a ws).RB = s.RB := by
  induction ws generalizing s a with
  | nil => rfl
  | cons w ws ih =>
    simp only [State.storeWords]
    split
    · rw [ih, State.store_RB]
    · rfl

/-- R27: RB is 0 after a reset with a program image. -/
theorem State.new_RB {P : List Int} {s : State XLEN} (h : State.new P = some s) : s.RB = 0#XLEN := by
  unfold State.new at h
  split at h
  · cases h
    rw [State.storeWords_RB]
    rfl
  · cases h

/-- R15: no host operation but reset and a step writes RB. -/
theorem hostDo_RB {op : HostOp XLEN} (s : State XLEN) (hr : noReset [op] = true) (hs : op ≠ .step) :
    (hostDo op s).2.RB = s.RB := by
  obtain h | ⟨a, x, n, -, -, -, h⟩ | ⟨q, o, m, -, h⟩ := hostDo_frame op s hr
  · exact absurd h hs
  · rw [h]
    rfl
  · rw [h]

/-- An answer with RB replaced in the next state. -/
def withRB (r : Word XLEN) :
    Host.Outcome (State XLEN) Fault Refusal → Host.Outcome (State XLEN) Fault Refusal
  | .next t => .next (t.setRB r)
  | .fault f => .fault f
  | .refused f => .refused f

@[simp] theorem withRB_next (r : Word XLEN) (t : State XLEN) : withRB r (.next t) = .next (t.setRB r) := rfl

section
variable (s : State XLEN) (r : Word XLEN)

theorem cellOf_setRB {o : Operand XLEN} (h : o.mode ≠ .relative) : cellOf o (s.setRB r) = cellOf o s := by
  have he : effectiveAddress o r = effectiveAddress o s.RB := by
    unfold effectiveAddress
    split
    · rfl
    · rfl
    · exact absurd ‹_› h
  rw [cellOf, cellOf, State.setRB_RB, he]

theorem sourceValue_setRB {o : Operand XLEN} (h : o.mode ≠ .relative) :
    sourceValue o (s.setRB r) = sourceValue o s := by
  simp [sourceValue, cellOf_setRB s r h]

theorem inputCell_setRB {d : Operand XLEN} (h : d.mode ≠ .relative) :
    inputCell d (s.setRB r) = inputCell d s := by
  rw [inputCell, inputCell, cellOf_setRB s r h, State.setRB_IP]

theorem touchSource_setRB {o : Operand XLEN} (h : o.mode ≠ .relative) :
    touchSource o (s.setRB r) = (touchSource o s).setRB r := by
  unfold touchSource
  rw [cellOf_setRB s r h]
  cases cellOf o s <;> rfl

/-- Retiring does not look at RB. -/
theorem retire_setRB (w : Nat) (before after : State XLEN) :
    retire w (before.setRB r) (after.setRB r) = withRB r (retire w before after) := by
  unfold retire
  rw [State.setRB_IP]
  split <;> rfl

theorem execThree_setRB (f : Word XLEN → Word XLEN → Word XLEN) {a b d : Operand XLEN}
    (h : ∀ o ∈ [a, b, d], o.mode ≠ .relative) :
    execThree f a b d (s.setRB r) = withRB r (execThree f a b d s) := by
  have ha : a.mode ≠ .relative := h a (by simp)
  have hb : b.mode ≠ .relative := h b (by simp)
  have hd : d.mode ≠ .relative := h d (by simp)
  unfold execThree
  rw [sourceValue_setRB s r ha, sourceValue_setRB s r hb, cellOf_setRB s r hd,
    touchSource_setRB s r ha, touchSource_setRB _ r hb]
  split
  · cases sourceValue a s with
    | none => rfl
    | some x =>
      cases sourceValue b s with
      | none => rfl
      | some y =>
        cases cellOf d s with
        | none => rfl
        | some e =>
          exact retire_setRB r 4 _ ((touchSource b (touchSource a s)).store e (f x y))
  · rfl

theorem execIn_setRB {d : Operand XLEN} (h : ∀ o ∈ [d], o.mode ≠ .relative) :
    execIn d (s.setRB r) = withRB r (execIn d s) := by
  unfold execIn
  rw [inputCell_setRB s r (h d (by simp)), State.setRB_INQ]
  cases inputCell d s with
  | error f => rfl
  | ok e =>
    cases s.INQ with
    | nil => rfl
    | cons x q => exact retire_setRB r 2 s ((s.setINQ q).store e x)

theorem execOut_setRB {a : Operand XLEN} (h : ∀ o ∈ [a], o.mode ≠ .relative) :
    execOut a (s.setRB r) = withRB r (execOut a s) := by
  have ha : a.mode ≠ .relative := h a (by simp)
  unfold execOut
  rw [sourceValue_setRB s r ha, touchSource_setRB s r ha]
  cases sourceValue a s with
  | none => rfl
  | some v => exact retire_setRB r 2 _ ((touchSource a s).pushOutput v)

theorem execJump_setRB (p : Word XLEN → Bool) {c g : Operand XLEN}
    (h : ∀ o ∈ [c, g], o.mode ≠ .relative) :
    execJump p c g (s.setRB r) = withRB r (execJump p c g s) := by
  have hc : c.mode ≠ .relative := h c (by simp)
  have hg : g.mode ≠ .relative := h g (by simp)
  unfold execJump
  rw [sourceValue_setRB s r hc, sourceValue_setRB s r hg, touchSource_setRB s r hc,
    touchSource_setRB _ r hg]
  cases sourceValue c s with
  | none => rfl
  | some x =>
    cases sourceValue g s with
    | none => rfl
    | some y =>
      dsimp only
      split
      · cases legalAddress XLEN y.toInt <;> rfl
      · exact retire_setRB r 3 _ _

/-- R15: an instruction other than ARB with no operand in mode 2 does not look at RB. -/
theorem execAt_setRB {i : Instr XLEN} (ho : ∀ o ∈ i.operands, o.mode ≠ .relative)
    (hi : ∀ a, i ≠ .arb a) : execAt i (s.setRB r) = withRB r (execAt i s) := by
  cases i with
  | add a b d => exact execThree_setRB s r addWords ho
  | mul a b d => exact execThree_setRB s r mulWords ho
  | lt a b d => exact execThree_setRB s r lessWord ho
  | eq a b d => exact execThree_setRB s r equalWord ho
  | inp d => exact execIn_setRB s r ho
  | out a => exact execOut_setRB s r ho
  | jt c g => exact execJump_setRB s r conditionTrue ho
  | jf c g => exact execJump_setRB s r conditionFalse ho
  | arb a => exact absurd rfl (hi a)
  | halt => rfl

end

/-- Settles O18, from the effect of a step, the frame of the host operations, and the instructions'
independence of RB. -/
theorem onlyArbWritesRB : Obligations.OnlyArbWritesRB := by
  refine ⟨fun s t h => ?_, fun op s => hostDo_RB s, fun P s => State.new_RB, ?_⟩
  · obtain ⟨-, rfl⟩ | ⟨-, f, m, -, -, -, rfl⟩ | ⟨-, -, i, m, -, hf, he⟩ := step_cases h
    · exact .inl rfl
    · exact .inl rfl
    · obtain hk | ⟨a, v, rfl, hv, ht⟩ := he.keeps_RB_or_rebases
      · exact .inl hk
      · exact .inr ⟨a, _, v, hf, sourceValue_mlen hv, ht⟩
  · intro i s t r ho hi h
    rw [exec_eq_execAt] at h ⊢
    exact (execAt_setRB s r ho hi).trans (congrArg (withRB r) h)

/-! ## The run status (R24) -/

/-- R102: a step that runs an IN decodes it from the word at IP, its operand from the cell after. -/
theorem fetch_inp_decodes {s t : State XLEN} {d : Operand XLEN} (h : fetch s = .run (.inp d) t) :
    ∃ hd, decodeWord (s.Mem.read s.IP.toNat) = .ok hd ∧ hd.op = .inp ∧
      d = ⟨hd.m1, s.Mem.read (s.IP.toNat + 1)⟩ := by
  obtain ⟨-, h'⟩ | ⟨-, -, h'⟩ | ⟨-, -, -, h'⟩ | ⟨-, -, -, h'⟩ := fetch_cases s
  · rw [h'] at h
    cases h
  · rw [h'] at h
    cases h
  · rw [h'] at h
    cases h
  · rw [h'] at h
    obtain ⟨_, -, hr⟩ | ⟨_, -, -, hr⟩ | ⟨hd, hdec, -, hr⟩ := fetchAt_cases s.IP.toNat s
    · rw [hr] at h
      cases h
    · rw [hr] at h
      cases h
    · rw [hr] at h
      injection h with hi
      exact ⟨hd, hdec, Head.instr_eq_inp hi⟩

/-- R102: a word at IP that decodes to an IN is run, if its cells are there. -/
theorem fetch_of_decodes_inp {s : State XLEN} {h : Head} (h0 : s.FAULT = 0#3)
    (hfit : s.IP.toNat + 1 ≤ Config.ADDR_MAX XLEN)
    (hdec : decodeWord (s.Mem.read s.IP.toNat) = .ok h) (ho : h.op = .inp) :
    halted s = false ∧
      fetch s = .run (.inp ⟨h.m1, s.Mem.read (s.IP.toNat + 1)⟩) (s.touch (s.IP.toNat + 1)) := by
  have hne : (s.Mem.read s.IP.toNat).toInt ≠ 99 := by
    intro h99
    rw [decodeWord_of_toInt_eq_99 h99] at hdec
    cases hdec
    cases ho
  refine ⟨Bool.eq_false_iff.mpr fun hh => hne (halted_iff.mp hh), ?_⟩
  obtain ⟨hf, -⟩ | ⟨-, hlt, -⟩ | ⟨-, -, h99, -⟩ | ⟨-, -, -, hfetch⟩ := fetch_cases s
  · exact absurd h0 hf
  · omega
  · exact absurd h99 hne
  · simp only [hfetch, fetchAt, hdec, ho, Opcode.operandCount, if_pos hfit, Head.instr_of_inp ho]

/-- R24, R111: WAITING, in terms of the word at IP. -/
theorem status_waiting_iff_decodes {s : State XLEN} :
    status s = .waiting ↔ s.FAULT = 0#3 ∧ s.INQ = [] ∧ s.IP.toNat + 2 ≤ Config.ADDR_MAX XLEN ∧
      ∃ h, decodeWord (s.Mem.read s.IP.toNat) = .ok h ∧ h.op = .inp ∧
        cellOf ⟨h.m1, s.Mem.read (s.IP.toNat + 1)⟩ s ≠ none := by
  rw [status_waiting_iff]
  constructor
  · rintro ⟨h0, -, hw⟩
    obtain ⟨hq, d, e, m, -, -, hf, hc⟩ := nextInput_some hw
    obtain ⟨h, hdec, ho, rfl⟩ := fetch_inp_decodes hf
    obtain ⟨-, he, hi⟩ := inputCell_ok.mp hc
    have hcell : cellOf ⟨h.m1, s.Mem.read (s.IP.toNat + 1)⟩ s = some e :=
      (cellOf_congr (s := s) (t := { s with MLEN := m }) _ rfl).symm.trans he
    exact ⟨h0, List.head?_eq_none_iff.mp hq.symm, hi, h, hdec, ho, by simp [hcell]⟩
  · rintro ⟨h0, hq, hi, h, hdec, ho, hcell⟩
    obtain ⟨hh, hf⟩ := fetch_of_decodes_inp h0 (by omega) hdec ho
    obtain ⟨e, he⟩ := Option.ne_none_iff_exists'.mp hcell
    have hm1 : h.m1 ≠ .immediate := decodeWord_destination (d := 1) hdec (by rw [ho]; rfl)
    have hc : inputCell ⟨h.m1, s.Mem.read (s.IP.toNat + 1)⟩ (s.touch (s.IP.toNat + 1)) = .ok e :=
      inputCell_ok.mpr ⟨writable_of_ne_immediate hm1, (cellOf_touch _ _ _).trans he, hi⟩
    exact ⟨h0, hh, by simp [nextInput, hf, inputOf, hc, hq]⟩

/-- R162: a poke of another word at IP leaves HALTED. -/
theorem status_poke_ne_halted {s t : State XLEN} {x : Word XLEN} (hwf : s.Mem.wf = true)
    (hp : s.poke s.IP.toNat x = some t) (hx : x.toInt ≠ 99) : status t ≠ .halted := by
  obtain ⟨-, hn⟩ | ⟨n, hn, -, hs⟩ := s.poke_cases s.IP.toNat x
  · rw [hn] at hp
    cases hp
  · obtain rfl : n = s.IP.toNat := Int.ofNat.inj hn
    rw [hs] at hp
    cases hp
    intro hh
    have hread := (status_halted_iff.mp hh).2
    rw [State.store_Mem, State.store_IP, Memory.read_write_same _ 0 _ _ hwf] at hread
    exact hx hread

/-- R24: a value that arrives in INQ takes the core from WAITING to RUNNING. -/
theorem status_pushInput_of_waiting {s : State XLEN} (x : Word XLEN) (h : status s = .waiting) :
    status (s.pushInput x) = .running := by
  obtain ⟨h0, hh, -⟩ := status_waiting_iff.mp h
  refine status_running_iff.mpr ⟨h0, hh, fun hw => ?_⟩
  obtain ⟨hnone, -⟩ := nextInput_some hw
  simp at hnone

/-- R209: no operation but reset touches a latched fault. -/
theorem hostDo_keeps_latch {s : State XLEN} (op : HostOp XLEN) (hf : s.FAULT ≠ 0#3)
    (hr : noReset [op] = true) :
    (hostDo op s).2.FAULT = s.FAULT ∧ (hostDo op s).2.FINFO = s.FINFO := by
  obtain rfl | ⟨a, x, n, -, -, -, h⟩ | ⟨q, o, m, -, h⟩ := hostDo_frame op s hr
  · have hidle : afterStep s = s :=
      afterStep_of_stepAt ((stepAt_of_fetch s).1 (fetch_of_faulted hf))
    exact ⟨congrArg State.FAULT hidle, congrArg State.FINFO hidle⟩
  · rw [h]
    exact ⟨rfl, rfl⟩
  · rw [h]
    exact ⟨rfl, rfl⟩

/-- R209: FAULTED is left by reset alone. -/
theorem status_faulted_kept {s : State XLEN} {c : BitVec 3} {k : BitVec 2} {op : HostOp XLEN}
    (h : status s = .faulted c k) (hr : noReset [op] = true) :
    status (hostDo op s).2 = .faulted c k := by
  obtain ⟨hf, rfl, rfl⟩ := status_faulted_iff.mp h
  obtain ⟨hF, hI⟩ := hostDo_keeps_latch op hf hr
  exact status_faulted_iff.mpr ⟨by rwa [hF], hF.symm, hI.symm⟩

/-- Settles O21, clause by clause from the lemmas about the status. -/
theorem statusFollowsItsPrecedence : Obligations.StatusFollowsItsPrecedence := by
  intro s hip
  exact ⟨fun _ _ => status_faulted_iff, status_halted_iff, status_waiting_iff_decodes,
    step_of_not_running hip, fun _ _ hwf _ => status_poke_ne_halted hwf,
    status_pushInput_of_waiting, fun _ _ _ => status_faulted_kept, rfl⟩

end Sys2Proof.Machine
end

section
/-! PROOFS of 20_memory.md: what an execution writes to the tape, operation by operation, and the
statement that every cell reads back what was written to it last (R43). -/

namespace Sys2Proof.Machine

variable {XLEN : Nat}

/-! ## Every step answers a next state -/

theorem retire_next (w : Nat) (before after : State XLEN) : ∃ t, retire w before after = .next t := by
  unfold retire
  split
  · exact ⟨_, rfl⟩
  · exact ⟨_, rfl⟩

theorem execThree_next (f : Word XLEN → Word XLEN → Word XLEN) (a b d : Operand XLEN) (s : State XLEN) :
    ∃ t, execThree f a b d s = .next t := by
  unfold execThree
  split
  · cases sourceValue a s with
    | none => exact ⟨_, rfl⟩
    | some x =>
      cases sourceValue b s with
      | none => exact ⟨_, rfl⟩
      | some y =>
        cases cellOf d s with
        | none => exact ⟨_, rfl⟩
        | some e => exact retire_next _ _ _
  · exact ⟨_, rfl⟩

theorem execIn_next (d : Operand XLEN) (s : State XLEN) : ∃ t, execIn d s = .next t := by
  unfold execIn
  cases inputCell d s with
  | error f => exact ⟨_, rfl⟩
  | ok e =>
    cases s.INQ with
    | nil => exact ⟨_, rfl⟩
    | cons x q => exact retire_next _ _ _

theorem execOut_next (a : Operand XLEN) (s : State XLEN) : ∃ t, execOut a s = .next t := by
  unfold execOut
  cases sourceValue a s with
  | none => exact ⟨_, rfl⟩
  | some v => exact retire_next _ _ _

theorem execArb_next (a : Operand XLEN) (s : State XLEN) : ∃ t, execArb a s = .next t := by
  unfold execArb
  cases sourceValue a s with
  | none => exact ⟨_, rfl⟩
  | some v => exact retire_next _ _ _

theorem execJump_next (p : Word XLEN → Bool) (c g : Operand XLEN) (s : State XLEN) :
    ∃ t, execJump p c g s = .next t := by
  unfold execJump
  cases sourceValue c s with
  | none => exact ⟨_, rfl⟩
  | some x =>
    cases sourceValue g s with
    | none => exact ⟨_, rfl⟩
    | some y =>
      dsimp only
      split
      · cases legalAddress XLEN y.toInt with
        | none => exact ⟨_, rfl⟩
        | some e => exact ⟨_, rfl⟩
      · exact retire_next _ _ _

/-- No instruction answers one of the host's faults or refusals. -/
theorem execAt_next (i : Instr XLEN) (s : State XLEN) : ∃ t, execAt i s = .next t := by
  cases i with
  | add a b d => exact execThree_next addWords a b d s
  | mul a b d => exact execThree_next mulWords a b d s
  | lt a b d => exact execThree_next lessWord a b d s
  | eq a b d => exact execThree_next equalWord a b d s
  | inp d => exact execIn_next d s
  | out a => exact execOut_next a s
  | jt c g => exact execJump_next conditionTrue c g s
  | jf c g => exact execJump_next conditionFalse c g s
  | arb a => exact execArb_next a s
  | halt => exact ⟨s, rfl⟩

/-- An attempt at a step always answers a next state. -/
theorem stepAt_next (s : State XLEN) : ∃ t, stepAt s = .next t := by
  obtain ⟨hidle, hraises, hrun⟩ := stepAt_of_fetch s
  cases hf : fetch s with
  | idle => exact ⟨s, hidle hf⟩
  | raises f u => exact ⟨_, hraises f u hf⟩
  | run i u =>
    obtain ⟨t, ht⟩ := execAt_next i u
    exact ⟨t, (hrun i u hf).trans ht⟩

/-! ## What an instruction stores -/

theorem equalWord_eq_ite (x y : Word XLEN) : equalWord x y = if x = y then 1 else 0 := by
  simp only [equalWord, BitVec.toInt_inj]
  rfl

/-- R120 to R123: a three-operand instruction stores the function of its source values. -/
theorem Stores.storeOf_eq {i : Instr XLEN} {f : Word XLEN → Word XLEN → Word XLEN}
    {a b d : Operand XLEN} {s : State XLEN} {x y : Word XLEN} {e : Nat} (h : Stores i f a b d)
    (hx : sourceValue a s = some x) (hy : sourceValue b s = some y) (he : cellOf d s = some e) :
    storeOf i s = some (e, f x y) := by
  cases h with
  | add => simp [storeOf, hx, hy, he, addWords]
  | mul => simp [storeOf, hx, hy, he, mulWords]
  | lt => simp [storeOf, hx, hy, he, lessWord]
  | eq => simp [storeOf, hx, hy, he, equalWord_eq_ite]

/-- R130: IN stores the head of INQ. -/
theorem storeOf_inp {d : Operand XLEN} {s : State XLEN} {e : Nat} (he : cellOf d s = some e) :
    storeOf (.inp d) s = s.INQ.head?.map fun x => (e, x) := by
  cases hq : s.INQ.head? <;> simp [storeOf, he, hq]

/-- R111: with INQ empty IN stores nothing. -/
theorem storeOf_inp_empty {d : Operand XLEN} {s : State XLEN} (hq : s.INQ = []) :
    storeOf (.inp d) s = none := by
  cases hc : cellOf d s <;> simp [storeOf, hc, hq]

/-- R140, R141: a jump stores nothing. -/
theorem Jumps.storeOf_eq_none {i : Instr XLEN} {p : Word XLEN → Bool} {c g : Operand XLEN}
    (h : Jumps i p c g) (s : State XLEN) : storeOf i s = none := by
  cases h with
  | jt => rfl
  | jf => rfl

/-- What an instruction stores does not depend on the hidden length. -/
theorem storeOf_mlen (i : Instr XLEN) (s : State XLEN) (m : Nat) :
    storeOf i { s with MLEN := m } = storeOf i s := by
  cases i <;> rfl

/-! ## The tape after one write, or none -/

/-- `m'` is the tape `m` after the write `w`, if there is one; a write is to a legal address. -/
def AfterWrite (m : Memory XLEN) (w : Option (Nat × Word XLEN)) (m' : Memory XLEN) : Prop :=
  (w = none ∧ m' = m) ∨
    ∃ b x, b ≤ Config.ADDR_MAX XLEN ∧ w = some (b, x) ∧ m' = m.write b x

theorem AfterWrite.of_none {m m' : Memory XLEN} {w : Option (Nat × Word XLEN)} (hw : w = none)
    (hm : m' = m) : AfterWrite m w m' := .inl ⟨hw, hm⟩

theorem AfterWrite.of_some {m m' : Memory XLEN} {w : Option (Nat × Word XLEN)} {b : Nat} {x : Word XLEN}
    (hb : b ≤ Config.ADDR_MAX XLEN) (hw : w = some (b, x)) (hm : m' = m.write b x) : AfterWrite m w m' :=
  .inr ⟨b, x, hb, hw, hm⟩

/-- One write or none keeps the canonical form. -/
theorem AfterWrite.wf {m m' : Memory XLEN} {w : Option (Nat × Word XLEN)} (h : AfterWrite m w m')
    (hm : m.wf = true) : m'.wf = true := by
  obtain ⟨-, rfl⟩ | ⟨b, x, hb, -, rfl⟩ := h
  · exact hm
  · exact Memory.wf_write x hm hb

/-- R43: a cell reads as just written, or as before. -/
theorem Memory.read_write {m : Memory XLEN} (hm : m.wf = true) (a b : Nat) (x : Word XLEN) :
    (m.write b x).read a = if b = a then x else m.read a := by
  split
  · rename_i h
    subst h
    exact Memory.read_write_same m 0 b x hm
  · exact Memory.read_write_other m x (Ne.symm ‹_›)

/-- An instruction raises a fault, or keeps the latch and makes the write `storeOf` gives, if any. -/
theorem Effect.raises_or_stores {i : Instr XLEN} {s t : State XLEN} (h : Effect i s t) :
    (∃ f m, t = ({ s with MLEN := m } : State XLEN).raise f) ∨
    (t.FAULT = s.FAULT ∧ AfterWrite s.Mem (storeOf i s) t.Mem) := by
  cases h with
  | fault f m => exact .inl ⟨f, m, rfl⟩
  | halt => exact .inr ⟨rfl, .of_none rfl rfl⟩
  | hold e hc hq => exact .inr ⟨rfl, .of_none (storeOf_inp_empty hq) rfl⟩
  | input e x q hc he hi hq =>
    exact .inr ⟨rfl, .of_some (cellOf_le he) (by rw [storeOf_inp he, hq]; rfl) rfl⟩
  | output => exact .inr ⟨rfl, .of_none rfl rfl⟩
  | rebase => exact .inr ⟨rfl, .of_none rfl rfl⟩
  | jump x y e m hj => exact .inr ⟨rfl, .of_none (hj.storeOf_eq_none s) rfl⟩
  | fallThrough x y m hj => exact .inr ⟨rfl, .of_none (hj.storeOf_eq_none s) rfl⟩
  | store x y e m hs hm hx hy he hi =>
    exact .inr ⟨rfl, .of_some (cellOf_le he) (hs.storeOf_eq hx hy he) rfl⟩

/-! ## What a step writes -/

/-- An attempt whose outcome is not `retired` writes nothing. -/
theorem writeOf_step_of_not_retired {s : State XLEN} (ho : outcome s ≠ .retired) :
    writeOf .step s = none := by
  simp only [writeOf]
  split
  · exact absurd ‹_› ho
  · rfl

/-- R101, R207: a step that leaves FAULT latched writes nothing. -/
theorem writeOf_step_of_fault {s : State XLEN} (h : (afterStep s).FAULT ≠ 0#3) :
    writeOf .step s = none := by
  refine writeOf_step_of_not_retired fun ho => ?_
  obtain ⟨-, h'⟩ | ⟨-, -, h'⟩ | ⟨-, -, -, h'⟩ | ⟨-, -, -, h'⟩ | ⟨-, -, h0, -⟩ | ⟨-, -, h0, -⟩ :=
    outcome_cases s
  · simp [ho] at h'
  · simp [ho] at h'
  · simp [ho] at h'
  · simp [ho] at h'
  · exact h h0
  · exact h h0

/-- R112: an attempt that raises no fault and is not `retired` (HALT, a hold, an OUT) runs an instruction
that stores nothing. -/
theorem storeOf_eq_none_of_not_retired {s u : State XLEN} {i : Instr XLEN} (hf : fetch s = .run i u)
    (h0 : (afterStep s).FAULT = 0#3) (ho : outcome s ≠ .retired) : storeOf i s = none := by
  obtain ⟨hF, hip, -⟩ := fetch_run_state hf
  obtain ⟨hn, -⟩ | ⟨-, hh, -⟩ | ⟨-, -, hw, -⟩ | ⟨-, -, hn, -⟩ | ⟨-, -, -, v, hv, -⟩ |
    ⟨-, -, -, -, h'⟩ := outcome_cases s
  · exact absurd hF hn
  · obtain ⟨hn, -⟩ | ⟨-, hlt, -⟩ | ⟨-, -, -, h'⟩ | ⟨-, -, hne, -⟩ := fetch_cases s
    · exact absurd hF hn
    · exact absurd hip (Nat.not_le.mpr hlt)
    · rw [h'] at hf
      cases hf
      rfl
    · exact absurd (halted_iff.mp hh) hne
  · obtain ⟨hq, d, e, m, -, -, h', -⟩ := nextInput_some hw
    rw [h'] at hf
    cases hf
    exact storeOf_inp_empty (List.head?_eq_none_iff.mp hq.symm)
  · exact absurd h0 hn
  · obtain ⟨a, m, -, -, h', -⟩ := nextOutput_some hv
    rw [h'] at hf
    cases hf
    rfl
  · exact absurd h' ho

/-- A step that runs an instruction and raises no fault writes what the instruction stores. -/
theorem writeOf_step_of_run {s u : State XLEN} {i : Instr XLEN} (hf : fetch s = .run i u)
    (h0 : (afterStep s).FAULT = 0#3) : writeOf .step s = storeOf i s := by
  by_cases ho : outcome s = .retired
  · simp [writeOf, ho, hf]
  · rw [storeOf_eq_none_of_not_retired hf h0 ho, writeOf_step_of_not_retired ho]

/-- The tape after an attempt at a step is the tape before it with the write of the step. -/
theorem afterStep_afterWrite (s : State XLEN) :
    AfterWrite s.Mem (writeOf .step s) (afterStep s).Mem := by
  obtain ⟨t, ht⟩ := stepAt_next s
  obtain rfl := afterStep_of_stepAt ht
  obtain ⟨hF, heq⟩ | ⟨-, f, m, -, -, -, heq⟩ | ⟨hF, -, i, m, -, hf, heff⟩ := stepAt_cases ht
  · exact .of_none (writeOf_step_of_fault (by rwa [heq])) (by rw [heq])
  · exact .of_none (writeOf_step_of_fault (by rw [heq]; exact f.code_ne_zero)) (by rw [heq]; rfl)
  · obtain ⟨f, m', heq⟩ | ⟨hk, hw⟩ := heff.raises_or_stores
    · exact .of_none (writeOf_step_of_fault (by rw [heq]; exact f.code_ne_zero)) (by rw [heq]; rfl)
    · rw [writeOf_step_of_run hf (hk.trans hF), ← storeOf_mlen i s m]
      exact hw

/-! ## What an execution writes -/

/-- R172 to R179: the tape after an operation other than reset is the tape before it with the write of the
operation. -/
theorem hostDo_afterWrite (op : HostOp XLEN) (s : State XLEN) (hr : noReset [op] = true) :
    AfterWrite s.Mem (writeOf op s) (hostDo op s).2.Mem := by
  cases op with
  | new P => cases hr
  | step => exact afterStep_afterWrite s
  | poke a x =>
    obtain ⟨hl, hp⟩ | ⟨n, hn, hle, hp⟩ := s.poke_cases a x
    · exact .of_none (by simp [writeOf, hl]) (by simp [hostDo, hp])
    · have hl : legalAddress XLEN a = some n := legalAddress_eq_some.mpr ⟨hn, hle⟩
      exact .of_some (x := x) hle (by simp [writeOf, hl]) (by simp [hostDo, hp])
  | peek a =>
    obtain ⟨-, hp⟩ | ⟨n, -, -, hp⟩ := s.peek_cases a
    · exact .of_none rfl (by simp [hostDo, hp])
    · exact .of_none rfl (by simp [hostDo, hp])
  | popOutput => cases hq : s.OUTQ <;> exact .of_none rfl (by simp [hostDo, State.popOutput, hq])
  | view => exact .of_none rfl rfl
  | pushInput x => exact .of_none rfl rfl
  | drainOutputs => exact .of_none rfl rfl
  | clearInput => exact .of_none rfl rfl
  | isHalted => exact .of_none rfl rfl

theorem noReset_cons {op : HostOp XLEN} {ops : List (HostOp XLEN)} :
    noReset (op :: ops) = true ↔ noReset [op] = true ∧ noReset ops = true := by
  cases op <;> simp [noReset]

/-- The latest write of an execution is that of its first operation until a later one writes the cell. -/
theorem lastWrite_cons_of_afterWrite {op : HostOp XLEN} {s : State XLEN} {m' : Memory XLEN}
    (hm : s.Mem.wf = true) (h : AfterWrite s.Mem (writeOf op s) m') (a : Nat) (ops : List (HostOp XLEN)) :
    lastWrite a (s.Mem.read a) (op :: ops) s = lastWrite a (m'.read a) ops (hostDo op s).2 := by
  obtain ⟨hw, rfl⟩ | ⟨b, x, -, hw, rfl⟩ := h
  · simp only [lastWrite, hw]
  · simp only [lastWrite, hw, Memory.read_write hm]

/-- R43: after an execution without a reset a cell reads as last written, or as before the execution. -/
theorem hostRun_read {ops : List (HostOp XLEN)} {s : State XLEN} (hm : s.Mem.wf = true)
    (hr : noReset ops = true) (a : Nat) :
    (hostRun ops s).2.Mem.read a = lastWrite a (s.Mem.read a) ops s := by
  induction ops generalizing s with
  | nil => rfl
  | cons op ops ih =>
    obtain ⟨hop, hops⟩ := noReset_cons.mp hr
    have hw := hostDo_afterWrite op s hop
    rw [lastWrite_cons_of_afterWrite hm hw]
    exact ih (hw.wf hm) hops

/-! ## The program image -/

/-- R171: what `new` gives for a program image. -/
theorem State.new_eq_some {P : List Int} {s : State XLEN} (h : State.new P = some s) :
    P.length ≤ Config.ADDR_MAX XLEN + 1 ∧
      s = (State.resetAt XLEN).storeWords 0 (P.map (BitVec.ofInt XLEN)) := by
  unfold State.new at h
  split at h
  · rename_i hok
    simp only [imageOk, Bool.and_eq_true, decide_eq_true_eq] at hok
    cases h
    exact ⟨hok.2, rfl⟩
  · cases h

/-- Words stored at consecutive addresses, all of them legal, read back; every other cell is as before. -/
theorem State.storeWords_read {s : State XLEN} {a : Nat} {ws : List (Word XLEN)} (hm : s.Mem.wf = true)
    (hfit : a + ws.length ≤ Config.ADDR_MAX XLEN + 1) (b : Nat) :
    (s.storeWords a ws).Mem.read b =
      if a ≤ b then ws.getD (b - a) (s.Mem.read b) else s.Mem.read b := by
  induction ws generalizing s a with
  | nil => simp [State.storeWords]
  | cons w ws ih =>
    rw [List.length_cons] at hfit
    have ha : a ≤ Config.ADDR_MAX XLEN := by omega
    rw [State.storeWords, if_pos ha, ih (State.store_wf w hm ha) (by omega), State.store_Mem,
      Memory.read_write hm]
    obtain hlt | rfl | hgt := Nat.lt_trichotomy a b
    · obtain ⟨n, rfl⟩ : ∃ n, b = a + 1 + n := ⟨b - (a + 1), by omega⟩
      rw [if_pos (by omega), if_neg (by omega), if_pos (by omega), Nat.add_sub_cancel_left,
        show a + 1 + n - a = n + 1 by omega, List.getD_cons_succ]
    · simp
    · rw [if_neg (by omega), if_neg (by omega), if_neg (by omega)]

/-- R43, R171: after `new P` the tape is canonical and each cell reads as the image loaded it, or as 0
above the image. -/
theorem State.new_mem {P : List Int} {s : State XLEN} (h : State.new P = some s) :
    s.Mem.wf = true ∧ ∀ a, s.Mem.read a = BitVec.ofInt XLEN (P.getD a 0) := by
  obtain ⟨hlen, rfl⟩ := State.new_eq_some h
  refine ⟨State.storeWords_wf _ rfl, fun a => ?_⟩
  have hz : (State.resetAt XLEN).Mem.read a = BitVec.ofInt XLEN 0 := by simp [State.resetAt]
  rw [State.storeWords_read rfl (by simpa using hlen), if_pos (Nat.zero_le a), Nat.sub_zero, hz]
  exact List.getD_map P 0 _

/-- Settles O26: every operation makes the one write `writeOf` gives it, from the tape the image loads; the
two primitives from the laws of the tape. -/
theorem tapeReadsBackWhatWasWritten : Obligations.TapeReadsBackWhatWasWritten := by
  refine ⟨fun P s ops a hs hr => ?_, fun s a b v hm ha => ?_⟩
  · obtain ⟨hm, hread⟩ := State.new_mem hs
    rw [hostRun_read hm hr, hread]
  · exact ⟨Memory.read_write_same s.Mem 0 a v hm, Memory.read_write_other s.Mem v, rfl, rfl, rfl⟩

end Sys2Proof.Machine
end

section
/-! PROOFS of 30_encoding.md: what a word decodes to, by its opcode field and its examined digits, then
the statements about the decoder's faults (R78 to R80), the unexamined digits (R81) and the canonical
words (R83). -/

namespace Sys2Proof

open Sys2Proof.Machine

variable {XLEN : Nat}

/-! ## Decimal digits -/

/-- A digit below weight `10^j` is a digit of the remainder by `10^j`. -/
theorem dig_mod {k j : Nat} (h : k < j) (n : Nat) : dig k (n % 10 ^ j) = dig k n := by
  have hdvd : 10 ^ k * 10 ∣ 10 ^ j := Nat.pow_dvd_pow 10 h
  calc dig k (n % 10 ^ j)
      = n % 10 ^ j % (10 ^ k * 10) / 10 ^ k := (Nat.mod_mul_right_div_self _ _ _).symm
    _ = n % (10 ^ k * 10) / 10 ^ k := by rw [Nat.mod_mod_of_dvd n hdvd]
    _ = dig k n := Nat.mod_mul_right_div_self _ _ _

/-- A number has no digit of a weight above it. -/
theorem dig_eq_zero {k n : Nat} (h : n < 10 ^ k) : dig k n = 0 := by
  rw [dig, Nat.div_eq_of_lt h, Nat.zero_mod]

/-! ## Opcodes and modes -/

/-- R74: the opcode field names an opcode by its code, HALT excepted. -/
theorem opcodeOfField_eq_some {f : Nat} {op : Opcode} :
    opcodeOfField f = some op ↔ f = op.code ∧ op ≠ .halt := by
  constructor
  · intro h
    unfold opcodeOfField at h
    split at h <;> cases h <;> exact ⟨rfl, Opcode.noConfusion⟩
  · rintro ⟨rfl, hne⟩
    cases op with
    | halt => exact absurd rfl hne
    | _ => rfl

/-- R78: the opcode fields that name no opcode. -/
theorem opcodeOfField_eq_none {f : Nat} : opcodeOfField f = none ↔ f = 0 ∨ 10 ≤ f := by
  constructor
  · intro h
    by_contra hf
    have hlow : 1 ≤ f := by omega
    have hhigh : f ≤ 9 := by omega
    interval_cases f <;> cases h
  · rintro (rfl | h)
    · rfl
    · obtain ⟨g, rfl⟩ := Nat.exists_eq_add_of_le' h
      rfl

theorem Opcode.destination_le {op : Opcode} {d : Nat} (h : op.destination? = some d) :
    1 ≤ d ∧ d ≤ op.operandCount := by
  cases op <;> cases h <;> decide

theorem modeOfDigit_eq_none {x : Nat} : modeOfDigit x = none ↔ 3 ≤ x := by
  constructor
  · intro h
    by_contra hx
    have hhigh : x ≤ 2 := by omega
    interval_cases x <;> cases h
  · intro h
    obtain ⟨y, rfl⟩ := Nat.exists_eq_add_of_le' h
    rfl

theorem modeOfDigit_eq_some {x : Nat} {m : Mode} (h : modeOfDigit x = some m) : x = m.digit := by
  unfold modeOfDigit at h
  split at h <;> cases h <;> rfl

theorem Mode.digit_le (m : Mode) : m.digit ≤ 2 := by cases m <;> decide

theorem Mode.digit_eq_one {m : Mode} : m.digit = 1 ↔ m = .immediate := by cases m <;> decide

/-! ## The mode digits of a word -/

/-- R79: `k` is the lowest operand of `op` whose mode digit in `n` names no mode. -/
def FirstBadMode (op : Opcode) (n k : Nat) : Prop :=
  1 ≤ k ∧ k ≤ op.operandCount ∧ 3 ≤ dig (k + 1) n ∧ ∀ j, 1 ≤ j → j < k → dig (j + 1) n ≤ 2

/-- R79: the mode digit of every operand of `op` in `n` names a mode. -/
def ModesLegal (op : Opcode) (n : Nat) : Prop :=
  ∀ j, 1 ≤ j → j ≤ op.operandCount → dig (j + 1) n ≤ 2

/-- R80: the mode digit of the destination of `op`, if it has one, is not that of mode 1. -/
def DestinationLegal (op : Opcode) (n : Nat) : Prop :=
  ∀ d, op.destination? = some d → dig (d + 1) n ≠ 1

theorem FirstBadMode.unique {op : Opcode} {n k l : Nat} (hk : FirstBadMode op n k)
    (hl : FirstBadMode op n l) : k = l := by
  obtain ⟨hk1, -, hk3, hklow⟩ := hk
  obtain ⟨hl1, -, hl3, hllow⟩ := hl
  obtain hlt | heq | hgt := Nat.lt_trichotomy k l
  · have := hllow k hk1 hlt
    omega
  · exact heq
  · have := hklow l hl1 hgt
    omega

theorem FirstBadMode.not_modesLegal {op : Opcode} {n k : Nat} (hk : FirstBadMode op n k) :
    ¬ ModesLegal op n := by
  obtain ⟨hk1, hkn, hk3, -⟩ := hk
  intro hm
  have := hm k hk1 hkn
  omega

theorem operandMode_eq_none {op : Opcode} {i n : Nat} (h : operandMode op i n = none) :
    i ≤ op.operandCount ∧ 3 ≤ dig (i + 1) n := by
  unfold operandMode at h
  split at h
  · exact ⟨‹_›, modeOfDigit_eq_none.mp h⟩
  · cases h

theorem operandMode_eq_some {op : Opcode} {i n : Nat} {m : Mode} (h : operandMode op i n = some m)
    (hi : i ≤ op.operandCount) : dig (i + 1) n = m.digit := by
  rw [operandMode, if_pos hi] at h
  exact modeOfDigit_eq_some h

theorem operandMode_digit_le {op : Opcode} {i n : Nat} {m : Mode} (h : operandMode op i n = some m)
    (hi : i ≤ op.operandCount) : dig (i + 1) n ≤ 2 :=
  operandMode_eq_some h hi ▸ m.digit_le

/-- R81: the mode of an operand is read from the examined digits. -/
theorem operandMode_mod (op : Opcode) (i n : Nat) :
    operandMode op i (n % 10 ^ (op.operandCount + 2)) = operandMode op i n := by
  unfold operandMode
  split
  · rw [dig_mod (by omega)]
  · rfl

/-! ## What the tests of the decoder come to -/

/-- R80: everything the destination test can do. -/
theorem checkDestination_cases (h : Head) :
    (∃ d, h.op.destination? = some d ∧ h.mode d = .immediate ∧
      checkDestination h = .error (.invalidDestination d)) ∨
    ((∀ d, h.op.destination? = some d → h.mode d ≠ .immediate) ∧ checkDestination h = .ok h) := by
  unfold checkDestination
  cases h.op.destination? with
  | none => exact .inr ⟨nofun, rfl⟩
  | some d =>
    by_cases hm : h.mode d = .immediate
    · exact .inl ⟨d, rfl, hm, if_pos hm⟩
    · exact .inr ⟨fun d' h' => by cases h'; exact hm, if_neg hm⟩

/-- R84: the mode tests stop at the lowest bad operand, or leave the head the digits name to the
destination test. -/
theorem decodeModes_checks (op : Opcode) (n : Nat) :
    (∃ k, FirstBadMode op n k ∧ decodeModes op n = .error (.invalidMode k)) ∨
    ∃ h : Head, h.op = op ∧ (∀ i, 1 ≤ i → i ≤ op.operandCount → dig (i + 1) n = (h.mode i).digit) ∧
      decodeModes op n = checkDestination h := by
  have hcount : op.operandCount ≤ 3 := by cases op <;> decide
  unfold decodeModes
  cases h1 : operandMode op 1 n with
  | none =>
    obtain ⟨hle, hbad⟩ := operandMode_eq_none h1
    exact .inl ⟨1, ⟨Nat.le_refl 1, hle, hbad, fun j _ _ => by omega⟩, rfl⟩
  | some m1 =>
    cases h2 : operandMode op 2 n with
    | none =>
      obtain ⟨hle, hbad⟩ := operandMode_eq_none h2
      refine .inl ⟨2, ⟨by omega, hle, hbad, fun j hj hlt => ?_⟩, rfl⟩
      obtain rfl : j = 1 := by omega
      exact operandMode_digit_le h1 (by omega)
    | some m2 =>
      cases h3 : operandMode op 3 n with
      | none =>
        obtain ⟨hle, hbad⟩ := operandMode_eq_none h3
        refine .inl ⟨3, ⟨by omega, hle, hbad, fun j hj hlt => ?_⟩, rfl⟩
        obtain rfl | rfl : j = 1 ∨ j = 2 := by omega
        · exact operandMode_digit_le h1 (by omega)
        · exact operandMode_digit_le h2 (by omega)
      | some m3 =>
        refine .inr ⟨⟨op, m1, m2, m3⟩, rfl, fun i hi hle => ?_, rfl⟩
        obtain rfl | rfl | rfl : i = 1 ∨ i = 2 ∨ i = 3 := by omega
        · exact operandMode_eq_some h1 hle
        · exact operandMode_eq_some h2 hle
        · exact operandMode_eq_some h3 hle

/-- R79, R80, R84: everything the mode tests and the destination test can do. -/
theorem decodeModes_cases (op : Opcode) (n : Nat) :
    (∃ k, FirstBadMode op n k ∧ decodeModes op n = .error (.invalidMode k)) ∨
    (ModesLegal op n ∧ ∃ d, op.destination? = some d ∧ dig (d + 1) n = 1 ∧
      decodeModes op n = .error (.invalidDestination d)) ∨
    (ModesLegal op n ∧ DestinationLegal op n ∧ ∃ h : Head, h.op = op ∧ decodeModes op n = .ok h) := by
  obtain hbad | ⟨h, rfl, hdig, heq⟩ := decodeModes_checks op n
  · exact .inl hbad
  · have hlegal : ModesLegal h.op n := fun j hj hle => hdig j hj hle ▸ (h.mode j).digit_le
    have hdst : ∀ d, h.op.destination? = some d → (dig (d + 1) n = 1 ↔ h.mode d = .immediate) := by
      intro d hd
      obtain ⟨hd1, hdn⟩ := Opcode.destination_le hd
      rw [hdig d hd1 hdn, Mode.digit_eq_one]
    obtain ⟨d, hd, hm, hc⟩ | ⟨hm, hc⟩ := checkDestination_cases h
    · exact .inr (.inl ⟨hlegal, d, hd, (hdst d hd).mpr hm, heq.trans hc⟩)
    · exact .inr (.inr ⟨hlegal, fun d hd => mt (hdst d hd).mp (hm d hd), h, rfl, heq.trans hc⟩)

theorem decodeModes_eq_invalidMode {op : Opcode} {n k : Nat} :
    decodeModes op n = .error (.invalidMode k) ↔ FirstBadMode op n k := by
  obtain ⟨l, hl, heq⟩ | ⟨hlegal, d, -, -, heq⟩ | ⟨hlegal, -, h, -, heq⟩ := decodeModes_cases op n
  · rw [heq]
    constructor
    · rintro ⟨⟩
      exact hl
    · intro hk
      rw [hk.unique hl]
  all_goals
    rw [heq]
    exact ⟨nofun, fun hk => absurd hlegal hk.not_modesLegal⟩

theorem decodeModes_eq_invalidDestination {op : Opcode} {n k : Nat} :
    decodeModes op n = .error (.invalidDestination k) ↔
      op.destination? = some k ∧ dig (k + 1) n = 1 ∧ ModesLegal op n := by
  obtain ⟨l, hl, heq⟩ | ⟨hlegal, d, hd, hone, heq⟩ | ⟨-, hdst, h, -, heq⟩ := decodeModes_cases op n
  · rw [heq]
    exact ⟨nofun, fun ⟨_, _, hm⟩ => absurd hm hl.not_modesLegal⟩
  · rw [heq]
    constructor
    · rintro ⟨⟩
      exact ⟨hd, hone, hlegal⟩
    · rintro ⟨hk, -⟩
      rw [Option.some.inj (hd.symm.trans hk)]
  · rw [heq]
    exact ⟨nofun, fun ⟨hk, hone, _⟩ => absurd hone (hdst k hk)⟩

theorem decodeModes_eq_ok {op op' : Opcode} {n : Nat} :
    (∃ h, decodeModes op n = .ok h ∧ h.op = op') ↔
      op = op' ∧ ModesLegal op n ∧ DestinationLegal op n := by
  obtain ⟨l, hl, heq⟩ | ⟨-, d, hd, hone, heq⟩ | ⟨hlegal, hdst, h, rfl, heq⟩ := decodeModes_cases op n
  · rw [heq]
    exact ⟨nofun, fun ⟨_, hm, _⟩ => absurd hm hl.not_modesLegal⟩
  · rw [heq]
    exact ⟨nofun, fun ⟨_, _, hdst⟩ => absurd hone (hdst d hd)⟩
  · rw [heq]
    constructor
    · rintro ⟨_, ⟨⟩, rfl⟩
      exact ⟨rfl, hlegal, hdst⟩
    · rintro ⟨rfl, -⟩
      exact ⟨h, rfl, rfl⟩

/-- R81: the mode tests look at the examined digits alone. -/
theorem decodeModes_mod (op : Opcode) (n : Nat) :
    decodeModes op (n % 10 ^ (op.operandCount + 2)) = decodeModes op n := by
  simp only [decodeModes, operandMode_mod]

/-! ## What a word decodes to -/

/-- R71, R78, R84: everything the decoder can do with a word, by the halt word, the sign and the opcode
field. -/
theorem decodeWord_cases (W : Word XLEN) :
    (W.toInt = 99 ∧ decodeWord W = .ok ⟨.halt, .position, .position, .position⟩) ∨
    (W.toInt ≠ 99 ∧ (W.toInt < 0 ∨ opcodeOfField (W.toNat % 100) = none) ∧
      decodeWord W = .error .invalidOpcode) ∨
    (0 ≤ W.toInt ∧ ∃ op, opcodeOfField (W.toNat % 100) = some op ∧
      decodeWord W = decodeModes op W.toNat) := by
  unfold decodeWord
  split
  · exact .inl ⟨‹_›, rfl⟩
  · rename_i h99
    split
    · exact .inr (.inl ⟨h99, .inl ‹_›, rfl⟩)
    · rename_i hneg
      cases hop : opcodeOfField (W.toNat % 100) with
      | none => exact .inr (.inl ⟨h99, .inr rfl, rfl⟩)
      | some op => exact .inr (.inr ⟨Int.not_lt.mp hneg, op, rfl, rfl⟩)

/-- R77: the whole word 99 names no opcode through its field. -/
theorem toInt_ne_99_of_field {W : Word XLEN} {op : Opcode}
    (hop : opcodeOfField (W.toNat % 100) = some op) : W.toInt ≠ 99 := by
  intro h99
  have hnat : W.toNat % 100 = 99 := by
    have := toInt_cases (w := W)
    omega
  rw [hnat] at hop
  cases hop

/-- R84: a word that is not negative and whose field names an opcode is decoded by its mode digits. -/
theorem decodeWord_of_field {W : Word XLEN} {op : Opcode} (h0 : 0 ≤ W.toInt)
    (hop : opcodeOfField (W.toNat % 100) = some op) : decodeWord W = decodeModes op W.toNat := by
  obtain ⟨h99, -⟩ | ⟨-, hneg | hnone, -⟩ | ⟨-, op', hop', heq⟩ := decodeWord_cases W
  · exact absurd h99 (toInt_ne_99_of_field hop)
  · omega
  · rw [hop] at hnone
    cases hnone
  · obtain rfl : op = op' := Option.some.inj (hop.symm.trans hop')
    exact heq

/-- R78: which words are refused as `InvalidOpcode`, by the sign and the opcode field. -/
theorem decodeWord_eq_invalidOpcode {W : Word XLEN} :
    decodeWord W = .error .invalidOpcode ↔
      W.toInt ≠ 99 ∧ (W.toInt < 0 ∨ opcodeOfField (W.toNat % 100) = none) := by
  obtain ⟨h99, heq⟩ | ⟨h99, hbad, heq⟩ | ⟨h0, op, hop, heq⟩ := decodeWord_cases W
  · simp [heq, h99]
  · simp [heq, h99, hbad]
  · have hne : decodeModes op W.toNat ≠ .error .invalidOpcode := by
      obtain ⟨k, -, h⟩ | ⟨-, d, -, -, h⟩ | ⟨-, -, h', -, h⟩ := decodeModes_cases op W.toNat <;> simp [h]
    simp [heq, hne, hop, h0]

/-- R79, R80: the other faults of the decoder are those of the mode digits. -/
theorem decodeWord_eq_error {W : Word XLEN} {f : DecodeFault} (hf : f ≠ .invalidOpcode) :
    decodeWord W = .error f ↔
      0 ≤ W.toInt ∧ ∃ op, opcodeOfField (W.toNat % 100) = some op ∧
        decodeModes op W.toNat = .error f := by
  constructor
  · intro h
    obtain ⟨-, heq⟩ | ⟨-, -, heq⟩ | ⟨h0, op, hop, heq⟩ := decodeWord_cases W
    · rw [heq] at h
      cases h
    · rw [heq] at h
      cases h
      exact absurd rfl hf
    · exact ⟨h0, op, hop, heq.symm.trans h⟩
  · rintro ⟨h0, op, hop, heq⟩
    exact (decodeWord_of_field h0 hop).trans heq

/-- R77, R84: which words decode to opcode `op`. -/
theorem decodeWord_eq_ok {W : Word XLEN} {op : Opcode} :
    (∃ h, decodeWord W = .ok h ∧ h.op = op) ↔
      (W.toInt = 99 ∧ op = .halt) ∨
      (0 ≤ W.toInt ∧ opcodeOfField (W.toNat % 100) = some op ∧ ModesLegal op W.toNat ∧
        DestinationLegal op W.toNat) := by
  constructor
  · rintro ⟨h, hW, rfl⟩
    obtain ⟨h99, heq⟩ | ⟨-, -, heq⟩ | ⟨h0, op, hop, heq⟩ := decodeWord_cases W
    · rw [heq] at hW
      cases hW
      exact .inl ⟨h99, rfl⟩
    · rw [heq] at hW
      cases hW
    · obtain ⟨rfl, hlegal, hdst⟩ := decodeModes_eq_ok.mp ⟨h, heq.symm.trans hW, rfl⟩
      exact .inr ⟨h0, hop, hlegal, hdst⟩
  · rintro (⟨h99, rfl⟩ | ⟨h0, hop, hlegal, hdst⟩)
    · exact ⟨_, decodeWord_of_toInt_eq_99 h99, rfl⟩
    · rw [decodeWord_of_field h0 hop]
      exact decodeModes_eq_ok.mpr ⟨rfl, hlegal, hdst⟩

/-! ## Canonical words (R83) -/

/-- R85: the number of opcode `op` and mode digits `a`, `b`, `c`. -/
def headNumber (op : Opcode) (a b c : Nat) : Nat := op.code + 100 * a + 1000 * b + 10000 * c

/-- R71: a number of five digits is its opcode field and its three mode digits. -/
theorem eq_headNumber {op : Opcode} {n : Nat} (hlt : n < 100000) (hcode : n % 100 = op.code) :
    n = headNumber op (dig 2 n) (dig 3 n) (dig 4 n) := by
  simp only [headNumber, dig]
  omega

theorem lt_100000_of_lt {op : Opcode} {n : Nat} (h : n < 10 ^ (op.operandCount + 2)) : n < 100000 :=
  Nat.lt_of_lt_of_le h (by cases op <;> decide)

/-- With the unexamined digits 0, all three mode digits are 0 to 2. -/
theorem ModesLegal.digit_lt {op : Opcode} {n j : Nat} (h : ModesLegal op n)
    (hlt : n < 10 ^ (op.operandCount + 2)) (hj : 1 ≤ j) : dig (j + 1) n < 3 := by
  by_cases hle : j ≤ op.operandCount
  · exact Nat.lt_succ_of_le (h j hj hle)
  · have : n < 10 ^ (j + 1) := Nat.lt_of_lt_of_le hlt (Nat.pow_le_pow_right (by decide) (by omega))
    rw [dig_eq_zero this]
    decide

/-- The conditions of R83 hold of every listed word. -/
theorem legal_of_mem_canonicalWords (op : Opcode) :
    ∀ n ∈ canonicalWords op, n < 10 ^ (op.operandCount + 2) ∧ n % 100 = op.code ∧
      (∀ j, 1 ≤ j → j ≤ op.operandCount → dig (j + 1) n ≤ 2) ∧
      ∀ d ∈ op.destination?, dig (d + 1) n ≠ 1 := by
  cases op <;> decide

/-- The list of an opcode holds every combination of mode digits it allows. -/
theorem headNumber_mem_canonicalWords (op : Opcode) :
    ∀ a b c : Fin 3, headNumber op a b c < 10 ^ (op.operandCount + 2) →
      (∀ d ∈ op.destination?, dig (d + 1) (headNumber op a b c) ≠ 1) →
      headNumber op a b c ∈ canonicalWords op := by
  cases op <;> decide

/-- R83: the list of an opcode, by the opcode field and the examined digits. -/
theorem mem_canonicalWords {op : Opcode} {n : Nat} :
    n ∈ canonicalWords op ↔ n < 10 ^ (op.operandCount + 2) ∧ n % 100 = op.code ∧ ModesLegal op n ∧
      DestinationLegal op n := by
  constructor
  · exact legal_of_mem_canonicalWords op n
  · rintro ⟨hlt, hcode, hlegal, hdst⟩
    have hmem := headNumber_mem_canonicalWords op ⟨dig 2 n, hlegal.digit_lt hlt (j := 1) (by decide)⟩
      ⟨dig 3 n, hlegal.digit_lt hlt (j := 2) (by decide)⟩
      ⟨dig 4 n, hlegal.digit_lt hlt (j := 3) (by decide)⟩
    rw [← eq_headNumber (lt_100000_of_lt hlt) hcode] at hmem
    exact hmem hlt hdst

/-- R78, R83: which words with no unexamined digits decode to opcode `op`, HALT included. -/
theorem decodeWord_eq_ok_of_lt {W : Word} {op : Opcode} (hlt : W.toNat < 10 ^ (op.operandCount + 2)) :
    (∃ h, decodeWord W = .ok h ∧ h.op = op) ↔
      W.toNat % 100 = op.code ∧ ModesLegal op W.toNat ∧ DestinationLegal op W.toNat := by
  have hn : W.toInt = W.toNat := by
    have hmax : 100000 ≤ Config.ADDR_MAX := by decide
    have hsmall := lt_100000_of_lt hlt
    have := toInt_cases (w := W)
    omega
  rw [decodeWord_eq_ok, opcodeOfField_eq_some]
  by_cases hop : op = .halt
  · subst hop
    have hlegal : ModesLegal .halt W.toNat := fun j hj hle => absurd (hj.trans hle) (by decide)
    have hdst : DestinationLegal .halt W.toNat := nofun
    have h99 : W.toInt = 99 ↔ W.toNat % 100 = Opcode.halt.code := by
      simp only [Opcode.operandCount, Opcode.code] at hlt ⊢
      omega
    simp [h99, hlegal, hdst]
  · simp [hop, hn]

end Sys2Proof

namespace Sys2Proof.Machine

variable {XLEN : Nat}

/-! ## The step that fetches a refused word -/

/-- R102, R207: a core that fetches a word the decoder refuses latches the fault. -/
theorem step_of_decode_error {s : State} {f : DecodeFault} (h0 : s.FAULT = 0#3)
    (hip : s.IP.toNat ≤ Config.ADDR_MAX) (hdec : decodeWord (s.Mem.read s.IP.toNat) = .error f) :
    step s = .next ((s.touch s.IP.toNat).raise (.ofDecode f)) := by
  refine (step_of_fetch s).2.1 _ _ ?_
  obtain ⟨hf, -⟩ | ⟨-, hlt, -⟩ | ⟨-, -, h99, -⟩ | ⟨-, -, -, hfetch⟩ := fetch_cases s
  · exact absurd h0 hf
  · exact absurd hip (Nat.not_le.mpr hlt)
  · rw [decodeWord_of_toInt_eq_99 h99] at hdec
    cases hdec
  · rw [hfetch, fetchAt, hdec]

/-- R207: what that step leaves, as the statements name it. -/
theorem stepRaises_of_decode_error {s : State} {f : DecodeFault} (h0 : s.FAULT = 0#3)
    (hip : s.IP.toNat ≤ Config.ADDR_MAX) (hdec : decodeWord (s.Mem.read s.IP.toNat) = .error f) :
    stepRaises s (Fault.ofDecode f).code (Fault.ofDecode f).info :=
  ⟨_, step_of_decode_error h0 hip hdec⟩

/-- R101, R209: attempts on a faulted core change nothing. -/
theorem stepsFrom_of_faulted {s : State XLEN} (hf : s.FAULT ≠ 0#3) (k : Nat) : stepsFrom k s = s := by
  induction k with
  | zero => rfl
  | succ k ih =>
    rw [stepsFrom_succ, afterStep_of_stepAt ((stepAt_of_fetch s).1 (fetch_of_faulted hf)), ih]

/-- R209: a step that raises a fault is the last that changes anything. -/
theorem stepsFrom_of_stepRaises {s : State} {c : BitVec 3} {i : BitVec 2} (h : stepRaises s c i)
    (hc : c ≠ 0#3) (k : Nat) : stepsFrom (k + 1) s = afterStep s := by
  obtain ⟨m, hm⟩ := h
  rw [stepsFrom_succ, afterStep_eq hm]
  exact stepsFrom_of_faulted hc k

/-! ## The statements -/

/-- Settles O4: a word is refused by its sign or its opcode field, and the latched core takes no further
step. -/
theorem illegalOpcodeRaisesInvalidOpcode : Obligations.IllegalOpcodeRaisesInvalidOpcode := by
  refine ⟨fun W => ?_, fun s h0 hip hdec => ?_⟩
  · rw [decodeWord_eq_invalidOpcode, opcodeOfField_eq_none]
    have := toInt_cases (w := W)
    omega
  · have hraises : stepRaises s 1#3 0#2 := stepRaises_of_decode_error h0 hip hdec
    exact ⟨hraises, stepsFrom_of_stepRaises hraises (by decide)⟩

/-- Settles O5: the mode tests stop at the lowest bad operand. -/
theorem illegalModeDigitRaisesInvalidMode : Obligations.IllegalModeDigitRaisesInvalidMode := by
  refine ⟨fun W k => ?_, fun s k => stepRaises_of_decode_error⟩
  rw [decodeWord_eq_error DecodeFault.noConfusion]
  simp only [decodeModes_eq_invalidMode, FirstBadMode]

/-- Settles O6: the destination test comes after the mode tests. -/
theorem immediateDestinationRaisesInvalidDestination :
    Obligations.ImmediateDestinationRaisesInvalidDestination := by
  refine ⟨fun W k => ?_, fun s k => stepRaises_of_decode_error⟩
  rw [decodeWord_eq_error DecodeFault.noConfusion]
  simp only [decodeModes_eq_invalidDestination, ModesLegal]

/-- Settles O7: the field and the mode tests depend on the examined digits alone; field 99 names no
opcode, and a word with a higher digit is not the whole word 99. -/
theorem unexaminedDigitsAreIgnored : Obligations.UnexaminedDigitsAreIgnored := by
  refine ⟨fun W V op hW hV hop hmod => ?_, fun W hfield hhigh => ?_⟩
  · have hdvd : 100 ∣ 10 ^ (op.operandCount + 2) := ⟨10 ^ op.operandCount, by rw [Nat.pow_add]; omega⟩
    have hfield : W.toNat % 100 = V.toNat % 100 := by
      rw [← Nat.mod_mod_of_dvd W.toNat hdvd, hmod, Nat.mod_mod_of_dvd _ hdvd]
    rw [decodeWord_of_field hW hop, decodeWord_of_field hV (hfield ▸ hop), ← decodeModes_mod, hmod,
      decodeModes_mod]
  · refine decodeWord_eq_invalidOpcode.mpr ⟨fun h99 => ?_, .inr (opcodeOfField_eq_none.mpr (by omega))⟩
    have := toInt_cases (w := W)
    omega

/-- Settles O8: with no unexamined digits a word is its opcode field and its mode digits, and the list of
an opcode holds the combinations the decoder accepts. -/
theorem canonicalWordsAreNinetyNine : Obligations.CanonicalWordsAreNinetyNine := by
  refine ⟨fun op W => ?_, fun op => ?_, by decide, rfl⟩
  · rw [mem_canonicalWords]
    constructor
    · rintro ⟨h, hW, ho, hlt⟩
      exact ⟨hlt, (decodeWord_eq_ok_of_lt hlt).mp ⟨h, hW, ho⟩⟩
    · rintro ⟨hlt, hlegal⟩
      obtain ⟨h, hW, ho⟩ := (decodeWord_eq_ok_of_lt hlt).mpr hlegal
      exact ⟨h, hW, ho, hlt⟩
  · cases op <;> decide

end Sys2Proof.Machine
end

section
/-! PROOFS of 40_execution_cycle.md: the step as a function of the fields R113 lists, then the no-step
cases of R101 and the outcomes of R112. -/

namespace Sys2Proof.Machine

variable {XLEN : Nat}

/-! ## Two states that agree on what a step reads (R113) -/

/-- R113: the two states agree on Mem, IP, RB, FAULT and the head of INQ. -/
structure Agree (s s' : State XLEN) : Prop where
  mem   : s.Mem = s'.Mem
  ip    : s.IP = s'.IP
  rb    : s.RB = s'.RB
  fault : s.FAULT = s'.FAULT
  head  : s.INQ.head? = s'.INQ.head?

/-- R113: a step from `s` to `t` and one from `s'` to `t'` leave the same Mem, IP, RB and FAULT, the same
FINFO if they raise a fault, take the same words from INQ and append the same words to OUTQ. -/
def SameChange (s t s' t' : State XLEN) : Prop :=
  t.Mem = t'.Mem ∧ t.IP = t'.IP ∧ t.RB = t'.RB ∧ t.FAULT = t'.FAULT ∧
    (s.FAULT = 0#3 → t.FAULT ≠ 0#3 → t.FINFO = t'.FINFO) ∧
    (∃ p, s.INQ = p ++ t.INQ ∧ s'.INQ = p ++ t'.INQ) ∧
    (∃ o, t.OUTQ = s.OUTQ ++ o ∧ t'.OUTQ = s'.OUTQ ++ o)

/-- Both answers are next states, which change `s` and `s'` alike. -/
def SameAnswer (s s' : State XLEN) (x x' : Host.Outcome (State XLEN) Fault Refusal) : Prop :=
  ∃ t t', x = .next t ∧ x' = .next t' ∧ SameChange s t s' t'

section
variable {s s' : State XLEN} (h : Agree s s')
include h

theorem Agree.mlen (m m' : Nat) :
    Agree ({ s with MLEN := m } : State XLEN) { s' with MLEN := m' } :=
  ⟨h.mem, h.ip, h.rb, h.fault, h.head⟩

theorem Agree.cellOf_eq (o : Operand XLEN) : cellOf o s' = cellOf o s := cellOf_congr o h.rb.symm

theorem Agree.sourceValue_eq (o : Operand XLEN) : sourceValue o s' = sourceValue o s :=
  sourceValue_congr o h.rb.symm h.mem.symm

theorem Agree.inputCell_eq (d : Operand XLEN) : inputCell d s' = inputCell d s := by
  rw [inputCell, inputCell, h.cellOf_eq d, h.ip]

theorem Agree.halted_eq : halted s' = halted s := by rw [halted, halted, h.mem, h.ip]

/-- Input is absent in both states, or its oldest word is the same. -/
theorem Agree.INQ_cases :
    (s.INQ = [] ∧ s'.INQ = []) ∨ ∃ x q q', s.INQ = x :: q ∧ s'.INQ = x :: q' := by
  have hhead := h.head
  cases hq : s.INQ with
  | nil =>
    rw [hq] at hhead
    exact .inl ⟨rfl, List.head?_eq_none_iff.mp hhead.symm⟩
  | cons x q =>
    rw [hq] at hhead
    obtain ⟨q', hq'⟩ := List.head?_eq_some_iff.mp hhead.symm
    exact .inr ⟨x, q, q', rfl, hq'⟩

/-- The second state is the first with another FINFO, INQ, OUTQ and hidden length. -/
theorem Agree.exists_eq :
    ∃ k q o m, s' = { s with FINFO := k, INQ := q, OUTQ := o, MLEN := m } :=
  ⟨s'.FINFO, s'.INQ, s'.OUTQ, s'.MLEN, by rw [h.mem, h.ip, h.rb, h.fault]⟩

/-! ## The instructions -/

/-- No step: nothing changes on either side. -/
theorem Agree.sameChange_self : SameChange s s s' s' :=
  ⟨h.mem, h.ip, h.rb, h.fault, fun h0 hF => absurd h0 hF, ⟨[], rfl, rfl⟩,
    ⟨[], (List.append_nil _).symm, (List.append_nil _).symm⟩⟩

theorem Agree.sameAnswer_self : SameAnswer s s' (.next s) (.next s') :=
  ⟨s, s', rfl, rfl, h.sameChange_self⟩

/-- R207: the same fault, raised before anything but the hidden length has changed. -/
theorem Agree.sameAnswer_raise (f : Fault) (m m' : Nat) :
    SameAnswer s s' (.next (({ s with MLEN := m } : State XLEN).raise f))
      (.next (({ s' with MLEN := m' } : State XLEN).raise f)) :=
  ⟨_, _, rfl, rfl, h.mem, h.ip, h.rb, rfl, fun _ _ => rfl, ⟨[], rfl, rfl⟩,
    ⟨[], (List.append_nil _).symm, (List.append_nil _).symm⟩⟩

/-- R108: both successors lie in the address space, or neither does. -/
theorem Agree.sameAnswer_retire {after after' : State XLEN} (w m m' : Nat)
    (hc : ∀ n, SameChange s (after.setIP n) s' (after'.setIP n)) :
    SameAnswer s s' (retire w { s with MLEN := m } after) (retire w { s' with MLEN := m' } after') := by
  by_cases hfit : s.IP.toNat + w ≤ Config.ADDR_MAX XLEN
  · have hfit' : s'.IP.toNat + w ≤ Config.ADDR_MAX XLEN := h.ip ▸ hfit
    have hsame := hc (s.IP.toNat + w)
    exact ⟨_, _, retire_fits after hfit, retire_fits after' hfit', h.ip ▸ hsame⟩
  · have habove : Config.ADDR_MAX XLEN < s.IP.toNat + w := Nat.not_le.mp hfit
    have habove' : Config.ADDR_MAX XLEN < s'.IP.toNat + w := h.ip ▸ habove
    rw [retire_above (before := { s with MLEN := m }) after habove,
      retire_above (before := { s' with MLEN := m' }) after' habove']
    exact h.sameAnswer_raise _ m m'

theorem Agree.execThree_same (f : Word XLEN → Word XLEN → Word XLEN) (a b d : Operand XLEN) :
    SameAnswer s s' (execThree f a b d s) (execThree f a b d s') := by
  obtain ⟨m, hm, -⟩ := touchSource_two a b s
  obtain ⟨m', hm', -⟩ := touchSource_two a b s'
  unfold execThree
  rw [h.sourceValue_eq a, h.sourceValue_eq b, h.cellOf_eq d, hm, hm']
  split
  · cases sourceValue a s with
    | none => exact h.sameAnswer_raise _ s.MLEN s'.MLEN
    | some x =>
      cases sourceValue b s with
      | none => exact h.sameAnswer_raise _ s.MLEN s'.MLEN
      | some y =>
        cases cellOf d s with
        | none => exact h.sameAnswer_raise _ s.MLEN s'.MLEN
        | some e =>
          refine h.sameAnswer_retire 4 m m' fun n => ?_
          obtain ⟨-, -, hrest⟩ := h.sameChange_self
          exact ⟨congrArg (Memory.write · e (f x y)) h.mem, rfl, hrest⟩
  · exact h.sameAnswer_raise _ s.MLEN s'.MLEN

theorem Agree.execIn_same (d : Operand XLEN) : SameAnswer s s' (execIn d s) (execIn d s') := by
  unfold execIn
  rw [h.inputCell_eq d]
  cases inputCell d s with
  | error f => exact h.sameAnswer_raise f s.MLEN s'.MLEN
  | ok e =>
    obtain ⟨hq, hq'⟩ | ⟨x, q, q', hq, hq'⟩ := h.INQ_cases
    · rw [hq, hq']
      exact h.sameAnswer_self
    · rw [hq, hq']
      refine h.sameAnswer_retire 2 s.MLEN s'.MLEN fun n => ?_
      obtain ⟨-, -, hrb, hfault, hinfo, -, hsent⟩ := h.sameChange_self
      exact ⟨congrArg (Memory.write · e x) h.mem, rfl, hrb, hfault, hinfo, ⟨[x], hq, hq'⟩, hsent⟩

theorem Agree.execOut_same (a : Operand XLEN) : SameAnswer s s' (execOut a s) (execOut a s') := by
  obtain ⟨m, hm, -⟩ := touchSource_grown a s
  obtain ⟨m', hm', -⟩ := touchSource_grown a s'
  unfold execOut
  rw [h.sourceValue_eq a, hm, hm']
  cases sourceValue a s with
  | none => exact h.sameAnswer_raise _ s.MLEN s'.MLEN
  | some v =>
    refine h.sameAnswer_retire 2 m m' fun n => ?_
    obtain ⟨hmem, -, hrb, hfault, hinfo, htaken, -⟩ := h.sameChange_self
    exact ⟨hmem, rfl, hrb, hfault, hinfo, htaken, ⟨[v], rfl, rfl⟩⟩

theorem Agree.execArb_same (a : Operand XLEN) : SameAnswer s s' (execArb a s) (execArb a s') := by
  obtain ⟨m, hm, -⟩ := touchSource_grown a s
  obtain ⟨m', hm', -⟩ := touchSource_grown a s'
  unfold execArb
  rw [h.sourceValue_eq a, hm, hm']
  cases sourceValue a s with
  | none => exact h.sameAnswer_raise _ s.MLEN s'.MLEN
  | some v =>
    refine h.sameAnswer_retire 2 m m' fun n => ?_
    obtain ⟨hmem, -, -, hrest⟩ := h.sameChange_self
    exact ⟨hmem, rfl, congrArg (addWords · v) h.rb, hrest⟩

theorem Agree.execJump_same (p : Word XLEN → Bool) (c g : Operand XLEN) :
    SameAnswer s s' (execJump p c g s) (execJump p c g s') := by
  obtain ⟨m, hm, -⟩ := touchSource_two c g s
  obtain ⟨m', hm', -⟩ := touchSource_two c g s'
  have hjump : ∀ n, SameChange s (({ s with MLEN := m } : State XLEN).setIP n) s'
      (({ s' with MLEN := m' } : State XLEN).setIP n) := by
    intro n
    obtain ⟨hmem, -, hrest⟩ := h.sameChange_self
    exact ⟨hmem, rfl, hrest⟩
  unfold execJump
  rw [h.sourceValue_eq c, h.sourceValue_eq g, hm, hm']
  cases sourceValue c s with
  | none => exact h.sameAnswer_raise _ s.MLEN s'.MLEN
  | some x =>
    cases sourceValue g s with
    | none => exact h.sameAnswer_raise _ s.MLEN s'.MLEN
    | some y =>
      dsimp only
      split
      · cases legalAddress XLEN y.toInt with
        | none => exact h.sameAnswer_raise _ m m'
        | some e => exact ⟨_, _, rfl, rfl, hjump e⟩
      · exact h.sameAnswer_retire 3 m m' hjump

theorem Agree.execAt_same (i : Instr XLEN) : SameAnswer s s' (execAt i s) (execAt i s') := by
  cases i with
  | add a b d => exact h.execThree_same addWords a b d
  | mul a b d => exact h.execThree_same mulWords a b d
  | lt a b d => exact h.execThree_same lessWord a b d
  | eq a b d => exact h.execThree_same equalWord a b d
  | inp d => exact h.execIn_same d
  | out a => exact h.execOut_same a
  | jt c g => exact h.execJump_same conditionTrue c g
  | jf c g => exact h.execJump_same conditionFalse c g
  | arb a => exact h.execArb_same a
  | halt => exact h.sameAnswer_self

/-! ## The fetch and the step -/

/-- R100, stages 0 to 3: the fetch comes to the same in both states. -/
theorem Agree.fetch_same :
    (fetch s = .idle ∧ fetch s' = .idle) ∨
    (∃ f m m', fetch s = .raises f { s with MLEN := m } ∧ fetch s' = .raises f { s' with MLEN := m' }) ∨
    (∃ i m m', fetch s = .run i { s with MLEN := m } ∧ fetch s' = .run i { s' with MLEN := m' }) := by
  obtain ⟨k, q, o, n, rfl⟩ := h.exists_eq
  unfold fetch
  split
  · cases legalAddress XLEN s.IP.toInt with
    | none => exact .inr (.inl ⟨_, s.MLEN, n, rfl, rfl⟩)
    | some ip =>
      dsimp only
      split
      · exact .inr (.inr ⟨_, s.MLEN, n, rfl, rfl⟩)
      · unfold fetchAt
        cases decodeWord (s.Mem.read ip) with
        | error f => exact .inr (.inl ⟨_, _, _, rfl, rfl⟩)
        | ok hd =>
          dsimp only
          split
          · exact .inr (.inr ⟨_, _, _, rfl, rfl⟩)
          · exact .inr (.inl ⟨_, _, _, rfl, rfl⟩)
  · exact .inl ⟨rfl, rfl⟩

/-- R113: the step makes the same change to both states. -/
theorem Agree.stepAt_same : SameAnswer s s' (stepAt s) (stepAt s') := by
  obtain ⟨hidle, hraises, hrun⟩ := stepAt_of_fetch s
  obtain ⟨hidle', hraises', hrun'⟩ := stepAt_of_fetch s'
  obtain ⟨hf, hf'⟩ | ⟨f, m, m', hf, hf'⟩ | ⟨i, m, m', hf, hf'⟩ := h.fetch_same
  · rw [hidle hf, hidle' hf']
    exact h.sameAnswer_self
  · rw [hraises _ _ hf, hraises' _ _ hf']
    exact h.sameAnswer_raise f m m'
  · rw [hrun _ _ hf, hrun' _ _ hf']
    exact (h.mlen m m').execAt_same i

/-! ## The outcome -/

theorem Agree.inputOf_eq (i : Instr XLEN) : inputOf i s' = inputOf i s := by
  cases i with
  | inp d => simp only [inputOf, h.inputCell_eq d, h.head]
  | _ => rfl

theorem Agree.outputOf_eq (i : Instr XLEN) : outputOf i s' = outputOf i s := by
  cases i with
  | out a => simp only [outputOf, h.sourceValue_eq a, h.ip]
  | _ => rfl

theorem Agree.nextInput_eq : nextInput s' = nextInput s := by
  obtain ⟨hf, hf'⟩ | ⟨f, m, m', hf, hf'⟩ | ⟨i, m, m', hf, hf'⟩ := h.fetch_same
  · simp only [nextInput, hf, hf']
  · simp only [nextInput, hf, hf']
  · simp only [nextInput, hf, hf', (h.mlen m m').inputOf_eq i]

theorem Agree.nextOutput_eq : nextOutput s' = nextOutput s := by
  obtain ⟨hf, hf'⟩ | ⟨f, m, m', hf, hf'⟩ | ⟨i, m, m', hf, hf'⟩ := h.fetch_same
  · simp only [nextOutput, hf, hf']
  · simp only [nextOutput, hf, hf']
  · simp only [nextOutput, hf, hf', (h.mlen m m').outputOf_eq i]

end

/-- R112 in the order of its tests, the status of R24 among them. -/
theorem outcome_eq (s : State XLEN) :
    outcome s =
      if s.FAULT ≠ 0#3 then .faulted
      else if halted s then .halted
      else if nextInput s = some none then .blocked
      else if (afterStep s).FAULT ≠ 0#3 then .fault (afterStep s).FAULT (afterStep s).FINFO
      else (nextOutput s).elim .retired .retiredOutput := by
  obtain ⟨hf, ho⟩ | ⟨hf, hh, ho⟩ | ⟨hf, hh, hw, ho⟩ | ⟨hs, hf, ha, ho⟩ | ⟨hs, hf, ha, v, hv, ho⟩ |
    ⟨hs, hf, ha, hv, ho⟩ := outcome_cases s
  · simp [ho, hf]
  · simp [ho, hf, hh]
  · simp [ho, hf, hh, hw]
  all_goals obtain ⟨-, hh, hw⟩ := status_running_iff.mp hs
  · simp [ho, hf, hh, hw, ha]
  · simp [ho, hf, hh, hw, ha, hv]
  · simp [ho, hf, hh, hw, ha, hv]

/-- R113: the outcome is the same in both states. -/
theorem Agree.outcome_same {s s' : State XLEN} (h : Agree s s') : outcome s = outcome s' := by
  obtain ⟨t, t', ht, ht', -, -, -, hF, hinfo, -⟩ := h.stepAt_same
  rw [outcome_eq s, outcome_eq s', h.halted_eq, h.nextInput_eq, h.nextOutput_eq, ← h.fault,
    afterStep_of_stepAt ht, afterStep_of_stepAt ht', ← hF]
  by_cases h0 : s.FAULT = 0#3
  · by_cases ht0 : t.FAULT = 0#3
    · simp [ht0]
    · rw [hinfo h0 ht0]
  · simp [h0]

/-- Settles O20: the fetch, the instruction and the outcome look at nothing but what R113 lists. -/
theorem stepReadsOnlyWhatR113Lists : Obligations.StepReadsOnlyWhatR113Lists := by
  intro s s' t t' hmem hip hrb hfault hhead ht ht'
  have h : Agree s s' := ⟨hmem, hip, hrb, hfault, hhead⟩
  obtain ⟨u, u', hu, hu', hsame⟩ := h.stepAt_same
  rw [stepAt_eq_step, ht] at hu
  rw [stepAt_eq_step, ht'] at hu'
  cases hu
  cases hu'
  exact ⟨h.outcome_same, hsame⟩

/-! ## Attempts that take no step (R101) -/

/-- R101, R160: at a 99 the fetch gives HALT, and nothing is touched. -/
theorem fetch_of_halted {s : State XLEN} (h0 : s.FAULT = 0#3) (hip : s.IP.toNat ≤ Config.ADDR_MAX XLEN)
    (h99 : (s.Mem.read s.IP.toNat).toInt = 99) : fetch s = .run .halt s := by
  obtain ⟨hf, -⟩ | ⟨-, hlt, -⟩ | ⟨-, -, -, h⟩ | ⟨-, -, hne, -⟩ := fetch_cases s
  · exact absurd h0 hf
  · exact absurd hip (Nat.not_le.mpr hlt)
  · exact h
  · exact absurd h99 hne

/-- An attempt that changes nothing changes nothing however often it is made. -/
theorem stepsFrom_of_afterStep_eq {s : State XLEN} (h : afterStep s = s) (k : Nat) :
    stepsFrom k s = s := by
  induction k with
  | zero => rfl
  | succ k ih => rw [stepsFrom_succ, h, ih]

theorem outcome_of_faulted {s : State XLEN} (hf : s.FAULT ≠ 0#3) : outcome s = .faulted := by
  simp [outcome_eq, hf]

theorem outcome_of_status_halted {s : State XLEN} (hs : status s = .halted) : outcome s = .halted := by
  simp [outcome, hs]

theorem outcome_of_status_waiting {s : State XLEN} (hs : status s = .waiting) : outcome s = .blocked := by
  simp [outcome, hs]

/-- Settles O12: FAULT stops the fetch, a 99 at IP runs HALT, and a waiting core has a legal IP and an IN
that holds. -/
theorem noStepWhenFaultedHaltedOrHeld : Obligations.NoStepWhenFaultedHaltedOrHeld := by
  refine ⟨fun s hf => ?_, fun s h0 hip h99 => ?_, fun s hs => ?_⟩
  · exact ⟨outcome_of_faulted hf, stepsFrom_of_faulted hf⟩
  · have hstep : step s = .next s := (step_of_fetch s).2.2 _ _ (fetch_of_halted h0 hip h99)
    exact ⟨outcome_of_status_halted (status_halted_iff.mpr ⟨h0, h99⟩),
      stepsFrom_of_afterStep_eq (afterStep_eq hstep)⟩
  · obtain ⟨-, -, hip, -⟩ := status_waiting_iff_decodes.mp hs
    exact ⟨outcome_of_status_waiting hs, step_of_not_running (by omega) (by simp [hs])⟩

/-! ## The state change of each outcome (R112) -/

/-- A head that gives HALT is of opcode HALT. -/
theorem Head.op_of_instr_eq_halt {h : Head} {r : Nat → Word XLEN} (hi : h.instr r = .halt) :
    h.op = .halt := by
  unfold Head.instr at hi
  split at hi <;> cases hi
  assumption

/-- R78, R160: only the whole word 99 is fetched as HALT. -/
theorem halted_of_fetch_halt {s u : State XLEN} (h : fetch s = .run .halt u) : halted s = true := by
  refine halted_iff.mpr ?_
  obtain ⟨-, h'⟩ | ⟨-, -, h'⟩ | ⟨-, -, h99, -⟩ | ⟨-, -, -, h'⟩ := fetch_cases s
  · rw [h'] at h
    cases h
  · rw [h'] at h
    cases h
  · exact h99
  · rw [h'] at h
    obtain ⟨_, -, hr⟩ | ⟨_, -, -, hr⟩ | ⟨hd, hdec, -, hr⟩ := fetchAt_cases s.IP.toNat s
    · rw [hr] at h
      cases h
    · rw [hr] at h
      cases h
    · rw [hr] at h
      injection h with hi
      obtain ⟨h99, -⟩ | ⟨-, hop, -⟩ := decodeWord_eq_ok.mp ⟨hd, hdec, Head.op_of_instr_eq_halt hi⟩
      · exact h99
      · exact absurd rfl (opcodeOfField_eq_some.mp hop).2

/-- R20, R131: an instruction that raises no fault appends to OUTQ its output, if it has one. -/
theorem Effect.appends_outputOf {i : Instr XLEN} {s t : State XLEN} (h : Effect i s t)
    (hF : t.FAULT = 0#3) : t.OUTQ = s.OUTQ ++ (outputOf i s).toList := by
  cases h with
  | fault f => exact absurd hF f.code_ne_zero
  | output v m hm hv hi => simp [outputOf, hi, hv]
  | jump x y e m hj => cases hj <;> simp [outputOf]
  | fallThrough x y m hj => cases hj <;> simp [outputOf]
  | store x y e m hs => cases hs <;> simp [outputOf]
  | _ => simp [outputOf]

/-- R131: an OUT that raises no fault has an output. -/
theorem Effect.outputOf_out_ne_none {a : Operand XLEN} {s t : State XLEN} (h : Effect (.out a) s t)
    (hF : t.FAULT = 0#3) : outputOf (.out a) s ≠ none := by
  cases h with
  | fault f => exact absurd hF f.code_ne_zero
  | output v m hm hv hi => simp [outputOf, hi, hv]
  | jump x y e m hj => cases hj
  | fallThrough x y m hj => cases hj
  | store x y e m hs => cases hs

theorem nextOutput_of_run {s u : State XLEN} {i : Instr XLEN} (hf : fetch s = .run i u) :
    nextOutput s = outputOf i u := by
  simp only [nextOutput, hf]

/-- R207, R208: a step that raises a fault sets the latch and changes nothing else but the hidden
length. -/
theorem step_of_fault {s t : State} (h : step s = .next t) (h0 : s.FAULT = 0#3) (hf : t.FAULT ≠ 0#3) :
    t = { s with FAULT := t.FAULT, FINFO := t.FINFO, MLEN := t.MLEN } := by
  obtain ⟨hn, -⟩ | ⟨-, f, m, -, -, -, rfl⟩ | ⟨-, -, i, m, -, -, he⟩ := step_cases h
  · exact absurd h0 hn
  · rfl
  · obtain ⟨f, m', rfl⟩ | hk := he.raises_or_keeps_FAULT
    · rfl
    · exact absurd (hk.trans h0) hf

/-- A step that begins and ends without a fault runs an instruction, and what that instruction outputs
is what OUTQ gains. -/
theorem step_of_no_fault {s t : State} (h : step s = .next t) (h0 : s.FAULT = 0#3)
    (hF : t.FAULT = 0#3) :
    ∃ i u, fetch s = .run i u ∧ exec i u = .next t ∧ Effect i u t ∧
      t.OUTQ = s.OUTQ ++ (nextOutput s).toList := by
  obtain ⟨hn, -⟩ | ⟨-, f, m, -, -, -, rfl⟩ | ⟨-, -, i, m, -, hf, he⟩ := step_cases h
  · exact absurd h0 hn
  · exact absurd hF f.code_ne_zero
  · refine ⟨i, _, hf, ((step_of_fetch s).2.2 _ _ hf).symm.trans h, he, ?_⟩
    rw [nextOutput_of_run hf]
    exact he.appends_outputOf hF

/-- Settles O13, outcome by outcome: the no-step cases, the fault, and the instruction that completed. -/
theorem outcomeTellsTheStateChange : Obligations.OutcomeTellsTheStateChange := by
  intro s t hinv hstep
  obtain ⟨-, hip, -⟩ := hinv
  have hafter := afterStep_eq hstep
  obtain ⟨hf, ho⟩ | ⟨h0, hh, ho⟩ | ⟨h0, hh, hw, ho⟩ | ⟨-, h0, hF, ho⟩ | ⟨-, h0, hF, v, hv, ho⟩ |
    ⟨hs, h0, hF, hv, ho⟩ := outcome_cases s <;> rw [ho]
  · have hidle := (step_of_fetch s).1 (fetch_of_faulted hf)
    exact ⟨hf, Host.Outcome.next.inj (hstep.symm.trans hidle)⟩
  · have h99 := halted_iff.mp hh
    have hhalt : step s = .next s := (step_of_fetch s).2.2 _ _ (fetch_of_halted h0 hip h99)
    exact ⟨h99, Host.Outcome.next.inj (hstep.symm.trans hhalt)⟩
  · obtain ⟨hq, d, e, m, -, -, hfetch, -⟩ := nextInput_some hw
    obtain ⟨m', hm'⟩ := step_of_not_running hip (by simp [status_waiting_iff.mpr ⟨h0, hh, hw⟩])
    rw [hm'] at hstep
    cases hstep
    exact ⟨List.head?_eq_none_iff.mp hq.symm, ⟨d, _, hfetch⟩, rfl⟩
  · rw [hafter] at hF ⊢
    exact ⟨h0, hF, step_of_fault hstep h0 hF⟩
  · rw [hafter] at hF
    obtain ⟨a, m, -, -, hfetch, -, hsrc⟩ := nextOutput_some hv
    obtain ⟨i, u, hfetch', hexec, -, hout⟩ := step_of_no_fault hstep h0 hF
    rw [hfetch] at hfetch'
    cases hfetch'
    rw [hv] at hout
    exact ⟨hF, hout, a, _, hfetch, sourceValue_mlen hsrc, hexec⟩
  · rw [hafter] at hF
    obtain ⟨i, u, hfetch, hexec, heff, hout⟩ := step_of_no_fault hstep h0 hF
    rw [hv, Option.toList_none, List.append_nil] at hout
    refine ⟨hF, hout, i, u, hfetch, ?_, ?_, hexec⟩
    · rintro rfl
      obtain ⟨-, hh, -⟩ := status_running_iff.mp hs
      exact Bool.false_ne_true (hh.symm.trans (halted_of_fetch_halt hfetch))
    · rintro a rfl
      exact heff.outputOf_out_ne_none hF ((nextOutput_of_run hfetch).symm.trans hv)

end Sys2Proof.Machine
end

section
/-! PROOFS of 41_arithmetic_compare.md: the instruction word of any instruction, the faults of its mode
digits, the meaning of the three-operand instructions case by case (R124), then the statements about ADD,
MUL, LT and EQ (R120 to R123). -/

namespace Sys2Proof.Machine

variable {XLEN : Nat}

/-! ## The instruction word (R85) -/

theorem modeDigits_lt (os : List (Operand XLEN)) : modeDigits os < 10 ^ os.length := by
  induction os with
  | nil => exact Nat.one_pos
  | cons o os ih =>
    have hdigit := o.mode.digit_le
    simp only [modeDigits, List.length_cons, Nat.pow_succ]
    omega

/-- R5, R85: the number of an instruction word has five digits at most. -/
theorem encodeHead_number_lt (i : Instr XLEN) :
    i.opcode.code + 100 * modeDigits i.operands < 100000 := by
  have hcode : i.opcode.code ≤ 99 := by cases i.opcode <;> decide
  have hlength : i.operands.length ≤ 3 := by cases i <;> simp [Instr.operands]
  have hdigits : modeDigits i.operands < 10 ^ 3 :=
    Nat.lt_of_lt_of_le (modeDigits_lt _) (Nat.pow_le_pow_right (by decide) hlength)
  omega

/-- R85: the word of this hardware holds that number as it is. -/
theorem encodeHead_toNat (i : Instr) :
    (encodeHead i).toNat = i.opcode.code + 100 * modeDigits i.operands := by
  have hlt := encodeHead_number_lt i
  rw [encodeHead, BitVec.toNat_ofNat, Nat.mod_eq_of_lt (by omega)]

/-- R85, of three operands: the opcode field and the three mode digits. -/
theorem encodeHead_toNat_three {i : Instr} {a b d : Operand} (h : i.operands = [a, b, d]) :
    (encodeHead i).toNat =
      i.opcode.code + 100 * a.mode.digit + 1000 * b.mode.digit + 10000 * d.mode.digit := by
  rw [encodeHead_toNat, h]
  simp only [modeDigits]
  omega

/-! ## The faults of the mode digits (R79, R80) -/

/-- A fault of the mode digits is raised by the step that fetches the word. -/
theorem stepRaises_of_decodeModes {op : Opcode} {s : State} {f : DecodeFault} (hop : op ≠ .halt)
    (hat : atOpcode s op.code) (hf : f ≠ .invalidOpcode)
    (hm : decodeModes op (s.Mem.read s.IP.toNat).toNat = .error f) :
    stepRaises s (Fault.ofDecode f).code (Fault.ofDecode f).info := by
  obtain ⟨h0, hip, hsign, hfield⟩ := hat
  have hopcode := opcodeOfField_eq_some.mpr ⟨hfield, hop⟩
  exact stepRaises_of_decode_error h0 hip ((decodeWord_eq_error hf).mpr ⟨hsign, op, hopcode, hm⟩)

/-- R79, of every opcode but HALT. -/
theorem badModeRaises_of_opcode {op : Opcode} (hop : op ≠ .halt) :
    badModeRaises op.code op.operandCount := by
  intro s i hat h1 hn hbad hlow
  exact stepRaises_of_decodeModes hop hat DecodeFault.noConfusion
    (decodeModes_eq_invalidMode.mpr ⟨h1, hn, hbad, hlow⟩)

/-- R80, of every opcode with a destination operand. -/
theorem badDestinationRaises_of_opcode {op : Opcode} {d : Nat} (hd : op.destination? = some d) :
    badDestinationRaises op.code op.operandCount d := by
  have hop : op ≠ .halt := by
    rintro rfl
    cases hd
  intro s hat hlegal hone
  exact stepRaises_of_decodeModes hop hat DecodeFault.noConfusion
    (decodeModes_eq_invalidDestination.mpr ⟨hd, hone, hlegal⟩)

/-! ## The three-operand instructions, case by case (R124) -/

/-- An operand that designates a cell is not immediate. -/
theorem writable_of_cellOf {o : Operand XLEN} {s : State XLEN} {e : Nat} (h : cellOf o s = some e) :
    o.writable = true := by
  refine writable_of_ne_immediate fun hm => ?_
  simp [cellOf, effectiveAddress, hm] at h

/-- R13: the successor of an instruction of `n` words, as a sum of words. -/
theorem ofNat_toNat_add (w : Word XLEN) (n : Nat) :
    BitVec.ofNat XLEN (w.toNat + n) = w + BitVec.ofNat XLEN n := by
  rw [BitVec.ofNat_add, BitVec.ofNat_toNat, BitVec.setWidth_eq]

section
variable {f : Word XLEN → Word XLEN → Word XLEN} {a b d : Operand XLEN} {s : State XLEN}
  {x y : Word XLEN} {e : Nat}

theorem execThree_of_first_none (hw : d.writable = true) (hx : sourceValue a s = none) :
    execThree f a b d s = .next (s.raise (.invalidAddress 1)) := by
  simp only [execThree, hw, hx, if_true]

theorem execThree_of_second_none (hw : d.writable = true) (hx : sourceValue a s = some x)
    (hy : sourceValue b s = none) : execThree f a b d s = .next (s.raise (.invalidAddress 2)) := by
  simp only [execThree, hw, hx, hy, if_true]

theorem execThree_of_destination_none (hw : d.writable = true) (hx : sourceValue a s = some x)
    (hy : sourceValue b s = some y) (he : cellOf d s = none) :
    execThree f a b d s = .next (s.raise (.invalidAddress 3)) := by
  simp only [execThree, hw, hx, hy, he, if_true]

/-- With all three operands legal, what is left is the check of the successor. -/
theorem execThree_of_operands (hx : sourceValue a s = some x) (hy : sourceValue b s = some y)
    (he : cellOf d s = some e) :
    ∃ m, execThree f a b d s =
      retire 4 { s with MLEN := m } (({ s with MLEN := m } : State XLEN).store e (f x y)) := by
  obtain ⟨m, hm, -⟩ := touchSource_two a b s
  refine ⟨m, ?_⟩
  simp only [execThree, writable_of_cellOf he, hx, hy, he, hm, if_true]

/-- The word after the instruction has an address: the result is stored and IP is 4 more. -/
theorem execThree_completes (hx : sourceValue a s = some x) (hy : sourceValue b s = some y)
    (he : cellOf d s = some e) (hi : s.IP.toNat + 4 ≤ Config.ADDR_MAX XLEN) :
    ∃ m, execThree f a b d s = .next { s with
      Mem := s.Mem.write e (f x y), IP := s.IP + BitVec.ofNat XLEN 4, MLEN := m } := by
  obtain ⟨m, hm⟩ := execThree_of_operands (f := f) hx hy he
  refine ⟨max m (e + 1), (hm.trans (retire_fits _ hi)).trans ?_⟩
  rw [← ofNat_toNat_add]
  rfl

/-- It has none: the last fault of R110, before the store. -/
theorem execThree_above (hx : sourceValue a s = some x) (hy : sourceValue b s = some y)
    (he : cellOf d s = some e) (hi : Config.ADDR_MAX XLEN < s.IP.toNat + 4) :
    ∃ m, execThree f a b d s = .next (({ s with MLEN := m } : State XLEN).raise (.invalidAddress 0)) := by
  obtain ⟨m, hm⟩ := execThree_of_operands (f := f) hx hy he
  exact ⟨m, hm.trans (retire_above _ hi)⟩

end

/-! ## The four instructions -/

/-- ADD, MUL, LT and EQ have the common meaning of R124, each with its function. -/
theorem Stores.exec_eq {i : Instr} {f : Word → Word → Word} {a b d : Operand} (h : Stores i f a b d)
    (s : State) : exec i s = execThree f a b d s := by
  cases h <;> rfl

/-- R120 to R123: the next state of one that completes. -/
theorem Stores.exec_completes {i : Instr} {f : Word → Word → Word} {a b d : Operand} {s : State}
    {x y : Word} {e : Nat} (h : Stores i f a b d) (hx : sourceValue a s = some x)
    (hy : sourceValue b s = some y) (he : cellOf d s = some e)
    (hi : s.IP.toNat + 4 ≤ Config.ADDR_MAX) :
    ∃ m, exec i s = .next { s with
      Mem := s.Mem.write e (f x y), IP := s.IP + 4#64, MLEN := m } := by
  rw [h.exec_eq]
  exact execThree_completes hx hy he hi

/-- R124: every exception, those of the word by the decoder and those of the operands by the meaning. -/
theorem threeOperandFaults_of_stores {mk : Operand → Operand → Operand → Instr}
    {f : Word → Word → Word} {op : Opcode} (hn : op.operandCount = 3) (hd : op.destination? = some 3)
    (hs : ∀ a b d, Stores (mk a b d) f a b d) : threeOperandFaults mk op.code := by
  have hop : op ≠ .halt := by
    rintro rfl
    cases hn
  have hmode := badModeRaises_of_opcode hop
  have hdestination := badDestinationRaises_of_opcode hd
  rw [hn] at hmode hdestination
  refine ⟨hmode, hdestination, fun a b d s hw => ?_⟩
  simp only [execRaises, (hs a b d).exec_eq]
  refine ⟨fun hx => ?_, fun x hx hy => ?_, fun x y hx hy he => ?_, fun x y e hx hy he hi => ?_⟩
  · exact ⟨s.MLEN, execThree_of_first_none hw hx⟩
  · exact ⟨s.MLEN, execThree_of_second_none hw hx hy⟩
  · exact ⟨s.MLEN, execThree_of_destination_none hw hx hy he⟩
  · exact execThree_above hx hy he hi

/-! ## The statements -/

/-- Settles O32: ADD is the three-operand instruction of `addWords`. -/
theorem addStoresTheWrappedSum : Obligations.AddStoresTheWrappedSum :=
  ⟨fun a b d _ _ _ _ => (Stores.add a b d).exec_completes, fun _ _ _ => encodeHead_toNat_three rfl,
    threeOperandFaults_of_stores (op := .add) rfl rfl Stores.add⟩

/-- Settles O33: MUL is the three-operand instruction of `mulWords`. -/
theorem mulStoresTheWrappedProduct : Obligations.MulStoresTheWrappedProduct :=
  ⟨fun a b d _ _ _ _ => (Stores.mul a b d).exec_completes, fun _ _ _ => encodeHead_toNat_three rfl,
    threeOperandFaults_of_stores (op := .mul) rfl rfl Stores.mul⟩

/-- Settles O34: LT is the three-operand instruction of `lessWord`. -/
theorem ltStoresTheSignedComparison : Obligations.LtStoresTheSignedComparison :=
  ⟨fun a b d _ _ _ _ => (Stores.lt a b d).exec_completes, fun _ _ _ => encodeHead_toNat_three rfl,
    threeOperandFaults_of_stores (op := .lt) rfl rfl Stores.lt⟩

/-- Settles O35: EQ is the three-operand instruction of `equalWord`, and words of equal value are the
same word. -/
theorem eqStoresTheEquality : Obligations.EqStoresTheEquality := by
  refine ⟨fun a b d s x y e hx hy he hi => ?_, fun _ _ _ => encodeHead_toNat_three rfl,
    threeOperandFaults_of_stores (op := .eq) rfl rfl Stores.eq⟩
  have hnext := (Stores.eq a b d).exec_completes hx hy he hi
  rwa [equalWord_eq_ite] at hnext

end Sys2Proof.Machine
end

section
/-! PROOFS of 42_input_output.md: the instruction word of one operand, the meaning of IN and OUT case by
case, the outcome of a step that runs an OUT (R112), then the statements about IN and OUT (R130, R131). -/

namespace Sys2Proof.Machine

variable {XLEN : Nat}

/-- R85, of one operand: the opcode field and the mode digit. -/
theorem encodeHead_toNat_one {i : Instr} {o : Operand} (h : i.operands = [o]) :
    (encodeHead i).toNat = i.opcode.code + 100 * o.mode.digit := by
  rw [encodeHead_toNat, h]
  rfl

/-! ## IN, case by case (R130) -/

section
variable {d : Operand XLEN} {s : State XLEN} {e : Nat}

theorem inputCell_of_destination_none (hw : d.writable = true) (he : cellOf d s = none) :
    inputCell d s = .error (.invalidAddress 1) := by
  simp only [inputCell, hw, he, if_true]

theorem inputCell_above (he : cellOf d s = some e) (hi : Config.ADDR_MAX XLEN < s.IP.toNat + 2) :
    inputCell d s = .error (.invalidAddress 0) := by
  simp only [inputCell, writable_of_cellOf he, he, if_neg (Nat.not_le.mpr hi), if_true]

theorem inputCell_of_cellOf (he : cellOf d s = some e) (hi : s.IP.toNat + 2 ≤ Config.ADDR_MAX XLEN) :
    inputCell d s = .ok e :=
  inputCell_ok.mpr ⟨writable_of_cellOf he, he, hi⟩

/-- A fault is raised whatever INQ holds, and nothing is consumed. -/
theorem execIn_of_error {f : Fault} (h : inputCell d s = .error f) :
    execIn d s = .next (s.raise f) := by
  simp only [execIn, h]

/-- With its checks passed and a word waiting, IN moves that word to its cell and IP is 2 more. -/
theorem execIn_takes {x : Word XLEN} {q : List (Word XLEN)} (h : inputCell d s = .ok e)
    (hq : s.INQ = x :: q) :
    execIn d s = .next { s with
      Mem := s.Mem.write e x, INQ := q, IP := s.IP + BitVec.ofNat XLEN 2,
      MLEN := max s.MLEN (e + 1) } := by
  obtain ⟨-, -, hi⟩ := inputCell_ok.mp h
  simp only [execIn, h, hq, retire_fits _ hi]
  rw [← ofNat_toNat_add]
  rfl

end

/-! ## OUT, case by case (R131) -/

section
variable {a : Operand XLEN} {s : State XLEN} {v : Word XLEN}

theorem execOut_of_source_none (hv : sourceValue a s = none) :
    execOut a s = .next (s.raise (.invalidAddress 1)) := by
  simp only [execOut, hv]

/-- With a legal source, what is left is the check of the successor. -/
theorem execOut_of_source (hv : sourceValue a s = some v) :
    ∃ m, execOut a s =
      retire 2 { s with MLEN := m } (({ s with MLEN := m } : State XLEN).pushOutput v) := by
  obtain ⟨m, hm, -⟩ := touchSource_grown a s
  exact ⟨m, by simp only [execOut, hv, hm]⟩

/-- The word after the instruction has an address: the value is appended and IP is 2 more. -/
theorem execOut_completes (hv : sourceValue a s = some v)
    (hi : s.IP.toNat + 2 ≤ Config.ADDR_MAX XLEN) :
    ∃ m, execOut a s = .next { s with
      OUTQ := s.OUTQ ++ [v], IP := s.IP + BitVec.ofNat XLEN 2, MLEN := m } := by
  obtain ⟨m, hm⟩ := execOut_of_source hv
  refine ⟨m, (hm.trans (retire_fits _ hi)).trans ?_⟩
  rw [← ofNat_toNat_add]
  rfl

/-- It has none: the last fault of R110, before the append. -/
theorem execOut_above (hv : sourceValue a s = some v)
    (hi : Config.ADDR_MAX XLEN < s.IP.toNat + 2) :
    ∃ m, execOut a s = .next (({ s with MLEN := m } : State XLEN).raise (.invalidAddress 0)) := by
  obtain ⟨m, hm⟩ := execOut_of_source hv
  exact ⟨m, hm.trans (retire_above _ hi)⟩

end

/-! ## The outcome of a step that runs an OUT (R112) -/

/-- R21: a core that fetches anything but HALT is not halted. -/
theorem halted_eq_false_of_fetch {s u : State XLEN} {i : Instr XLEN} (hf : fetch s = .run i u)
    (hi : i ≠ .halt) : halted s = false := by
  obtain ⟨h0, hip, -⟩ := fetch_run_state hf
  rw [Bool.eq_false_iff]
  intro hh
  have hhalt := fetch_of_halted h0 hip (halted_iff.mp hh)
  rw [hf] at hhalt
  injection hhalt with hi'
  exact hi hi'

/-- R112, R131: an OUT that raises no fault completes, and its step reports the value. -/
theorem outcome_of_fetch_out {a : Operand XLEN} {s u : State XLEN} {v : Word XLEN}
    (hf : fetch s = .run (.out a) u) (hv : sourceValue a s = some v)
    (hi : s.IP.toNat + 2 ≤ Config.ADDR_MAX XLEN) : outcome s = .retiredOutput v := by
  have hh := halted_eq_false_of_fetch hf nofun
  obtain ⟨h0, -, m, -, rfl⟩ := fetch_run_state hf
  have hv' : sourceValue a { s with MLEN := m } = some v := (sourceValue_congr a rfl rfl).trans hv
  have hin : nextInput s = none := by simp only [nextInput, hf, inputOf]
  have hout : nextOutput s = some v := by
    rw [nextOutput_of_run hf]
    exact (if_pos hi).trans hv'
  have hF : (afterStep s).FAULT = 0#3 := by
    obtain ⟨n, hn⟩ := execOut_completes hv' hi
    rw [afterStep_of_stepAt (((stepAt_of_fetch s).2.2 _ _ hf).trans hn)]
    exact h0
  simp [outcome_eq, h0, hh, hin, hF, hout]

/-! ## The statements -/

/-- Settles O36: the checks of IN come first and do not look at the channel; what they pass takes the
oldest word, or holds. -/
theorem inTakesTheOldestInput : Obligations.InTakesTheOldestInput := by
  refine ⟨fun d s e x q he hi hq => ?_, fun d s e he hi hq => ?_,
    fun d s hw => ⟨fun he => ?_, fun e he hi => ?_⟩, fun d => encodeHead_toNat_one rfl,
    badModeRaises_of_opcode (op := .inp) Opcode.noConfusion,
    badDestinationRaises_of_opcode (op := .inp) rfl⟩
  · exact execIn_takes (inputCell_of_cellOf he hi) hq
  · exact execIn_hold (inputCell_of_cellOf he hi) hq
  · exact ⟨s.MLEN, execIn_of_error (inputCell_of_destination_none hw he)⟩
  · exact ⟨s.MLEN, execIn_of_error (inputCell_above he hi)⟩

/-- Settles O37: a legal source is appended, unless the word after the instruction has no address, and
the step that appends it reports it. -/
theorem outAppendsItsValue : Obligations.OutAppendsItsValue := by
  refine ⟨fun a s v hv hi => ?_, fun a s => ⟨fun hv => ?_, fun v hv hi => ?_⟩,
    fun a s u v => outcome_of_fetch_out, fun a => encodeHead_toNat_one rfl,
    badModeRaises_of_opcode (op := .out) Opcode.noConfusion⟩
  · exact execOut_completes hv hi
  · exact ⟨s.MLEN, execOut_of_source_none hv⟩
  · exact execOut_above hv hi

end Sys2Proof.Machine
end

section
/-! PROOFS of 43_jumps.md: the instruction word of two operands, the meaning of the jumps case by case
(R142), then the statements about JT and JF (R140, R141). -/

namespace Sys2Proof.Machine

variable {XLEN : Nat}

/-- R85, of two operands: the opcode field and the two mode digits. -/
theorem encodeHead_toNat_two {i : Instr} {c g : Operand} (h : i.operands = [c, g]) :
    (encodeHead i).toNat = i.opcode.code + 100 * c.mode.digit + 1000 * g.mode.digit := by
  rw [encodeHead_toNat, h]
  simp only [modeDigits]
  omega

/-- R4: a word that is not negative is a legal target. -/
theorem legalAddress_of_nonneg {w : Word XLEN} (h : 0 ≤ w.toInt) :
    legalAddress XLEN w.toInt = some w.toNat := by
  obtain ⟨hle, -⟩ | ⟨-, hneg⟩ := toInt_cases (w := w)
  · exact legalAddress_toInt.mpr ⟨rfl, hle⟩
  · omega

/-! ## The conditions (R140, R141) -/

theorem conditionTrue_iff {x : Word XLEN} : conditionTrue x = true ↔ x.toInt ≠ 0 := decide_eq_true_iff

theorem conditionFalse_iff {x : Word XLEN} : conditionFalse x = true ↔ x.toInt = 0 := decide_eq_true_iff

/-! ## A jump, case by case (R142) -/

section
variable {p : Word XLEN → Bool} {c g : Operand XLEN} {s : State XLEN} {x y : Word XLEN}

theorem execJump_of_condition_none (hx : sourceValue c s = none) :
    execJump p c g s = .next (s.raise (.invalidAddress 1)) := by
  simp only [execJump, hx]

/-- The operand of the target is resolved before the condition is looked at. -/
theorem execJump_of_target_none (hx : sourceValue c s = some x) (hy : sourceValue g s = none) :
    execJump p c g s = .next (s.raise (.invalidAddress 2)) := by
  simp only [execJump, hx, hy]

/-- Taken to a target that is not negative: IP is the target. -/
theorem execJump_taken (hx : sourceValue c s = some x) (hy : sourceValue g s = some y)
    (hp : p x = true) (ht : 0 ≤ y.toInt) :
    ∃ m, execJump p c g s = .next { s with IP := y, MLEN := m } := by
  obtain ⟨m, hm, -⟩ := touchSource_two c g s
  have he := legalAddress_of_nonneg ht
  refine ⟨m, ?_⟩
  simp only [execJump, hx, hy, hm, hp, he, State.setIP, ofNat_of_legalAddress he, if_true]

/-- Taken to a negative target: the target is checked then and only then. -/
theorem execJump_taken_negative (hx : sourceValue c s = some x) (hy : sourceValue g s = some y)
    (hp : p x = true) (ht : y.toInt < 0) :
    ∃ m, execJump p c g s =
      .next (({ s with MLEN := m } : State XLEN).raise (.invalidAddress 2)) := by
  obtain ⟨m, hm, -⟩ := touchSource_two c g s
  have he : legalAddress XLEN y.toInt = none := legalAddress_eq_none.mpr (.inl ht)
  exact ⟨m, by simp only [execJump, hx, hy, hm, hp, he, if_true]⟩

/-- Not taken: what is left is the check of the successor, whatever the target. -/
theorem execJump_of_not_taken (hx : sourceValue c s = some x) (hy : sourceValue g s = some y)
    (hp : ¬ p x = true) :
    ∃ m, execJump p c g s = retire 3 { s with MLEN := m } { s with MLEN := m } := by
  obtain ⟨m, hm, -⟩ := touchSource_two c g s
  exact ⟨m, by simp only [execJump, hx, hy, hm, if_neg hp]⟩

/-- Not taken, and the word after the instruction has an address: IP is 3 more. -/
theorem execJump_advances (hx : sourceValue c s = some x) (hy : sourceValue g s = some y)
    (hp : ¬ p x = true) (hi : s.IP.toNat + 3 ≤ Config.ADDR_MAX XLEN) :
    ∃ m, execJump p c g s = .next { s with IP := s.IP + BitVec.ofNat XLEN 3, MLEN := m } := by
  obtain ⟨m, hm⟩ := execJump_of_not_taken hx hy hp
  refine ⟨m, (hm.trans (retire_fits _ hi)).trans ?_⟩
  rw [← ofNat_toNat_add]
  rfl

/-- Not taken, and it has none: the last fault of R110. -/
theorem execJump_above (hx : sourceValue c s = some x) (hy : sourceValue g s = some y)
    (hp : ¬ p x = true) (hi : Config.ADDR_MAX XLEN < s.IP.toNat + 3) :
    ∃ m, execJump p c g s =
      .next (({ s with MLEN := m } : State XLEN).raise (.invalidAddress 0)) := by
  obtain ⟨m, hm⟩ := execJump_of_not_taken hx hy hp
  exact ⟨m, hm.trans (retire_above _ hi)⟩

end

/-! ## The two instructions -/

/-- JT and JF have the common meaning of R142, each with its condition. -/
theorem Jumps.exec_eq {i : Instr} {p : Word → Bool} {c g : Operand} (h : Jumps i p c g) (s : State) :
    exec i s = execJump p c g s := by
  cases h <;> rfl

/-- R140, R141: every exception, those of the word by the decoder and those of the operands by the
meaning. -/
theorem jumpFaults_of_jumps {mk : Operand → Operand → Instr} {p : Word → Bool} {taken : Word → Prop}
    {op : Opcode} (hn : op.operandCount = 2) (hj : ∀ c g, Jumps (mk c g) p c g)
    (htaken : ∀ x, p x = true ↔ taken x) : jumpFaults mk op.code taken := by
  have hop : op ≠ .halt := by
    rintro rfl
    cases hn
  have hmode := badModeRaises_of_opcode hop
  rw [hn] at hmode
  refine ⟨hmode, fun c g s => ?_⟩
  simp only [execRaises, (hj c g).exec_eq, ← htaken]
  refine ⟨fun hx => ?_, fun x hx hy => ?_, fun x y hx hy hp ht => ?_, fun x y hx hy hp hi => ?_⟩
  · exact ⟨s.MLEN, execJump_of_condition_none hx⟩
  · exact ⟨s.MLEN, execJump_of_target_none hx hy⟩
  · exact execJump_taken_negative hx hy hp ht
  · exact execJump_above hx hy hp hi

/-! ## The statements -/

/-- Settles O38: JT is the jump on `conditionTrue`. -/
theorem jtJumpsWhenNotZero : Obligations.JtJumpsWhenNotZero := by
  refine ⟨fun c g s x y hx hy h ht => ?_, fun c g s x y hx hy h hi => ?_,
    fun _ _ => encodeHead_toNat_two rfl,
    jumpFaults_of_jumps (op := .jt) rfl Jumps.jt fun _ => conditionTrue_iff⟩
  · exact execJump_taken hx hy (conditionTrue_iff.mpr h) ht
  · exact execJump_advances hx hy (fun hp => conditionTrue_iff.mp hp h) hi

/-- Settles O39: JF is the jump on `conditionFalse`. -/
theorem jfJumpsWhenZero : Obligations.JfJumpsWhenZero := by
  refine ⟨fun c g s x y hx hy h ht => ?_, fun c g s x y hx hy h hi => ?_,
    fun _ _ => encodeHead_toNat_two rfl,
    jumpFaults_of_jumps (op := .jf) rfl Jumps.jf fun _ => conditionFalse_iff⟩
  · exact execJump_taken hx hy (conditionFalse_iff.mpr h) ht
  · exact execJump_advances hx hy (fun hp => h (conditionFalse_iff.mp hp)) hi

end Sys2Proof.Machine
end

section
/-! PROOFS of 44_relative_base.md: the meaning of ARB case by case and the operand `[rb+0]`, then the
statements about ARB and the relative mode after it (R150, R151). -/

namespace Sys2Proof.Machine

variable {XLEN : Nat}

/-! ## ARB, case by case (R150) -/

section
variable {a : Operand XLEN} {s : State XLEN} {v : Word XLEN}

theorem execArb_of_source_none (hv : sourceValue a s = none) :
    execArb a s = .next (s.raise (.invalidAddress 1)) := by
  simp only [execArb, hv]

/-- With a legal source, read at the old RB, what is left is the check of the successor. -/
theorem execArb_of_source (hv : sourceValue a s = some v) :
    ∃ m, execArb a s =
      retire 2 { s with MLEN := m } (({ s with MLEN := m } : State XLEN).setRB (addWords s.RB v)) := by
  obtain ⟨m, hm, -⟩ := touchSource_grown a s
  exact ⟨m, by simp only [execArb, hv, hm]⟩

/-- The word after the instruction has an address: the value is added to RB and IP is 2 more. -/
theorem execArb_completes (hv : sourceValue a s = some v)
    (hi : s.IP.toNat + 2 ≤ Config.ADDR_MAX XLEN) :
    ∃ m, execArb a s = .next { s with
      RB := addWords s.RB v, IP := s.IP + BitVec.ofNat XLEN 2, MLEN := m } := by
  obtain ⟨m, hm⟩ := execArb_of_source hv
  refine ⟨m, (hm.trans (retire_fits _ hi)).trans ?_⟩
  rw [← ofNat_toNat_add]
  rfl

/-- It has none: the last fault of R110, before RB is written. -/
theorem execArb_above (hv : sourceValue a s = some v)
    (hi : Config.ADDR_MAX XLEN < s.IP.toNat + 2) :
    ∃ m, execArb a s = .next (({ s with MLEN := m } : State XLEN).raise (.invalidAddress 0)) := by
  obtain ⟨m, hm⟩ := execArb_of_source hv
  exact ⟨m, hm.trans (retire_above _ hi)⟩

end

/-! ## From RB = 0, and the operand `[rb+0]` (R151) -/

/-- R120: the sum of 0 and a word is that word; there is nothing to wrap. -/
theorem addWords_zero_left (w : Word XLEN) : addWords 0#XLEN w = w := by
  rw [addWords, wrap, BitVec.toInt_zero, Int.zero_add, BitVec.ofInt_toInt]

/-- R105: the offset 0 in mode 2 designates the cell RB points at. -/
theorem cellOf_relative_zero (s : State XLEN) :
    cellOf ⟨.relative, 0#XLEN⟩ s = legalAddress XLEN s.RB.toInt := by
  simp only [cellOf, effectiveAddress, BitVec.toInt_zero, Int.zero_add]

/-- R151: from RB = 0, ARB of a literal replaces RB by it. -/
theorem execArb_immediate_of_RB_zero {s : State XLEN} (k : Word XLEN) (hr : s.RB = 0#XLEN)
    (hi : s.IP.toNat + 2 ≤ Config.ADDR_MAX XLEN) :
    ∃ m, execArb ⟨.immediate, k⟩ s = .next { s with
      RB := k, IP := s.IP + BitVec.ofNat XLEN 2, MLEN := m } := by
  have hnext := execArb_completes (a := ⟨.immediate, k⟩) rfl hi
  rwa [hr, addWords_zero_left] at hnext

/-! ## The statements -/

/-- Settles O40: ARB adds its legal source to RB, unless the word after the instruction has no address. -/
theorem arbAddsToRB : Obligations.ArbAddsToRB := by
  refine ⟨fun a s v hv hi => ?_, fun a s => ⟨fun hv => ?_, fun v hv hi => ?_⟩,
    fun a => encodeHead_toNat_one rfl, badModeRaises_of_opcode (op := .arb) Opcode.noConfusion⟩
  · exact execArb_completes hv hi
  · exact ⟨s.MLEN, execArb_of_source_none hv⟩
  · exact execArb_above hv hi

/-- Settles O45: ARB leaves RB = k, which the operand `[rb+0]` resolves to cell k, and a cell reads as ADD
just wrote it. -/
theorem relativeModeRoundTrip : Obligations.RelativeModeRoundTrip := by
  intro s k hr hk hi hwf
  obtain ⟨m, hm⟩ := execArb_immediate_of_RB_zero k hr (show s.IP.toNat + 2 ≤ Config.ADDR_MAX by omega)
  have hcell (t : State) (ht : t.RB = k) : cellOf ⟨.relative, 0#64⟩ t = some k.toNat := by
    rw [cellOf_relative_zero, ht, legalAddress_of_nonneg hk]
  refine ⟨_, hm, rfl, hcell _ rfl, fun a b x y hx hy => ?_⟩
  have hnext : (s.IP + 2#64).toNat + 4 ≤ Config.ADDR_MAX := by
    have hle : (s.IP + 2#64).toNat ≤ s.IP.toNat + 2 := by
      rw [BitVec.toNat_add]
      exact Nat.mod_le _ _
    omega
  obtain ⟨n, hn⟩ := execThree_completes (f := addWords) hx hy (hcell _ rfl) hnext
  exact ⟨_, hn, Memory.read_write_same s.Mem 0 k.toNat _ hwf⟩

end Sys2Proof.Machine
end

section
/-! PROOFS of 45_halt.md: the decoding of HALT, the step of a halted core and what the host can do to one,
then the statements about HALT (R160) and about leaving the halted state (R162). -/

namespace Sys2Proof.Machine

variable {XLEN : Nat}

/-! ## The instruction and its step (R160) -/

/-- R77, R160: no opcode field selects HALT, so the whole word 99 is its only word. -/
theorem decodeWord_halt_iff {W : Word XLEN} :
    (∃ h, decodeWord W = .ok h ∧ h.op = .halt) ↔ W.toInt = 99 := by
  rw [decodeWord_eq_ok]
  constructor
  · rintro (⟨h99, -⟩ | ⟨-, hop, -⟩)
    · exact h99
    · exact absurd rfl (opcodeOfField_eq_some.mp hop).2
  · exact fun h99 => .inl ⟨h99, rfl⟩

/-- HALT advances no IP and touches nothing. -/
@[simp] theorem exec_halt (s : State) : exec .halt s = .next s := rfl

/-- R101, R160: the step of a halted core that is not faulted is the HALT at IP. -/
theorem step_of_halted {s : State} (h0 : s.FAULT = 0#3) (hip : s.IP.toNat ≤ Config.ADDR_MAX)
    (h99 : (s.Mem.read s.IP.toNat).toInt = 99) : step s = .next s :=
  calc step s = exec .halt s := (step_of_fetch s).2.2 _ _ (fetch_of_halted h0 hip h99)
    _ = .next s := exec_halt s

/-- A halted core, faulted or not, is in a status in which no step is taken. -/
theorem status_ne_running_of_halted {s : State XLEN} (hh : halted s = true) : status s ≠ .running := by
  intro hr
  obtain ⟨-, hh', -⟩ := status_running_iff.mp hr
  exact Bool.false_ne_true (hh'.symm.trans hh)

/-! ## The host and a halted core (R162) -/

/-- R21: halted is a function of IP and of the cell it points at. -/
theorem halted_congr {s t : State XLEN} (hip : t.IP = s.IP)
    (hmem : t.Mem.read s.IP.toNat = s.Mem.read s.IP.toNat) : halted t = halted s := by
  rw [halted, halted, hip, hmem]

/-- R162: on a halted core no operation but reset and a poke of the cell at IP changes IP or that cell. -/
theorem hostDo_keeps_cell_at_IP {op : HostOp} {s : State} (hip : s.IP.toNat ≤ Config.ADDR_MAX)
    (hh : halted s = true) (hr : noReset [op] = true) (hp : ∀ x, op ≠ .poke s.IP.toNat x) :
    (hostDo op s).2.IP = s.IP ∧
      (hostDo op s).2.Mem.read s.IP.toNat = s.Mem.read s.IP.toNat := by
  obtain rfl | ⟨_, x, n, rfl, rfl, -, heq⟩ | ⟨q, o, m, -, heq⟩ := hostDo_frame op s hr
  · obtain ⟨m, hm⟩ := step_of_not_running hip (status_ne_running_of_halted hh)
    have heq : (hostDo .step s).2 = { s with MLEN := m } := afterStep_eq hm
    rw [heq]
    exact ⟨rfl, rfl⟩
  · have hne : s.IP.toNat ≠ n := by
      rintro rfl
      exact hp x rfl
    rw [heq]
    exact ⟨rfl, Memory.read_write_other s.Mem x hne⟩
  · rw [heq]
    exact ⟨rfl, rfl⟩

/-- R172: a poke that is carried out stores the word and does nothing else. -/
theorem State.eq_store_of_poke {s t : State XLEN} {a : Nat} {x : Word XLEN}
    (h : s.poke a x = some t) : t = s.store a x := by
  obtain ⟨-, hnone⟩ | ⟨n, hn, -, hsome⟩ := s.poke_cases a x
  · rw [hnone] at h
    cases h
  · obtain rfl : n = a := Int.ofNat.inj hn
    exact Option.some.inj (h.symm.trans hsome)

/-- R162: every operation but the two exceptions leaves a halted core halted, its IP where it is. -/
theorem hostDo_keeps_halted {op : HostOp} {s : State} (hip : s.IP.toNat ≤ Config.ADDR_MAX)
    (hh : halted s = true) (hr : noReset [op] = true) (hp : ∀ x, op ≠ .poke s.IP.toNat x) :
    halted (hostDo op s).2 = true ∧ (hostDo op s).2.IP = s.IP := by
  obtain ⟨hIP, hcell⟩ := hostDo_keeps_cell_at_IP hip hh hr hp
  exact ⟨(halted_congr hIP hcell).trans hh, hIP⟩

/-- R162: the end of a run. -/
theorem State.final_iff {s : State XLEN} : s.final = true ↔ halted s = true ∧ s.FAULT = 0#3 := by
  rw [State.final, Bool.and_eq_true, decide_eq_true_eq]

/-! ## The statements -/

/-- Settles O41: HALT is the whole word 99 and answers its own state, so the step of a halted core stays
where it is. -/
theorem haltChangesNothing : Obligations.HaltChangesNothing := by
  refine ⟨exec_halt, fun _ => decodeWord_halt_iff, fun s h0 hip h99 => ?_⟩
  have hstep : step s = .next s := step_of_halted h0 hip h99
  refine ⟨hstep, outcome_of_status_halted (status_halted_iff.mpr ⟨h0, h99⟩), ?_⟩
  rw [afterStep_eq hstep]
  exact halted_iff.mpr h99

/-- Settles O48: halted looks at IP and the cell there, which only reset and a poke of that cell change;
after the poke the cell holds the poked word. -/
theorem onlyAPokeAtIPOrResetUnhalts : Obligations.OnlyAPokeAtIPOrResetUnhalts := by
  refine ⟨fun _ _ => hostDo_keeps_halted, fun s t x hinv _ hp => ?_, fun _ => State.final_iff⟩
  obtain ⟨hwf, -⟩ := hinv
  obtain rfl := State.eq_store_of_poke hp
  have hread : (s.Mem.write s.IP.toNat x).read s.IP.toNat = x := Memory.read_write_same _ 0 _ _ hwf
  refine ⟨?_, hread, rfl, rfl, rfl, rfl, fun a ha => Memory.read_write_other s.Mem x ha⟩
  rw [halted_iff, State.store_Mem, State.store_IP, hread]

end Sys2Proof.Machine
end

section
/-! PROOFS of 47_host_interface.md, one instance: what poke, peek, the view and the channel operations
answer and leave (R172 to R177), and the call of `run_until_next_output` on a halted core (R182). -/

namespace Sys2Proof.Machine

variable {XLEN : Nat}

/-! ## Access to the tape (R172, R173) -/

/-- R4: an integer in the address range is the address of that number. -/
theorem legalAddress_of_mem_range {a : Int} (h0 : 0 ≤ a) (hle : a ≤ (Config.ADDR_MAX XLEN : Int)) :
    legalAddress XLEN a = some a.toNat :=
  legalAddress_eq_some.mpr ⟨Int.toNat_of_nonneg h0, Int.toNat_le.mpr hle⟩

/-- R172: a poke outside the address range is refused. -/
theorem hostDo_poke_of_illegal {a : Int} (x : Word XLEN) (s : State XLEN)
    (h : legalAddress XLEN a = none) : hostDo (.poke a x) s = (.refused, s) := by
  simp [hostDo, State.poke, h]

/-- R172: a poke of a legal address is carried out by the store. -/
theorem hostDo_poke_of_legal {a : Int} {n : Nat} (x : Word XLEN) (s : State XLEN)
    (h : legalAddress XLEN a = some n) : hostDo (.poke a x) s = (.done, s.store n x) := by
  simp [hostDo, State.poke, h]

/-- R173: a peek outside the address range is refused. -/
theorem hostDo_peek_of_illegal {a : Int} (s : State XLEN) (h : legalAddress XLEN a = none) :
    hostDo (.peek a) s = (.refused, s) := by
  simp [hostDo, State.peek, h]

/-- R44, R173: a peek of a legal address answers the cell and touches it. -/
theorem hostDo_peek_of_legal {a : Int} {n : Nat} (s : State XLEN) (h : legalAddress XLEN a = some n) :
    hostDo (.peek a) s = (.word (s.Mem.read n), s.touch n) := by
  simp [hostDo, State.peek, h]

/-! ## The oldest output (R175) -/

theorem hostDo_popOutput_of_nil {s : State XLEN} (h : s.OUTQ = []) :
    hostDo .popOutput s = (.noWord, s) := by
  simp [hostDo, State.popOutput, h]

theorem hostDo_popOutput_of_cons {s : State XLEN} {x : Word XLEN} {q : List (Word XLEN)}
    (h : s.OUTQ = x :: q) : hostDo .popOutput s = (.word x, { s with OUTQ := q }) := by
  simp [hostDo, State.popOutput, h]

/-! ## The run mode on a halted core (R182) -/

/-- R112: an attempt at a step of a halted core that is not faulted changes nothing. -/
theorem afterStep_of_halted {s : State} (h0 : s.FAULT = 0#3) (hip : s.IP.toNat ≤ Config.ADDR_MAX)
    (hh : halted s = true) : afterStep s = s :=
  afterStep_eq (step_of_halted h0 hip (halted_iff.mp hh))

/-- R181, R182: a call whose first attempt reports Halted ends with it and returns the absence marker. -/
theorem runUntilNextOutput_of_outcome_halted (own : Bool) (k : Nat) {s : State XLEN}
    (ho : outcome s = .halted) : runUntilNextOutput own (k + 1) s = (.noOutput, afterStep s) := by
  have hloop : runLoop (untilNextOutput .callerDriven) (k + 1) s = (some .noOutput, afterStep s) := by
    simp [runLoop, untilNextOutput, ho]
  simp [runUntilNextOutput, hloop]

/-! ## The statements -/

/-- Settles O51: the store of `poke`, or its refusal, as the address is legal or not. -/
theorem pokeWritesOneCell : Obligations.PokeWritesOneCell := by
  intro s a x
  constructor
  · exact fun hout => hostDo_poke_of_illegal x s (legalAddress_eq_none.mpr hout)
  · exact fun h0 hle => hostDo_poke_of_legal x s (legalAddress_of_mem_range h0 hle)

/-- Settles O52: the read of `peek`, or its refusal, as the address is legal or not; the view answers its
own state. -/
theorem peekAndViewOnlyRead : Obligations.PeekAndViewOnlyRead := by
  intro s a
  refine ⟨fun hout => ?_, fun h0 hle => ?_, rfl⟩
  · exact hostDo_peek_of_illegal s (legalAddress_eq_none.mpr hout)
  · exact hostDo_peek_of_legal s (legalAddress_of_mem_range h0 hle)

/-- Settles O53: only `pop_output` looks at the queue before it acts; the others are their definitions. -/
theorem hostChannelOperations : Obligations.HostChannelOperations :=
  fun _ _ _ => ⟨rfl, hostDo_popOutput_of_nil, hostDo_popOutput_of_cons, rfl, rfl⟩

/-- Settles O56: the first attempt reports Halted and leaves the state, so the call ends there. -/
theorem nextOutputOfAHaltedCoreIsAbsent : Obligations.NextOutputOfAHaltedCoreIsAbsent := by
  refine ⟨fun own k s hip h0 hh => ?_, fun _ => nofun⟩
  have ho : outcome s = .halted :=
    outcome_of_status_halted (status_halted_iff.mpr ⟨h0, halted_iff.mp hh⟩)
  calc runUntilNextOutput own (k + 1) s = (.noOutput, afterStep s) :=
        runUntilNextOutput_of_outcome_halted own k ho
    _ = (.noOutput, s) := by rw [afterStep_of_halted h0 hip hh]

end Sys2Proof.Machine
end

section
/-! PROOFS of 60_exceptions.md: what an operation of the host, and an execution, can change on a faulted
core, and what reset leaves, then the statements about precise faults (R208) and about the way out of a
fault (R209). -/

namespace Sys2Proof.Machine

variable {XLEN : Nat}

/-! ## The faulted core (R209) -/

/-- R101, R209: a core with FAULT latched takes no step. -/
theorem step_of_faulted {s : State} (hf : s.FAULT ≠ 0#3) : step s = .next s :=
  (step_of_fetch s).1 (fetch_of_faulted hf)

/-- R209: on a faulted core an operation other than reset changes no more than Mem, the channels and the
hidden length. -/
theorem hostDo_of_faulted {op : HostOp XLEN} {s : State XLEN} (hf : s.FAULT ≠ 0#3)
    (hr : noReset [op] = true) :
    ∃ M q o m, (hostDo op s).2 = { s with Mem := M, INQ := q, OUTQ := o, MLEN := m } := by
  obtain rfl | ⟨a, x, n, -, -, -, h⟩ | ⟨q, o, m, -, h⟩ := hostDo_frame op s hr
  · have hidle : (hostDo .step s).2 = s := stepsFrom_of_faulted hf 1
    exact ⟨_, _, _, _, hidle⟩
  · exact ⟨_, _, _, _, congrArg Prod.snd h⟩
  · exact ⟨_, q, o, m, h⟩

/-- R209: nor does an execution without a reset, because FAULT stays latched after each operation. -/
theorem hostRun_of_faulted {ops : List (HostOp XLEN)} {s : State XLEN} (hf : s.FAULT ≠ 0#3)
    (hr : noReset ops = true) :
    ∃ M q o m, (hostRun ops s).2 = { s with Mem := M, INQ := q, OUTQ := o, MLEN := m } := by
  induction ops generalizing s with
  | nil => exact ⟨_, _, _, _, rfl⟩
  | cons op ops ih =>
    obtain ⟨hop, hops⟩ := noReset_cons.mp hr
    obtain ⟨M, q, o, m, hfirst⟩ := hostDo_of_faulted hf hop
    have hf' : (hostDo op s).2.FAULT ≠ 0#3 := by rwa [hfirst]
    obtain ⟨M', q', o', m', hrest⟩ := ih hf' hops
    rw [hfirst] at hrest
    exact ⟨M', q', o', m', by rw [hostRun, hfirst, hrest]⟩

/-! ## Reset (R240) -/

/-- R43: placing words on the tape changes no more than Mem and the hidden length. -/
theorem State.storeWords_frame (s : State XLEN) (a : Nat) (ws : List (Word XLEN)) :
    ∃ M m, s.storeWords a ws = { s with Mem := M, MLEN := m } := by
  induction ws generalizing s a with
  | nil => exact ⟨_, _, rfl⟩
  | cons w ws ih =>
    rw [State.storeWords]
    split
    · exact ih (s.store a w) (a + 1)
    · exact ⟨_, _, rfl⟩

/-- R27: FAULT is 0 after a reset with a program image. -/
theorem State.new_FAULT {P : List Int} {s : State XLEN} (h : State.new P = some s) :
    s.FAULT = 0#3 := by
  obtain ⟨-, rfl⟩ := State.new_eq_some h
  obtain ⟨M, m, hframe⟩ := (State.resetAt XLEN).storeWords_frame 0 (P.map (BitVec.ofInt XLEN))
  rw [hframe]
  rfl

/-- R171: reset with a program image is carried out. -/
theorem hostDo_new_of_some {P : List Int} {t : State XLEN} (h : State.new P = some t) (s : State XLEN) :
    hostDo (.new P) s = (.done, t) := by
  simp [hostDo, h]

/-! ## The statements -/

/-- Settles O14: a step that raises a fault changes FAULT, FINFO and the hidden length alone. -/
theorem faultsArePrecise : Obligations.FaultsArePrecise := by
  intro s t h0 hstep hf
  rw [step_of_fault hstep h0 hf]
  exact ⟨rfl, rfl, rfl, rfl, rfl⟩

/-- Settles O15: on a faulted core every execution without a reset keeps the registers, a step does nothing,
the host's writes are those of any core, and reset starts from the reset state. -/
theorem onlyResetClearsAFault : Obligations.OnlyResetClearsAFault := by
  refine ⟨fun ops s hf hr => ?_, fun s => step_of_faulted, fun s a x _ ha => ⟨?_, rfl⟩,
    fun P s t h => ⟨hostDo_new_of_some h s, State.new_FAULT h⟩⟩
  · obtain ⟨M, q, o, m, h⟩ := hostRun_of_faulted hf hr
    rw [h]
    exact ⟨rfl, rfl, rfl, rfl⟩
  · exact hostDo_poke_of_legal x s (legalAddress_eq_some.mpr ⟨rfl, ha⟩)

end Sys2Proof.Machine
end

section
/-! PROOFS of 30_encoding.md, the round trip: the head of an instruction, the words that decode to it, and
the lists of words that decode to an instruction, then the statements about the decoder and the encoder. -/

namespace Sys2Proof

open Sys2Proof.Machine

variable {XLEN : Nat}

/-! ## The head of an instruction -/

/-- The mode of operand `k` of an instruction, `position` above its operand count as in a decoded head. -/
def Instr.modeAt (i : Instr XLEN) (k : Nat) : Mode := (i.operands[k - 1]?).elim .position Operand.mode

/-- What the canonical word of an instruction says. -/
def Instr.head (i : Instr XLEN) : Head := ⟨i.opcode, i.modeAt 1, i.modeAt 2, i.modeAt 3⟩

@[simp] theorem Instr.head_op (i : Instr XLEN) : i.head.op = i.opcode := rfl

theorem Instr.head_mode (i : Instr XLEN) {k : Nat} (h1 : 1 ≤ k) (h3 : k ≤ 3) :
    i.head.mode k = i.modeAt k := by
  obtain rfl | rfl | rfl : k = 1 ∨ k = 2 ∨ k = 3 := by omega
  · rfl
  · rfl
  · rfl

/-- R74: an instruction has as many operands as its opcode says. -/
theorem Instr.length_operands (i : Instr XLEN) : i.operands.length = i.opcode.operandCount := by
  cases i <;> rfl

theorem Instr.operandCount_opcode (i : Instr XLEN) : i.opcode.operandCount = i.operandCount := by
  cases i <;> rfl

theorem Instr.opcode_eq_halt {i : Instr XLEN} : i.opcode = .halt ↔ i = .halt := by
  cases i <;> simp [Instr.opcode]

theorem Opcode.operandCount_le (op : Opcode) : op.operandCount ≤ 3 := by cases op <;> decide

/-- R73: only mode 1 cannot be written to. -/
theorem Operand.writable_iff {o : Operand XLEN} : o.writable = true ↔ o.mode ≠ .immediate := by
  unfold Operand.writable
  cases o.mode <;> simp

/-- R80: an instruction is well formed exactly if its destination operand is not in mode 1. -/
theorem Instr.wf_iff {i : Instr XLEN} :
    i.wf = true ↔ ∀ d, i.opcode.destination? = some d → i.head.mode d ≠ .immediate := by
  cases i <;>
    simp [Instr.wf, Instr.opcode, Opcode.destination?, Operand.writable_iff, Instr.head, Head.mode,
      Instr.modeAt, Instr.operands]

/-- A head gives back itself from its instruction, if it names no mode the opcode has no operand for. -/
theorem Head.head_instr {h : Head} (r : Nat → Word XLEN)
    (hpos : ∀ k, h.op.operandCount < k → k ≤ 3 → h.mode k = .position) : (h.instr r).head = h := by
  obtain ⟨op, m1, m2, m3⟩ := h
  have h1 : op.operandCount < 1 → m1 = .position := fun h => hpos 1 h (by decide)
  have h2 : op.operandCount < 2 → m2 = .position := fun h => hpos 2 h (by decide)
  have h3 : op.operandCount < 3 → m3 = .position := fun h => hpos 3 h (by decide)
  clear hpos
  cases op <;>
    simp_all [Head.instr, Instr.head, Instr.opcode, Instr.modeAt, Instr.operands, Opcode.operandCount]

/-- The raw values of a head's instruction are the words it was given, in order. -/
theorem Head.raws_instr (h : Head) (r : Nat → Word XLEN) :
    (h.instr r).operands.map Operand.raw = (List.range h.op.operandCount).map fun k => r (k + 1) := by
  obtain ⟨op, m1, m2, m3⟩ := h
  cases op <;> rfl

/-- An instruction is its head with its raw values. -/
theorem Instr.instr_head (i : Instr XLEN) (rest : List (Word XLEN)) :
    i.head.instr (fun k => (i.operands.map Operand.raw ++ rest).getD (k - 1) 0) = i := by
  cases i <;> rfl

/-! ## The words that decode to a head -/

/-- R71: the low digits of a number are those of a list of operands exactly if each digit is the mode of
its operand. -/
theorem modeDigits_eq_iff {os : List (Operand XLEN)} {n : Nat} :
    n % 10 ^ os.length = modeDigits os ↔ ∀ j (h : j < os.length), dig j n = os[j].mode.digit := by
  induction os generalizing n with
  | nil => simp [modeDigits, Nat.mod_one]
  | cons o os ih =>
    have hlow := o.mode.digit_le
    have hdig (j : Nat) : dig (j + 1) n = dig j (n / 10) := by
      rw [dig, dig, Nat.pow_succ', Nat.div_div_eq_div_mul]
    have hzero : dig 0 n = n % 10 := by simp [dig]
    calc n % 10 ^ (o :: os).length = modeDigits (o :: os)
        ↔ n % 10 + 10 * (n / 10 % 10 ^ os.length) = o.mode.digit + 10 * modeDigits os := by
          rw [List.length_cons, Nat.pow_succ', Nat.mod_mul, modeDigits]
      _ ↔ dig 0 n = o.mode.digit ∧ n / 10 % 10 ^ os.length = modeDigits os := by omega
      _ ↔ ∀ j (h : j < (o :: os).length), dig j n = (o :: os)[j].mode.digit := by
          rw [ih]
          constructor
          · rintro ⟨h0, hs⟩ (_ | j) h
            · exact h0
            · exact (hdig j).trans (hs j (by simpa using h))
          · intro h
            exact ⟨h 0 (by simp), fun j hj => (hdig j).symm.trans (h (j + 1) (by simpa using hj))⟩

theorem Mode.modeOfDigit_digit (m : Mode) : modeOfDigit m.digit = some m := by cases m <;> rfl

/-- R81: the mode of operand `j` is read from its digit, if there is such an operand. -/
theorem operandMode_eq_some_iff {op : Opcode} {j n : Nat} {m : Mode} :
    operandMode op j n = some m ↔
      if j ≤ op.operandCount then dig (j + 1) n = m.digit else m = .position := by
  unfold operandMode
  split
  · exact ⟨modeOfDigit_eq_some, fun h => by rw [h, m.modeOfDigit_digit]⟩
  · simp [eq_comm]

/-- R84: the tests let a head through if it names each operand's mode and no immediate destination. -/
theorem decodeModes_eq_ok_iff {op : Opcode} {n : Nat} {h : Head} :
    decodeModes op n = .ok h ↔
      h.op = op ∧ (∀ j, 1 ≤ j → j ≤ 3 → operandMode op j n = some (h.mode j)) ∧
        ∀ d, op.destination? = some d → h.mode d ≠ .immediate := by
  constructor
  · intro hok
    unfold decodeModes at hok
    split at hok
    · cases hok
    · rename_i m1 h1
      split at hok
      · cases hok
      · rename_i m2 h2
        split at hok
        · cases hok
        · rename_i m3 h3
          obtain ⟨rfl, hd⟩ := checkDestination_ok hok
          refine ⟨rfl, fun j hj hj3 => ?_, hd⟩
          obtain rfl | rfl | rfl : j = 1 ∨ j = 2 ∨ j = 3 := by omega
          · exact h1
          · exact h2
          · exact h3
  · rintro ⟨rfl, hm, hd⟩
    have hc : checkDestination h = .ok h := by
      obtain ⟨d, hd', him, -⟩ | ⟨-, hc⟩ := checkDestination_cases h
      · exact absurd him (hd d hd')
      · exact hc
    simp only [decodeModes, hm 1 (by decide) (by decide), hm 2 (by decide) (by decide),
      hm 3 (by decide) (by decide)]
    exact hc

/-- A decoded head is that of its instruction, whatever the raw values. -/
theorem head_instr_of_decodeWord {W : Word XLEN} {h : Head} (hW : decodeWord W = .ok h)
    (r : Nat → Word XLEN) : (h.instr r).head = h := by
  refine Head.head_instr r fun k hk hk3 => ?_
  obtain ⟨-, heq⟩ | ⟨-, -, heq⟩ | ⟨-, op, -, heq⟩ := decodeWord_cases W
  · cases heq.symm.trans hW
    obtain rfl | rfl | rfl : k = 1 ∨ k = 2 ∨ k = 3 := by
      simp only [Opcode.operandCount] at hk
      omega
    · rfl
    · rfl
    · rfl
  · cases heq.symm.trans hW
  · obtain ⟨rfl, hm, -⟩ := decodeModes_eq_ok_iff.mp (heq.symm.trans hW)
    simpa [Nat.not_le.mpr hk] using operandMode_eq_some_iff.mp (hm k (by omega) hk3)

/-- R71, R81: the examined digits of a number are those of the canonical word of `i` exactly if its opcode
field is that of `i` and every operand's mode is read from it as `i` has it. -/
theorem examined_digits_iff (i : Instr XLEN) (n : Nat) :
    n % 10 ^ (i.opcode.operandCount + 2) = i.opcode.code + 100 * modeDigits i.operands ↔
      n % 100 = i.opcode.code ∧
        ∀ j, 1 ≤ j → j ≤ 3 → operandMode i.opcode j n = some (i.head.mode j) := by
  have hcode : i.opcode.code < 100 := by cases i.opcode <;> decide
  have hdig (j : Nat) : dig j (n / 100) = dig (j + 1 + 1) n := by
    rw [dig, dig, Nat.pow_succ', Nat.pow_succ', ← Nat.mul_assoc, Nat.div_div_eq_div_mul]
  calc n % 10 ^ (i.opcode.operandCount + 2) = i.opcode.code + 100 * modeDigits i.operands
      ↔ n % 100 + 100 * (n / 100 % 10 ^ i.operands.length) =
          i.opcode.code + 100 * modeDigits i.operands := by
        rw [← i.length_operands, Nat.pow_add, Nat.mul_comm, Nat.mod_mul]
    _ ↔ n % 100 = i.opcode.code ∧ n / 100 % 10 ^ i.operands.length = modeDigits i.operands := by omega
    _ ↔ n % 100 = i.opcode.code ∧
          ∀ j, 1 ≤ j → j ≤ 3 → operandMode i.opcode j n = some (i.head.mode j) := by
        rw [modeDigits_eq_iff]
        refine and_congr_right fun _ => ⟨fun h j h1 h3 => ?_, fun h j hj => ?_⟩
        · obtain ⟨k, rfl⟩ := Nat.exists_eq_add_of_le' h1
          rw [operandMode_eq_some_iff, i.head_mode h1 h3, ← i.length_operands]
          split
          · rename_i hk
            rw [← hdig, h k hk]
            simp [Instr.modeAt, List.getElem?_eq_getElem hk]
          · rename_i hk
            simp [Instr.modeAt, List.getElem?_eq_none (Nat.not_lt.mp hk)]
        · have hle := i.opcode.operandCount_le
          have hlen := i.length_operands
          have hm := operandMode_eq_some_iff.mp (h (j + 1) (by omega) (by omega))
          rw [if_pos (by omega), i.head_mode (by omega) (by omega)] at hm
          rw [hdig, hm]
          simp [Instr.modeAt, List.getElem?_eq_getElem hj]

/-- R77, R81, R84: which words decode to the head of an instruction. -/
theorem decodeWord_eq_head_iff {W : Word XLEN} {i : Instr XLEN} :
    decodeWord W = .ok i.head ↔
      i.wf = true ∧ 0 ≤ W.toInt ∧
        W.toNat % 10 ^ (i.opcode.operandCount + 2) = i.opcode.code + 100 * modeDigits i.operands ∧
        (i = .halt → W.toInt = 99) := by
  rw [examined_digits_iff, Instr.wf_iff]
  constructor
  · intro hW
    obtain ⟨h99, heq⟩ | ⟨-, -, heq⟩ | ⟨h0, op, hop, heq⟩ := decodeWord_cases W
    · have hh := (Except.ok.inj (heq.symm.trans hW)).symm
      have hop : i.opcode = .halt := congrArg Head.op hh
      have hn : W.toNat = 99 := by
        have := toInt_cases (w := W)
        omega
      rw [hh, hop, hn, h99]
      refine ⟨nofun, by decide, ⟨rfl, fun j h1 h3 => ?_⟩, fun _ => rfl⟩
      obtain rfl | rfl | rfl : j = 1 ∨ j = 2 ∨ j = 3 := by omega
      · rfl
      · rfl
      · rfl
    · cases heq.symm.trans hW
    · obtain ⟨rfl, hm, hd⟩ := decodeModes_eq_ok_iff.mp (heq.symm.trans hW)
      obtain ⟨hf, hne⟩ := opcodeOfField_eq_some.mp hop
      exact ⟨hd, h0, ⟨hf, hm⟩, fun hi => absurd (congrArg Instr.opcode hi) hne⟩
  · rintro ⟨hd, h0, ⟨hf, hm⟩, h99⟩
    by_cases hi : i = .halt
    · rw [decodeWord_of_toInt_eq_99 (h99 hi), hi]
      rfl
    · have hne : i.opcode ≠ .halt := mt Instr.opcode_eq_halt.mp hi
      rw [decodeWord_of_field h0 (opcodeOfField_eq_some.mpr ⟨hf, hne⟩)]
      exact decodeModes_eq_ok_iff.mpr ⟨rfl, hm, hd⟩

/-! ## The lists of words that decode to an instruction -/

/-- R70, R75: everything `decode` accepts. -/
theorem decode_cons_eq_ok {W : Word XLEN} {ws rest : List (Word XLEN)} {i : Instr XLEN} :
    decode (W :: ws) = .ok (i, rest) ↔
      ∃ h, decodeWord W = .ok h ∧ h.op.operandCount ≤ ws.length ∧
        h.instr (fun k => ws.getD (k - 1) 0) = i ∧ ws.drop h.op.operandCount = rest := by
  cases hW : decodeWord W with
  | error f => simp [decode, hW]
  | ok h =>
    by_cases hlen : ws.length < h.op.operandCount
    · simp [decode, hW, hlen]
    · simp [decode, hW, hlen, Nat.not_lt.mp hlen]

/-- The first `n` words of a list that has them, taken one by one. -/
theorem map_getD_range {ws : List (Word XLEN)} {n : Nat} (h : n ≤ ws.length) :
    ((List.range n).map fun k => ws.getD k 0) = ws.take n := by
  refine List.ext_getElem (by simpa using h) fun j hj _ => ?_
  have hj' : j < n := by simpa using hj
  simp [List.getElem?_eq_getElem (Nat.lt_of_lt_of_le hj' h)]

/-- A list of words decodes to `i` exactly if its first word says `i`'s head and the raw values follow. -/
theorem decode_cons_eq_ok_iff {W : Word XLEN} {ws rest : List (Word XLEN)} {i : Instr XLEN} :
    decode (W :: ws) = .ok (i, rest) ↔
      decodeWord W = .ok i.head ∧ ws = i.operands.map Operand.raw ++ rest := by
  rw [decode_cons_eq_ok]
  constructor
  · rintro ⟨h, hW, hlen, rfl, rfl⟩
    refine ⟨by rw [head_instr_of_decodeWord hW]; exact hW, ?_⟩
    rw [Head.raws_instr]
    simp only [Nat.add_sub_cancel, map_getD_range hlen, List.take_append_drop]
  · rintro ⟨hW, rfl⟩
    have hlen : (i.operands.map Operand.raw).length = i.head.op.operandCount := by
      rw [List.length_map, i.length_operands, Instr.head_op]
    refine ⟨i.head, hW, ?_, i.instr_head rest, ?_⟩
    · rw [← hlen, List.length_append]
      exact Nat.le_add_right _ _
    · rw [← hlen, List.drop_left]

end Sys2Proof

namespace Sys2Proof.Machine

/-! ## The statements -/

/-- Settles O3: a list decodes to `i` by its first word's head, and the examined digits give the head. -/
theorem decoderAcceptsExactlyTheEncodings : Obligations.DecoderAcceptsExactlyTheEncodings := by
  intro W ws rest i
  rw [decode_cons_eq_ok_iff, decodeWord_eq_head_iff, encodeHead_toNat, i.operandCount_opcode]
  tauto

/-- R85: the canonical word of an instruction has no digits but those the decoder examines. -/
theorem encodeHead_toNat_lt (i : Instr) : (encodeHead i).toNat < 10 ^ (i.operandCount + 2) := by
  have hcode : i.opcode.code < 100 := by cases i.opcode <;> decide
  have hdigits := modeDigits_lt i.operands
  rw [i.length_operands, i.operandCount_opcode] at hdigits
  rw [encodeHead_toNat, Nat.pow_add]
  omega

/-- A canonical word is not negative. -/
theorem encodeHead_toInt (i : Instr) : (encodeHead i).toInt = (encodeHead i).toNat := by
  have hlt : (encodeHead i).toNat < 100000 := by
    rw [encodeHead_toNat]
    exact encodeHead_number_lt i
  have hmax : 100000 ≤ Config.ADDR_MAX := by decide
  have := toInt_cases (w := encodeHead i)
  omega

/-- Settles O2: the canonical word meets the conditions of `decoderAcceptsExactlyTheEncodings`. -/
theorem decodeOfEncodeIsIdentity : Obligations.DecodeOfEncodeIsIdentity := by
  intro i rest hwf
  refine (decoderAcceptsExactlyTheEncodings _ _ _ _).mpr ⟨hwf, rfl, ?_, ?_, ?_⟩
  · rw [encodeHead_toInt]
    exact Int.natCast_nonneg _
  · exact Nat.mod_eq_of_lt (encodeHead_toNat_lt i)
  · rintro rfl
    rfl

/-- Settles O1, by evaluation. -/
theorem specWordsDecode : Obligations.SpecWordsDecode := by
  unfold Obligations.SpecWordsDecode
  decide

end Sys2Proof.Machine
end

section
/-! PROOFS of 10_state.md and 20_memory.md, the invariant: each update of the state keeps it, so every
instruction, step and host operation does; and the hidden length, which never shrinks (R44). -/

namespace Sys2Proof.Machine

variable {XLEN : Nat}

/-! ## The cells in use lie below the hidden length -/

theorem Memory.below_mono {m : Memory XLEN} {n n' : Nat} (h : m.below n = true) (hle : n ≤ n') :
    m.below n' = true := by
  simp only [Memory.below, List.all_eq_true, decide_eq_true_eq] at h ⊢
  exact fun c hc => Nat.lt_of_lt_of_le (h c hc) hle

theorem Memory.mem_write {m : Memory XLEN} {a : Nat} {v : Word XLEN} {c : Cell XLEN}
    (h : c ∈ m.write a v) : c ∈ m ∨ c = (a, v) := by
  induction m with
  | nil =>
    simp only [Memory.write] at h
    split at h
    · exact .inl h
    · exact .inr (List.mem_singleton.mp h)
  | cons d m ih =>
    obtain ⟨k, w⟩ := d
    simp only [Memory.write] at h
    split at h
    · split at h
      · exact .inl h
      · exact (List.mem_cons.mp h).symm
    · split at h
      · split at h
        · exact .inl (List.mem_cons_of_mem _ h)
        · exact (List.mem_cons.mp h).symm.imp (List.mem_cons_of_mem _) id
      · obtain rfl | hc := List.mem_cons.mp h
        · exact .inl List.mem_cons_self
        · exact (ih hc).imp (List.mem_cons_of_mem _) id

/-- A write uses no cell above the one it writes. -/
theorem Memory.below_write {m : Memory XLEN} {n : Nat} (a : Nat) (v : Word XLEN)
    (h : m.below n = true) : (m.write a v).below (max n (a + 1)) = true := by
  simp only [Memory.below, List.all_eq_true, decide_eq_true_eq] at h ⊢
  intro c hc
  obtain hc | rfl := Memory.mem_write hc
  · exact Nat.lt_of_lt_of_le (h c hc) (Nat.le_max_left _ _)
  · exact Nat.lt_of_lt_of_le (Nat.lt_succ_self a) (Nat.le_max_right _ _)

/-! ## Each update keeps the invariant -/

section
variable {s : State XLEN} (h : s.Inv)
include h

/-- R44: the hidden length may grow up to the size of the address space. -/
theorem State.Inv.grow {m : Nat} (hm : Grown s m) : ({ s with MLEN := m } : State XLEN).Inv := by
  obtain ⟨hwf, hip, hpair, hbelow, hlen⟩ := h
  obtain ⟨hle, hmax⟩ := hm
  exact ⟨hwf, hip, hpair, Memory.below_mono hbelow hle, by
    rw [Nat.max_eq_right hlen] at hmax
    exact hmax⟩

theorem State.Inv.touch {a : Nat} (ha : a ≤ Config.ADDR_MAX XLEN) : (s.touch a).Inv :=
  State.Inv.grow h (m := max s.MLEN (a + 1)) ⟨Nat.le_max_left _ _, by omega⟩

/-- R207: FAULT and FINFO become a pair of the table. -/
theorem State.Inv.raise {f : Fault} (hf : f.ok) : (s.raise f).Inv := by
  obtain ⟨hwf, hip, -, hbelow, hlen⟩ := h
  exact ⟨hwf, hip, hf, hbelow, hlen⟩

theorem State.Inv.store {a : Nat} (v : Word XLEN) (ha : a ≤ Config.ADDR_MAX XLEN) :
    (s.store a v).Inv := by
  obtain ⟨hwf, hip, hpair, hbelow, hlen⟩ := h
  exact ⟨Memory.wf_write v hwf ha, hip, hpair, Memory.below_write a v hbelow,
    Nat.max_le.mpr ⟨hlen, Nat.succ_le_succ ha⟩⟩

/-- R12: IP is set to a legal address. -/
theorem State.Inv.setIP {a : Nat} (ha : a ≤ Config.ADDR_MAX XLEN) : (s.setIP a).Inv := by
  obtain ⟨hwf, -, hpair, hbelow, hlen⟩ := h
  exact ⟨hwf, (toNat_ofNat_addr ha).trans_le ha, hpair, hbelow, hlen⟩

theorem State.Inv.storeWords (a : Nat) (ws : List (Word XLEN)) : (s.storeWords a ws).Inv := by
  induction ws generalizing s a with
  | nil => exact h
  | cons w ws ih =>
    rw [State.storeWords]
    split
    · rename_i ha
      exact ih (State.Inv.store h w ha) (a + 1)
    · exact h

end

/-! ## Steps and host operations -/

/-- Every instruction keeps the invariant: it looks at neither RB nor the channels. -/
theorem Effect.keeps_inv {i : Instr XLEN} {s t : State XLEN} (h : Effect i s t) (hs : s.Inv) : t.Inv := by
  cases h with
  | fault f m hf hm => exact (State.Inv.grow hs hm).raise hf
  | halt => exact hs
  | hold => exact hs
  | input e x q hc he hi hq => exact (State.Inv.store hs x (cellOf_le he)).setIP hi
  | output v m hm hv hi => exact (State.Inv.grow hs hm).setIP hi
  | rebase v m hm hv hi => exact (State.Inv.grow hs hm).setIP hi
  | jump x y e m hj hm hx hy hp he =>
    exact (State.Inv.grow hs hm).setIP (legalAddress_eq_some.mp he).2
  | fallThrough x y m hj hm hx hy hp hi => exact (State.Inv.grow hs hm).setIP hi
  | store x y e m hst hm hx hy he hi =>
    exact ((State.Inv.grow hs hm).store _ (cellOf_le he)).setIP hi

theorem stepAt_keeps_inv {s t : State XLEN} (hs : s.Inv) (h : stepAt s = .next t) : t.Inv := by
  obtain ⟨-, rfl⟩ | ⟨-, f, m, hf, hm, -, rfl⟩ | ⟨-, -, i, m, hm, -, he⟩ := stepAt_cases h
  · exact hs
  · exact (State.Inv.grow hs hm).raise hf
  · exact he.keeps_inv (State.Inv.grow hs hm)

theorem afterStep_inv {s : State XLEN} (hs : s.Inv) : (afterStep s).Inv := by
  obtain ⟨t, ht⟩ := stepAt_next s
  rw [afterStep_of_stepAt ht]
  exact stepAt_keeps_inv hs ht

/-- R27: the state after reset with the empty image meets the invariant at every width. -/
theorem State.resetAt_inv : (State.resetAt XLEN).Inv := by
  have hip : (0#XLEN).toNat = 0 := BitVec.toNat_zero
  exact ⟨rfl, hip.trans_le (Nat.zero_le _), rfl, rfl, Nat.zero_le _⟩

/-- R27, R240: so does the state after reset with any image. -/
theorem State.new_inv {P : List Int} {s : State XLEN} (h : State.new P = some s) : s.Inv := by
  obtain ⟨-, rfl⟩ := State.new_eq_some h
  exact State.resetAt_inv.storeWords 0 _

/-- R175: `pop_output` leaves OUTQ without its oldest word, if it has one. -/
theorem hostDo_popOutput_state (s : State XLEN) :
    (hostDo .popOutput s).2 = { s with OUTQ := s.OUTQ.tail } := by
  cases hq : s.OUTQ with
  | nil =>
    rw [hostDo_popOutput_of_nil hq, List.tail_nil, ← hq]
  | cons x q => rw [hostDo_popOutput_of_cons hq, List.tail_cons]

/-- R171: what is no program image is refused. -/
theorem hostDo_new_of_none {P : List Int} (h : (State.new P : Option (State XLEN)) = none)
    (s : State XLEN) : hostDo (.new P) s = (.refused, s) := by
  simp [hostDo, h]

/-- R171 to R179: every host operation keeps the invariant. -/
theorem hostDo_inv (op : HostOp XLEN) {s : State XLEN} (hs : s.Inv) : (hostDo op s).2.Inv := by
  cases op with
  | new P =>
    cases hn : (State.new P : Option (State XLEN)) with
    | none => rwa [hostDo_new_of_none hn]
    | some t => rw [hostDo_new_of_some hn]; exact State.new_inv hn
  | poke a x =>
    cases hl : legalAddress XLEN a with
    | none => rwa [hostDo_poke_of_illegal x s hl]
    | some n =>
      rw [hostDo_poke_of_legal x s hl]
      exact State.Inv.store hs x (legalAddress_eq_some.mp hl).2
  | peek a =>
    cases hl : legalAddress XLEN a with
    | none => rwa [hostDo_peek_of_illegal s hl]
    | some n =>
      rw [hostDo_peek_of_legal s hl]
      exact State.Inv.touch hs (legalAddress_eq_some.mp hl).2
  | popOutput =>
    rw [hostDo_popOutput_state]
    exact hs
  | isHalted => exact State.Inv.touch hs hs.2.1
  | step => exact afterStep_inv hs
  | view => exact hs
  | pushInput x => exact hs
  | drainOutputs => exact hs
  | clearInput => exact hs

/-! ## The hidden length (R44) -/

theorem Effect.MLEN_le {i : Instr XLEN} {s t : State XLEN} (h : Effect i s t) : s.MLEN ≤ t.MLEN := by
  cases h with
  | fault f m hf hm => exact hm.1
  | halt => exact Nat.le_refl _
  | hold => exact Nat.le_refl _
  | input e => exact Nat.le_max_left _ _
  | output v m hm => exact hm.1
  | rebase v m hm => exact hm.1
  | jump x y e m hj hm => exact hm.1
  | fallThrough x y m hj hm => exact hm.1
  | store x y e m hst hm => exact Nat.le_trans hm.1 (Nat.le_max_left _ _)

theorem afterStep_MLEN_le (s : State XLEN) : s.MLEN ≤ (afterStep s).MLEN := by
  obtain ⟨t, ht⟩ := stepAt_next s
  rw [afterStep_of_stepAt ht]
  obtain ⟨-, rfl⟩ | ⟨-, f, m, -, hm, -, rfl⟩ | ⟨-, -, i, m, hm, -, he⟩ := stepAt_cases ht
  · exact Nat.le_refl _
  · exact hm.1
  · exact Nat.le_trans hm.1 he.MLEN_le

theorem hostDo_MLEN_le {op : HostOp XLEN} (s : State XLEN) (hr : noReset [op] = true) :
    s.MLEN ≤ (hostDo op s).2.MLEN := by
  obtain rfl | ⟨a, x, n, -, -, -, h⟩ | ⟨q, o, m, hm, h⟩ := hostDo_frame op s hr
  · exact afterStep_MLEN_le s
  · rw [h]
    exact Nat.le_max_left _ _
  · rw [h]
    exact hm

/-! ## The statements -/

/-- Settles O23: every effect of an instruction, and every fault of the fetch, keeps the invariant. -/
theorem stepKeepsTheInvariant : Obligations.StepKeepsTheInvariant :=
  fun s _ hs h => stepAt_keeps_inv hs ((stepAt_eq_step s).trans h)

/-- Settles O24, by induction on the operations. -/
theorem hostOperationsKeepTheInvariant : Obligations.HostOperationsKeepTheInvariant := by
  intro XLEN _ ops s hs
  induction ops generalizing s with
  | nil => exact hs
  | cons op ops ih => exact ih _ (hostDo_inv op hs)

/-- Settles O22: the reset state of every width meets the invariant. -/
theorem resetMeetsTheInvariant : Obligations.ResetMeetsTheInvariant := State.resetAt_inv

/-- Settles O27, by induction on the operations. -/
theorem tapeLengthNeverShrinks : Obligations.TapeLengthNeverShrinks := by
  intro ops s hr
  induction ops generalizing s with
  | nil => exact Nat.le_refl _
  | cons op ops ih =>
    obtain ⟨hop, hops⟩ := noReset_cons.mp hr
    exact Nat.le_trans (hostDo_MLEN_le s hop) (ih _ hops)

end Sys2Proof.Machine
end

section
/-! PROOFS of 42_input_output.md, the traffic of the channels: what a step takes from INQ and appends to
OUTQ, then the statements about a step (10_state.md section 8) and about an execution (R132). -/

namespace Sys2Proof.Machine

variable {XLEN : Nat}

/-! ## What an instruction takes and appends -/

/-- R19: no instruction but IN takes from INQ. -/
theorem Effect.keeps_INQ {i : Instr XLEN} {s t : State XLEN} (h : Effect i s t) (hi : ∀ d, i ≠ .inp d) :
    t.INQ = s.INQ := by
  cases h with
  | input => exact absurd rfl (hi _)
  | _ => rfl

/-- R20: no instruction but OUT appends to OUTQ. -/
theorem Effect.keeps_OUTQ {i : Instr XLEN} {s t : State XLEN} (h : Effect i s t) (hi : ∀ a, i ≠ .out a) :
    t.OUTQ = s.OUTQ := by
  cases h with
  | output => exact absurd rfl (hi _)
  | _ => rfl

/-- R130: IN takes the head of INQ if it raises no fault and does not hold. -/
theorem execIn_INQ {d : Operand XLEN} {s t : State XLEN} (h : execIn d s = .next t) :
    s.INQ = (inputOf (.inp d) s).join.toList ++ t.INQ := by
  cases hc : inputCell d s with
  | error f =>
    cases (execIn_of_error hc).symm.trans h
    simp [inputOf, hc]
  | ok e =>
    cases hq : s.INQ with
    | nil =>
      cases (execIn_hold hc hq).symm.trans h
      simp [inputOf, hc, hq]
    | cons x q =>
      cases (execIn_takes hc hq).symm.trans h
      simp [inputOf, hc, hq]

/-- R131: OUT appends its value if it raises no fault. -/
theorem execOut_OUTQ {a : Operand XLEN} {s t : State XLEN} (h : execOut a s = .next t) :
    t.OUTQ = s.OUTQ ++ (outputOf (.out a) s).toList := by
  cases hv : sourceValue a s with
  | none =>
    cases (execOut_of_source_none hv).symm.trans h
    simp [outputOf, hv]
  | some v =>
    by_cases hi : s.IP.toNat + 2 ≤ Config.ADDR_MAX XLEN
    · obtain ⟨m, hm⟩ := execOut_completes hv hi
      cases hm.symm.trans h
      simp [outputOf, hv, hi]
    · obtain ⟨m, hm⟩ := execOut_above hv (Nat.not_le.mp hi)
      cases hm.symm.trans h
      simp [outputOf, hi]

/-- What an instruction takes from INQ is the word `inputOf` gives, if it gives one. -/
theorem execAt_INQ {i : Instr XLEN} {s t : State XLEN} (h : execAt i s = .next t) :
    s.INQ = (inputOf i s).join.toList ++ t.INQ := by
  have hkeep (hi : ∀ d, i ≠ .inp d) : t.INQ = s.INQ := (execAt_effect h).keeps_INQ hi
  cases i with
  | inp d => exact execIn_INQ h
  | _ => exact (hkeep nofun).symm

/-- What an instruction appends to OUTQ is the word `outputOf` gives, if it gives one. -/
theorem execAt_OUTQ {i : Instr XLEN} {s t : State XLEN} (h : execAt i s = .next t) :
    t.OUTQ = s.OUTQ ++ (outputOf i s).toList := by
  have hkeep (hi : ∀ a, i ≠ .out a) : t.OUTQ = s.OUTQ := (execAt_effect h).keeps_OUTQ hi
  cases i with
  | out a => exact execOut_OUTQ h
  | _ => exact (hkeep nofun).trans (List.append_nil _).symm

/-! ## What a step takes and appends -/

/-- A step takes from INQ the word `nextInput` gives, and appends to OUTQ the word `nextOutput` gives. -/
theorem stepAt_channels {s t : State XLEN} (h : stepAt s = .next t) :
    s.INQ = (nextInput s).join.toList ++ t.INQ ∧ t.OUTQ = s.OUTQ ++ (nextOutput s).toList := by
  obtain ⟨hidle, hraises, hrun⟩ := stepAt_of_fetch s
  cases hf : fetch s with
  | idle =>
    cases (hidle hf).symm.trans h
    simp [nextInput, nextOutput, hf]
  | raises f u =>
    obtain ⟨-, -, m, -, rfl⟩ := fetch_raises_state hf
    cases (hraises _ _ hf).symm.trans h
    simp [nextInput, nextOutput, hf]
  | run i u =>
    have hexec := (hrun _ _ hf).symm.trans h
    obtain ⟨-, -, m, -, rfl⟩ := fetch_run_state hf
    simp only [nextInput, nextOutput, hf]
    exact ⟨execAt_INQ hexec, execAt_OUTQ hexec⟩

theorem afterStep_channels (s : State XLEN) :
    s.INQ = (nextInput s).join.toList ++ (afterStep s).INQ ∧
      (afterStep s).OUTQ = s.OUTQ ++ (nextOutput s).toList := by
  obtain ⟨t, ht⟩ := stepAt_next s
  rw [afterStep_of_stepAt ht]
  exact stepAt_channels ht

/-! ## The traffic of operations -/

/-- The words that leave INQ in a step are the one it takes, if it takes one. -/
theorem trafficOf_step_left (s : State XLEN) :
    (trafficOf .step s).left.map Prod.snd = (nextInput s).join.toList := by
  obtain h | h | ⟨x, h⟩ :
      nextInput s = none ∨ nextInput s = some none ∨ ∃ x, nextInput s = some (some x) := by
    cases nextInput s with
    | none => exact .inl rfl
    | some r => cases r with
      | none => exact .inr (.inl rfl)
      | some x => exact .inr (.inr ⟨x, rfl⟩)
  · simp [trafficOf, h]
  · simp [trafficOf, h]
  · simp [trafficOf, h]

/-- R132 for one operation. -/
theorem hostDo_traffic {op : HostOp XLEN} (s : State XLEN) (hr : noReset [op] = true) :
    s.INQ ++ (trafficOf op s).pushed = (trafficOf op s).left.map Prod.snd ++ (hostDo op s).2.INQ ∧
      s.OUTQ ++ (trafficOf op s).sent = (trafficOf op s).removed ++ (hostDo op s).2.OUTQ := by
  cases op with
  | new P => cases hr
  | poke a x =>
    cases hl : legalAddress XLEN a with
    | none => simp [hostDo_poke_of_illegal x s hl, trafficOf]
    | some n => simp [hostDo_poke_of_legal x s hl, trafficOf]
  | peek a =>
    cases hl : legalAddress XLEN a with
    | none => simp [hostDo_peek_of_illegal s hl, trafficOf]
    | some n => simp [hostDo_peek_of_legal s hl, trafficOf]
  | popOutput =>
    cases hq : s.OUTQ with
    | nil => simp [hostDo_popOutput_of_nil hq, trafficOf, State.popOutput, hq]
    | cons x q => simp [hostDo_popOutput_of_cons hq, trafficOf, State.popOutput, hq]
  | step =>
    obtain ⟨hin, hout⟩ := afterStep_channels s
    constructor
    · rw [trafficOf_step_left]
      exact (List.append_nil _).trans hin
    · exact hout.symm
  | view => simp [hostDo, trafficOf]
  | pushInput x => simp [hostDo, trafficOf]
  | drainOutputs => simp [hostDo, trafficOf, State.drainOutputs]
  | clearInput => simp [hostDo, trafficOf]
  | isHalted => simp [hostDo, trafficOf]

/-! ## The statements -/

/-- Settles O47, by induction on the operations. -/
theorem channelTrafficIsFifo : Obligations.ChannelTrafficIsFifo := by
  intro ops s hr
  induction ops generalizing s with
  | nil => simp [traffic, hostRun]
  | cons op ops ih =>
    obtain ⟨hop, hops⟩ := noReset_cons.mp hr
    obtain ⟨hin, hout⟩ := hostDo_traffic s hop
    obtain ⟨hins, houts⟩ := ih (hostDo op s).2 hops
    constructor
    · simp only [traffic, hostRun, List.map_append, List.append_assoc, ← hins]
      simp only [← List.append_assoc, hin]
    · simp only [traffic, hostRun, List.append_assoc, ← houts]
      simp only [← List.append_assoc, hout]

/-- Settles O19: the word a step takes is that of an IN, and the word it appends that of an OUT. -/
theorem onlyInTakesInputAndOnlyOutAppends : Obligations.OnlyInTakesInputAndOnlyOutAppends := by
  intro s t h
  obtain ⟨hin, hout⟩ := stepAt_channels ((stepAt_eq_step s).trans h)
  constructor
  · cases hx : (nextInput s).join with
    | none => exact .inl (by simpa [hx] using hin.symm)
    | some x =>
      obtain ⟨-, d, e, m, -, -, hf, -⟩ := nextInput_some (Option.join_eq_some_iff.mp hx)
      exact .inr ⟨d, _, x, hf, by simpa [hx] using hin⟩
  · cases hv : nextOutput s with
    | none => exact .inl (by simpa [hv] using hout)
    | some v =>
      obtain ⟨a, m, -, -, hf, -, hsrc⟩ := nextOutput_some hv
      exact .inr ⟨a, _, v, hf, sourceValue_mlen hsrc, by simpa [hv] using hout⟩

end Sys2Proof.Machine
end

section
/-! PROOFS of 00_scope.md, 20_memory.md and 40_execution_cycle.md: the range and the wrap of a word (R3,
R125), the canonical tape (R43), the resolution of operands (R105, R106), and what a step fetches (R100,
R104). -/

namespace Sys2Proof.Machine

variable {XLEN : Nat}

/-! ## Words (00_scope.md section 5) -/

theorem word_range (w : Word XLEN) : Config.WMIN XLEN ≤ w.toInt ∧ w.toInt ≤ Config.WMAX XLEN :=
  ⟨BitVec.le_toInt w, Int.le_sub_one_of_lt BitVec.toInt_lt⟩

/-- R3: an integer in the range of a word is kept by `wrap`. -/
theorem wrap_toInt_of_range (hpos : 0 < XLEN) {v : Int} (hmin : Config.WMIN XLEN ≤ v)
    (hmax : v ≤ Config.WMAX XLEN) : (wrap v : Word XLEN).toInt = v :=
  BitVec.toInt_ofInt_eq_self hpos hmin (Int.lt_of_le_sub_one hmax)

/-- Two integers are congruent modulo the number of words exactly if `wrap` gives the same word. -/
theorem wrap_eq_wrap_iff {u v : Int} :
    (wrap u : Word XLEN) = wrap v ↔ (u - v) % 2 ^ XLEN = 0 := by
  have hcast : ((2 ^ XLEN : Nat) : Int) = 2 ^ XLEN := by norm_cast
  rw [← Int.emod_eq_emod_iff_emod_sub_eq_zero, ← BitVec.toInt_inj, wrap, wrap, BitVec.toInt_ofInt,
    BitVec.toInt_ofInt, ← hcast]
  constructor
  · intro h
    rw [← Int.bmod_emod, h, Int.bmod_emod]
  · intro h
    rw [← Int.emod_bmod, h, Int.emod_bmod]

@[simp] theorem wrap_toInt (w : Word XLEN) : wrap w.toInt = w := BitVec.ofInt_toInt

/-! ## The canonical tape (R43) -/

theorem Memory.wfFrom_cons {lo k : Nat} {w : Word XLEN} {m : Memory XLEN} :
    Memory.wfFrom lo ((k, w) :: m) = true ↔
      lo ≤ k ∧ k ≤ Config.ADDR_MAX XLEN ∧ w ≠ 0#XLEN ∧ Memory.wfFrom (k + 1) m = true := by
  simp only [Memory.wfFrom, Bool.and_eq_true, decide_eq_true_eq, and_assoc]

theorem Memory.read_cons_same (k : Nat) (w : Word XLEN) (m : Memory XLEN) :
    Memory.read ((k, w) :: m) k = w := if_pos rfl

theorem Memory.read_cons_other {k a : Nat} (w : Word XLEN) (m : Memory XLEN) (h : k ≠ a) :
    Memory.read ((k, w) :: m) a = m.read a := if_neg h

/-- A cell below the first that may be listed reads as 0. -/
theorem Memory.read_of_lt {m : Memory XLEN} {lo a : Nat} (h : Memory.wfFrom lo m = true) (ha : a < lo) :
    m.read a = 0#XLEN := by
  induction m generalizing lo with
  | nil => rfl
  | cons c m ih =>
    obtain ⟨hlo, -, -, hm⟩ := Memory.wfFrom_cons.mp h
    rw [Memory.read_cons_other _ _ (by omega)]
    exact ih hm (by omega)

/-- If the first cell of one canonical tape reads the same in another, the other's first is not above. -/
theorem Memory.first_le {k k' lo lo' : Nat} {w w' : Word XLEN} {m m' : Memory XLEN}
    (h : Memory.wfFrom lo ((k, w) :: m) = true) (h' : Memory.wfFrom lo' ((k', w') :: m') = true)
    (hread : Memory.read ((k, w) :: m) k = Memory.read ((k', w') :: m') k) : k' ≤ k := by
  obtain ⟨-, -, hw, -⟩ := Memory.wfFrom_cons.mp h
  obtain ⟨-, hrest⟩ := Memory.wfFrom_cons.mp h'
  by_contra hlt
  have hfrom : Memory.wfFrom k' ((k', w') :: m') = true := Memory.wfFrom_cons.mpr ⟨Nat.le_refl _, hrest⟩
  rw [Memory.read_cons_same, Memory.read_of_lt hfrom (Nat.not_le.mp hlt)] at hread
  exact hw hread

/-- Two canonical tapes that read the same list the same cells. -/
theorem Memory.eq_of_read_eq {m m' : Memory XLEN} {lo lo' : Nat} (h : Memory.wfFrom lo m = true)
    (h' : Memory.wfFrom lo' m' = true) (hread : ∀ a, m.read a = m'.read a) : m = m' := by
  induction m generalizing lo lo' m' with
  | nil =>
    cases m' with
    | nil => rfl
    | cons c' m' =>
      obtain ⟨-, -, hw, -⟩ := Memory.wfFrom_cons.mp h'
      exact absurd ((Memory.read_cons_same _ _ m').symm.trans (hread c'.1).symm) hw
  | cons c m ih =>
    obtain ⟨-, -, hw, hm⟩ := Memory.wfFrom_cons.mp h
    cases m' with
    | nil => exact absurd ((Memory.read_cons_same _ _ m).symm.trans (hread c.1)) hw
    | cons c' m' =>
      obtain ⟨k, w⟩ := c
      obtain ⟨k', w'⟩ := c'
      obtain ⟨-, -, -, hm'⟩ := Memory.wfFrom_cons.mp h'
      obtain rfl : k = k' :=
        Nat.le_antisymm (Memory.first_le h' h (hread k').symm) (Memory.first_le h h' (hread k))
      obtain rfl : w = w' := by
        have hk := hread k
        rwa [Memory.read_cons_same, Memory.read_cons_same] at hk
      rw [ih hm hm' fun a => ?_]
      by_cases ha : k = a
      · subst ha
        rw [Memory.read_of_lt hm (Nat.lt_succ_self k), Memory.read_of_lt hm' (Nat.lt_succ_self k)]
      · have hra := hread a
        rwa [Memory.read_cons_other w m ha, Memory.read_cons_other w m' ha] at hra

/-! ## Operands (R105, R106) -/

theorem sourceValue_of_immediate {o : Operand XLEN} (s : State XLEN) (h : o.mode = .immediate) :
    sourceValue o s = some o.raw := by
  simp only [sourceValue, h]

/-- R106: in modes 0 and 2 the value of a source is the content of its cell. -/
theorem sourceValue_of_ne_immediate {o : Operand XLEN} (s : State XLEN) (h : o.mode ≠ .immediate) :
    sourceValue o s = (cellOf o s).map s.Mem.read := by
  unfold sourceValue
  split
  · exact absurd ‹_› h
  · rfl
  · rfl

/-! ## What a step fetches (R100, R102) -/

/-- R102: a core that takes a step decodes the word at IP. -/
theorem fetch_eq_fetchAt {s : State XLEN} (h0 : s.FAULT = 0#3) (hip : s.IP.toNat ≤ Config.ADDR_MAX XLEN)
    (h99 : (s.Mem.read s.IP.toNat).toInt ≠ 99) : fetch s = fetchAt s.IP.toNat s := by
  obtain ⟨hf, -⟩ | ⟨-, hlt, -⟩ | ⟨-, -, h, -⟩ | ⟨-, -, -, h⟩ := fetch_cases s
  · exact absurd h0 hf
  · exact absurd hip (Nat.not_le.mpr hlt)
  · exact absurd h h99
  · exact h

section
variable {s : State XLEN} {h : Head} (h0 : s.FAULT = 0#3) (h99 : (s.Mem.read s.IP.toNat).toInt ≠ 99)
  (hdec : decodeWord (s.Mem.read s.IP.toNat) = .ok h)
include h0 h99 hdec

/-- R104: the raw values are the words after the instruction word, all of them fetched. -/
theorem fetch_of_fits (hfit : s.IP.toNat + h.op.operandCount ≤ Config.ADDR_MAX XLEN) :
    fetch s = .run (h.instr fun i => s.Mem.read (s.IP.toNat + i))
      (s.touch (s.IP.toNat + h.op.operandCount)) := by
  rw [fetch_eq_fetchAt h0 (Nat.le_trans (Nat.le_add_right _ _) hfit) h99]
  simp only [fetchAt, hdec, if_pos hfit]

/-- R104: if the last of them has no address, the fetch faults with the instruction word fetched. -/
theorem fetch_of_above (hip : s.IP.toNat ≤ Config.ADDR_MAX XLEN)
    (habove : Config.ADDR_MAX XLEN < s.IP.toNat + h.op.operandCount) :
    fetch s = .raises (.invalidAddress 0) (s.touch s.IP.toNat) := by
  rw [fetch_eq_fetchAt h0 hip h99]
  simp only [fetchAt, hdec, if_neg (Nat.not_le.mpr habove)]

end

/-- The words of the tape from `a` on, one by one. -/
theorem Memory.words_getD (m : Memory XLEN) (a : Nat) {n j : Nat} (hj : j < n) :
    (m.words a n).getD j 0 = m.read (a + j) := by
  induction n generalizing a j with
  | zero => omega
  | succ n ih =>
    cases j with
    | zero => rfl
    | succ j =>
      rw [Memory.words, List.getD_cons_succ, ih (a + 1) (by omega), Nat.add_right_comm, Nat.add_assoc]

/-- A head's instruction looks at no raw value above its operand count. -/
theorem Head.instr_congr {h : Head} {r r' : Nat → Word XLEN}
    (hr : ∀ k, 1 ≤ k → k ≤ h.op.operandCount → r k = r' k) : h.instr r = h.instr r' := by
  have h1 : 1 ≤ h.op.operandCount → r 1 = r' 1 := hr 1 (by decide)
  have h2 : 2 ≤ h.op.operandCount → r 2 = r' 2 := hr 2 (by decide)
  have h3 : 3 ≤ h.op.operandCount → r 3 = r' 3 := hr 3 (by decide)
  clear hr
  obtain ⟨op, m1, m2, m3⟩ := h
  cases op <;> simp_all [Head.instr, Opcode.operandCount]

/-- If the words at IP decode to `i`, the raw values the fetch reads make `i` of its head. -/
theorem instr_of_words {s : State XLEN} {i : Instr XLEN}
    (h : s.Mem.words (s.IP.toNat + 1) i.operandCount = i.operands.map Operand.raw) :
    (i.head.instr fun k => s.Mem.read (s.IP.toNat + k)) = i := by
  refine (Head.instr_congr fun k h1 hk => ?_).trans (i.instr_head [])
  obtain ⟨j, rfl⟩ := Nat.exists_eq_add_of_le' h1
  rw [Instr.head_op, i.operandCount_opcode] at hk
  rw [List.append_nil, ← h, Nat.add_sub_cancel, Memory.words_getD _ _ hk, Nat.add_assoc,
    Nat.add_comm 1]

/-! ## The statements -/

/-- Settles O30: the range of a signed word, and `wrap` as reduction modulo the number of words. -/
theorem wrapIsTheUniqueCongruentWord : Obligations.WrapIsTheUniqueCongruentWord := by
  refine ⟨fun XLEN hX v => ⟨word_range _, ?_, fun w hw => ?_, wrap_toInt_of_range (by omega)⟩, by decide⟩
  · exact wrap_eq_wrap_iff.mp (wrap_toInt _)
  · rw [← wrap_eq_wrap_iff, wrap_toInt] at hw
    exact hw

/-- Settles O31, by evaluation. -/
theorem resultsAtTheEdgesOfTheWord : Obligations.ResultsAtTheEdgesOfTheWord := by
  unfold Obligations.ResultsAtTheEdgesOfTheWord
  decide

/-- Settles O25, from the lowest address on. -/
theorem canonicalTapesWithEqualReadsAreEqual : Obligations.CanonicalTapesWithEqualReadsAreEqual :=
  fun _ _ => Memory.eq_of_read_eq

/-- Settles O28: the address of each mode, and the check every address passes. -/
theorem effectiveAddressIsExact : Obligations.EffectiveAddressIsExact :=
  fun _ _ _ => ⟨legalAddress_eq_some, legalAddress_eq_some, rfl⟩

/-- Settles O29, by the mode. -/
theorem sourceValueIsLiteralOrCell : Obligations.SourceValueIsLiteralOrCell := by
  intro o s
  refine ⟨sourceValue_of_immediate s, fun hm e he => ?_, ?_⟩
  · rw [sourceValue_of_ne_immediate s hm, he, Option.map_some]
  · by_cases hm : o.mode = .immediate
    · simp [sourceValue_of_immediate s hm, hm]
    · simp [sourceValue_of_ne_immediate s hm, hm]

/-- Settles O10: the fetch of a word that decodes, at both sides of the top. -/
theorem operandFetchReadsTheFollowingCells : Obligations.OperandFetchReadsTheFollowingCells := by
  intro s h h0 hip h99 hdec
  obtain ⟨-, hraises, hrun⟩ := step_of_fetch s
  exact ⟨fun hfit => hrun _ _ (fetch_of_fits h0 h99 hdec hfit),
    fun habove => hraises _ _ (fetch_of_above h0 h99 hdec hip habove)⟩

/-- Settles O9: the word at IP says the head of the instruction, and the cells after it hold its raw
values. -/
theorem stepRunsTheDecodedInstruction : Obligations.StepRunsTheDecodedInstruction := by
  intro s i hwf h0 hfit hdec
  obtain ⟨-, -, hrun⟩ := step_of_fetch s
  rw [Nat.add_comm 1] at hdec
  obtain ⟨hW, hraws⟩ := decode_cons_eq_ok_iff.mp hdec
  rw [List.append_nil] at hraws
  by_cases hi : i = .halt
  · obtain ⟨-, -, -, h99⟩ := decodeWord_eq_head_iff.mp hW
    rw [if_pos hi, hi]
    exact hrun _ _ (fetch_of_halted h0 (by omega) (h99 hi))
  · have h99 : (s.Mem.read s.IP.toNat).toInt ≠ 99 := fun h99 => hi <| Instr.opcode_eq_halt.mp <|
      (congrArg Head.op (Except.ok.inj ((decodeWord_of_toInt_eq_99 h99).symm.trans hW))).symm
    have hcount : i.head.op.operandCount = i.operandCount := i.operandCount_opcode
    rw [if_neg hi, hrun _ _ (fetch_of_fits h0 h99 hW (by rwa [hcount])), instr_of_words hraws, hcount]

/-- Settles O11: no instruction answers one of the host's faults or refusals. -/
theorem stepAlwaysAnswersANextState : Obligations.StepAlwaysAnswersANextState := by
  intro s
  rw [← stepAt_eq_step]
  exact stepAt_next s

end Sys2Proof.Machine
end

section
/-! PROOFS of the frames: what each instruction and each step leaves unchanged (10_state.md section 8,
20_memory.md section 5, 41 to 45), and what the step after a store does (R57, R161). -/

namespace Sys2Proof.Machine

variable {XLEN : Nat}

/-! ## The cell an instruction writes -/

/-- R74: the destination of a three-operand instruction is operand 3. -/
theorem Stores.destination?_eq {i : Instr XLEN} {f : Word XLEN → Word XLEN → Word XLEN}
    {a b d : Operand XLEN} (h : Stores i f a b d) : i.destination? = some (3, d) := by
  cases h <;> rfl

/-- An instruction changes no cell but the one its destination operand designates. -/
theorem Effect.read_other {i : Instr XLEN} {s t : State XLEN} {c : Nat} (h : Effect i s t)
    (hc : ∀ k d, i.destination? = some (k, d) → cellOf d s ≠ some c) :
    t.Mem.read c = s.Mem.read c := by
  cases h with
  | input e x q hcell he hi hq =>
    refine Memory.read_write_other s.Mem x fun hce => hc 1 _ rfl ?_
    rw [he, hce]
  | store x y e m hs hm hx hy he hi =>
    refine Memory.read_write_other s.Mem _ fun hce => hc 3 _ hs.destination?_eq ?_
    rw [he, hce]
  | _ => rfl

/-! ## The step after a store -/

/-- R12: an instruction that stores and raises no fault leaves IP at a legal address. -/
theorem Effect.IP_le_of_stores {i : Instr XLEN} {s t : State XLEN} (h : Effect i s t)
    (hF : t.FAULT = 0#3) (hs : storeOf i s ≠ none) : t.IP.toNat ≤ Config.ADDR_MAX XLEN := by
  cases h with
  | fault f => exact absurd hF f.code_ne_zero
  | halt => exact absurd rfl hs
  | hold e hc hq => exact absurd (storeOf_inp_empty hq) hs
  | input e x q hc he hi => exact (toNat_ofNat_addr hi).trans_le hi
  | output v m hm hv hi => exact (toNat_ofNat_addr hi).trans_le hi
  | rebase v m hm hv hi => exact (toNat_ofNat_addr hi).trans_le hi
  | jump x y e m hj => exact absurd (hj.storeOf_eq_none s) hs
  | fallThrough x y m hj => exact absurd (hj.storeOf_eq_none s) hs
  | store x y e m hst hm hx hy he hi => exact (toNat_ofNat_addr hi).trans_le hi

/-- R57, R100: the step of a core that is not faulted is what the word at its legal IP says. -/
theorem nextStepIs_read {s : State} (h0 : s.FAULT = 0#3) (hip : s.IP.toNat ≤ Config.ADDR_MAX) :
    nextStepIs (s.Mem.read s.IP.toNat) s := by
  obtain ⟨-, hraises, hrun⟩ := step_of_fetch s
  refine ⟨fun h99 => ⟨halted_iff.mpr h99, step_of_halted h0 hip h99⟩, fun h99 => ⟨?_, ?_, ?_, ?_⟩⟩
  · exact Bool.eq_false_iff.mpr (mt halted_iff.mp h99)
  · exact fun f => step_of_decode_error h0 hip
  · exact fun h hdec hfit => hrun _ _ (fetch_of_fits h0 h99 hdec hfit)
  · exact fun h hdec habove => hraises _ _ (fetch_of_above h0 h99 hdec hip habove)

/-- R57, R161: where cell `e` holds `x`, the next step is what the word at IP says, and that is `x` if IP
is `e`. -/
theorem nextStepIs_of_read {t : State} {e : Nat} {x : Word} (h0 : t.FAULT = 0#3)
    (hip : t.IP.toNat ≤ Config.ADDR_MAX) (hread : t.Mem.read e = x) :
    nextStepIs (t.Mem.read t.IP.toNat) t ∧
      (e = t.IP.toNat → nextStepIs x t ∧ (halted t = true ↔ x.toInt = 99)) := by
  have hnext := nextStepIs_read h0 hip
  refine ⟨hnext, ?_⟩
  rintro rfl
  rw [halted_iff, hread]
  rw [hread] at hnext
  exact ⟨hnext, Iff.rfl⟩

/-! ## The statements -/

/-- Settles O17: the effect of the instruction the step runs, or no effect on the tape. -/
theorem stepWritesOnlyTheDestinationCell : Obligations.StepWritesOnlyTheDestinationCell := by
  intro s t c h hc
  obtain ⟨-, rfl⟩ | ⟨-, f, m, -, -, -, rfl⟩ | ⟨-, -, i, m, -, hf, he⟩ := step_cases h
  · rfl
  · rfl
  · exact he.read_other fun k d hd => hc i _ k d hf hd

/-- Settles O42: a fault leaves all but the latch, and a completed instruction writes the cell of its
destination. -/
theorem frameOfThreeOperandInstructions : Obligations.FrameOfThreeOperandInstructions := by
  intro a b d i s t hi h
  obtain ⟨f, hs⟩ : ∃ f, Stores i f a b d := by
    obtain rfl | rfl | rfl | rfl := hi
    · exact ⟨_, .add a b d⟩
    · exact ⟨_, .mul a b d⟩
    · exact ⟨_, .lt a b d⟩
    · exact ⟨_, .eq a b d⟩
  rw [hs.exec_eq] at h
  obtain ⟨k, m, -, -, rfl⟩ | ⟨x, y, e, m, -, -, he, -, -, rfl⟩ := execThree_cases h
  · exact ⟨rfl, rfl, rfl, fun _ _ _ _ => rfl, fun _ => rfl, .inr ⟨k, rfl, rfl, rfl, rfl⟩⟩
  · refine ⟨rfl, rfl, rfl, fun e' he' c hce => ?_, fun hn => ?_, .inl ⟨rfl, rfl⟩⟩
    · obtain rfl : e = e' := Option.some.inj (he.symm.trans he')
      exact Memory.read_write_other s.Mem _ hce
    · cases he.symm.trans hn

/-- Settles O43: IN raises a fault, holds, or moves the head of INQ to the cell of its destination. -/
theorem frameOfIn : Obligations.FrameOfIn := by
  intro d s t h
  obtain ⟨k, -, rfl⟩ | ⟨e, -, -, rfl⟩ | ⟨e, x, q, he, hq, -, -, rfl⟩ := execIn_cases h
  · exact ⟨rfl, rfl, .inl rfl, fun _ _ _ _ => rfl, fun _ => rfl, .inr ⟨k, rfl, rfl, rfl, rfl, rfl⟩⟩
  · exact ⟨rfl, rfl, .inl rfl, fun _ _ _ _ => rfl, fun _ => rfl, .inl ⟨rfl, rfl⟩⟩
  · refine ⟨rfl, rfl, .inr ⟨x, hq⟩, fun e' he' c hce => ?_, fun hn => ?_, .inl ⟨rfl, rfl⟩⟩
    · obtain rfl : e = e' := Option.some.inj (he.symm.trans he')
      exact Memory.read_write_other s.Mem _ hce
    · cases he.symm.trans hn

/-- Settles O44, effect by effect. -/
theorem frameOfInstructionsThatStoreNothing : Obligations.FrameOfInstructionsThatStoreNothing := by
  intro a b i s t hi h
  cases exec_effect h with
  | fault f =>
    exact ⟨fun _ => rfl, rfl, rfl, fun _ => rfl, fun _ => rfl, .inr ⟨f, rfl, rfl, rfl, rfl, rfl⟩⟩
  | halt => exact ⟨fun _ => rfl, rfl, rfl, fun _ => rfl, fun _ => rfl, .inl ⟨rfl, rfl⟩⟩
  | hold => simp at hi
  | input => simp at hi
  | output =>
    exact ⟨fun _ => rfl, rfl, rfl, fun hne => absurd (by simpa using hi) hne, fun _ => rfl,
      .inl ⟨rfl, rfl⟩⟩
  | rebase =>
    exact ⟨fun _ => rfl, rfl, rfl, fun _ => rfl, fun hne => absurd (by simpa using hi) hne,
      .inl ⟨rfl, rfl⟩⟩
  | jump => exact ⟨fun _ => rfl, rfl, rfl, fun _ => rfl, fun _ => rfl, .inl ⟨rfl, rfl⟩⟩
  | fallThrough => exact ⟨fun _ => rfl, rfl, rfl, fun _ => rfl, fun _ => rfl, .inl ⟨rfl, rfl⟩⟩
  | store x y e m hs => cases hs <;> simp at hi

/-- Settles O46: the store is in the tape the next step fetches from. -/
theorem storeUnderTheCursorIsFetchedNext : Obligations.StoreUnderTheCursorIsFetchedNext := by
  refine ⟨fun i s t e x hwf h0 hst h hF => ?_, fun s t a x hwf h0 hip hp => ?_⟩
  · have he := exec_effect h
    have hip := he.IP_le_of_stores hF (by simp [hst])
    obtain ⟨f, m, rfl⟩ | ⟨-, hw⟩ := he.raises_or_stores
    · exact absurd hF f.code_ne_zero
    · rw [hst] at hw
      obtain ⟨hn, -⟩ | ⟨b, y, -, hby, hmem⟩ := hw
      · cases hn
      · cases hby
        have hread : t.Mem.read e = x := by
          rw [hmem]
          exact Memory.read_write_same s.Mem 0 e x hwf
        exact ⟨hread, nextStepIs_of_read hF hip hread⟩
  · obtain ⟨-, hnone⟩ | ⟨n, rfl, -, hsome⟩ := s.poke_cases a x
    · cases hnone.symm.trans hp
    · cases hsome.symm.trans hp
      have hread : (s.store n x).Mem.read n = x := Memory.read_write_same s.Mem 0 n x hwf
      obtain ⟨hnext, hat⟩ := nextStepIs_of_read (t := s.store n x) h0 hip hread
      exact ⟨hread, rfl, hnext, fun hn => hat (Int.ofNat.inj hn)⟩

end Sys2Proof.Machine
end

section
/-! PROOFS of 70_reset_and_hazards.md: what is a program image, and the state after reset with one (R240,
R27). -/

namespace Sys2Proof.Machine

variable {XLEN : Nat}

/-! ## Program images (R171) -/

theorem imageOk_iff {P : List Int} :
    imageOk XLEN P = true ↔
      (∀ x ∈ P, Config.WMIN XLEN ≤ x ∧ x ≤ Config.WMAX XLEN) ∧ P.length ≤ Config.ADDR_MAX XLEN + 1 := by
  simp only [imageOk, Bool.and_eq_true, List.all_eq_true, decide_eq_true_eq]

theorem State.new_eq_none {P : List Int} :
    (State.new P : Option (State XLEN)) = none ↔ ¬ imageOk XLEN P = true := by
  by_cases h : imageOk XLEN P = true <;> simp [State.new, h]

theorem imageOk_of_new {P : List Int} {s : State XLEN} (h : State.new P = some s) :
    imageOk XLEN P = true := by
  by_contra hn
  rw [State.new_eq_none.mpr hn] at h
  cases h

/-! ## The hidden length after reset (R23) -/

/-- Words stored from the end of the tape on make it longer by their number. -/
theorem State.storeWords_MLEN (s : State XLEN) (ws : List (Word XLEN))
    (hfit : s.MLEN + ws.length ≤ Config.ADDR_MAX XLEN + 1) :
    (s.storeWords s.MLEN ws).MLEN = s.MLEN + ws.length := by
  induction ws generalizing s with
  | nil => rfl
  | cons w ws ih =>
    rw [List.length_cons] at hfit ⊢
    have hnext : (s.store s.MLEN w).MLEN = s.MLEN + 1 := Nat.max_eq_right (Nat.le_succ _)
    have hrest := ih (s.store s.MLEN w) (by rw [hnext]; omega)
    rw [hnext] at hrest
    rw [State.storeWords, if_pos (by omega), hrest]
    omega

/-- R240: after reset the tape is as long as the image. -/
theorem State.new_MLEN {P : List Int} {s : State XLEN} (h : State.new P = some s) :
    s.MLEN = P.length := by
  obtain ⟨hlen, rfl⟩ := State.new_eq_some h
  have hempty : (State.resetAt XLEN).MLEN = 0 := rfl
  have hmlen := State.storeWords_MLEN (State.resetAt XLEN) (P.map (BitVec.ofInt XLEN))
  rw [hempty, Nat.zero_add, List.length_map] at hmlen
  exact hmlen hlen

/-! ## The statements -/

/-- Settles O50: the image is loaded on the tape of the reset state, whose other fields stay. -/
theorem newLoadsTheImage : Obligations.NewLoadsTheImage := by
  intro P
  constructor
  · rw [State.new_eq_none, imageOk_iff]
    simp only [not_and_or, not_forall, exists_prop, Int.not_le, Nat.not_le]
  · intro s hs
    obtain ⟨hrange, -⟩ := imageOk_iff.mp (imageOk_of_new hs)
    obtain ⟨-, hread⟩ := State.new_mem hs
    have hmlen := State.new_MLEN hs
    obtain ⟨-, rfl⟩ := State.new_eq_some hs
    obtain ⟨M, m, hframe⟩ := (State.resetAt 64).storeWords_frame 0 (P.map (BitVec.ofInt 64))
    refine ⟨fun a ha => ?_, fun a ha => ?_, ?_⟩
    · obtain ⟨hmin, hmax⟩ := hrange _ (List.getElem_mem ha)
      rw [hread, List.getD_eq_getElem P 0 ha]
      exact wrap_toInt_of_range (by decide) hmin hmax
    · rw [hread, List.getD_eq_default P 0 ha]
      rfl
    · rw [hframe] at hs hmlen ⊢
      exact ⟨rfl, rfl, rfl, rfl, rfl, rfl, hmlen, hostDo_new_of_some hs⟩

/-- Settles O49, by evaluation. -/
theorem resetIsNewOfTheEmptyImage : Obligations.ResetIsNewOfTheEmptyImage := by
  unfold Obligations.ResetIsNewOfTheEmptyImage
  decide

end Sys2Proof.Machine
end

section
/-! PROOFS of 00_scope.md section 4: the same words, tape, instruction and state at a larger width; every
stage of a step commutes with the change of width unless it overflows or raises `InvalidAddress`; then
the statement about the width (R3). -/

namespace Sys2Proof

/-- The same operand in words of `N` bits. -/
def Operand.widen {XLEN : Nat} (N : Nat) (o : Operand XLEN) : Operand N := ⟨o.mode, Machine.widen N o.raw⟩

/-- The same instruction in words of `N` bits. -/
def Instr.widen {XLEN : Nat} (N : Nat) : Instr XLEN → Instr N
  | .add a b d => .add (a.widen N) (b.widen N) (d.widen N)
  | .mul a b d => .mul (a.widen N) (b.widen N) (d.widen N)
  | .inp d => .inp (d.widen N)
  | .out a => .out (a.widen N)
  | .jt c t => .jt (c.widen N) (t.widen N)
  | .jf c t => .jf (c.widen N) (t.widen N)
  | .lt a b d => .lt (a.widen N) (b.widen N) (d.widen N)
  | .eq a b d => .eq (a.widen N) (b.widen N) (d.widen N)
  | .arb a => .arb (a.widen N)
  | .halt => .halt

end Sys2Proof

namespace Sys2Proof.Machine

variable {XLEN N : Nat}

/-! ## The fields of a widened state -/

/-- The same tape in words of `N` bits. -/
def Memory.widen (N : Nat) (m : Memory XLEN) : Memory N := m.map fun c => (c.1, Machine.widen N c.2)

section
variable (N) (s : State XLEN)

@[simp] theorem State.widen_Mem : (s.widen N).Mem = s.Mem.widen N := rfl
@[simp] theorem State.widen_IP : (s.widen N).IP = Machine.widen N s.IP := rfl
@[simp] theorem State.widen_RB : (s.widen N).RB = Machine.widen N s.RB := rfl
@[simp] theorem State.widen_FAULT : (s.widen N).FAULT = s.FAULT := rfl
@[simp] theorem State.widen_FINFO : (s.widen N).FINFO = s.FINFO := rfl
@[simp] theorem State.widen_INQ : (s.widen N).INQ = s.INQ.map (Machine.widen N) := rfl
@[simp] theorem State.widen_OUTQ : (s.widen N).OUTQ = s.OUTQ.map (Machine.widen N) := rfl
@[simp] theorem State.widen_MLEN : (s.widen N).MLEN = s.MLEN := rfl

theorem State.widen_touch (a : Nat) : (s.touch a).widen N = (s.widen N).touch a := rfl

theorem State.widen_raise (f : Fault) : (s.raise f).widen N = (s.widen N).raise f := rfl

theorem State.widen_setRB (v : Word XLEN) : (s.setRB v).widen N = (s.widen N).setRB (Machine.widen N v) := rfl

theorem State.widen_setINQ (q : List (Word XLEN)) :
    (s.setINQ q).widen N = (s.widen N).setINQ (q.map (Machine.widen N)) := rfl

theorem State.widen_pushOutput (v : Word XLEN) :
    (s.pushOutput v).widen N = (s.widen N).pushOutput (Machine.widen N v) := by
  simp [State.widen, State.pushOutput]

end

/-- The raw values of a head's instruction are widened with it. -/
theorem Head.widen_instr (h : Head) (r : Nat → Word XLEN) :
    (h.instr r).widen N = h.instr fun k => widen N (r k) := by
  obtain ⟨op, m1, m2, m3⟩ := h
  cases op <;> rfl

theorem cellOf_of_immediate {o : Operand XLEN} (s : State XLEN) (h : o.mode = .immediate) :
    cellOf o s = none := by
  simp only [cellOf, effectiveAddress, h]

/-! ## Answers -/

/-- If the answer `x` is a next state without an `InvalidAddress` fault, `x'` is the same in words of `N`
bits. -/
def AnswerWidens (N : Nat) (x : Host.Outcome (State XLEN) Fault Refusal)
    (x' : Host.Outcome (State N) Fault Refusal) : Prop :=
  ∀ t, x = .next t → t.FAULT ≠ 4#3 → x' = .next (t.widen N)

theorem answerWidens_next (t : State XLEN) : AnswerWidens N (.next t) (.next (t.widen N)) := by
  rintro _ ⟨⟩ -
  rfl

/-- Of an answer with an `InvalidAddress` fault nothing is asked. -/
theorem answerWidens_invalidAddress (s : State XLEN) (k : BitVec 2)
    (x' : Host.Outcome (State N) Fault Refusal) :
    AnswerWidens N (.next (s.raise (.invalidAddress k))) x' := by
  rintro _ ⟨⟩ hF
  exact absurd rfl hF

section
variable (h64 : 64 ≤ XLEN) (hN : XLEN ≤ N)
include hN

/-! ## Words -/

theorem addrMax_mono : Config.ADDR_MAX XLEN ≤ Config.ADDR_MAX N :=
  Nat.sub_le_sub_right (Nat.pow_le_pow_right (by decide) (Nat.sub_le_sub_right hN 1)) 1

theorem legalAddress_widen {x : Int} {e : Nat} (h : legalAddress XLEN x = some e) :
    legalAddress N x = some e := by
  obtain ⟨hx, hle⟩ := legalAddress_eq_some.mp h
  exact legalAddress_eq_some.mpr ⟨hx, Nat.le_trans hle (addrMax_mono hN)⟩

include h64

theorem widen_toInt (w : Word XLEN) : (widen N w).toInt = w.toInt := by
  have hpow : (2 : Int) ^ (XLEN - 1) ≤ 2 ^ (N - 1) :=
    pow_le_pow_right₀ (by decide) (Nat.sub_le_sub_right hN 1)
  obtain ⟨hmin, hmax⟩ := word_range w
  simp only [Config.WMIN, Config.WMAX] at hmin hmax
  refine wrap_toInt_of_range (by omega) ?_ ?_
  · simp only [Config.WMIN]
    omega
  · simp only [Config.WMAX]
    omega

theorem widen_inj {v w : Word XLEN} : widen N v = widen N w ↔ v = w := by
  rw [← BitVec.toInt_inj, widen_toInt h64 hN, widen_toInt h64 hN, BitVec.toInt_inj]

theorem widen_toNat {w : Word XLEN} (h : w.toNat ≤ Config.ADDR_MAX XLEN) :
    (widen N w).toNat = w.toNat := by
  have hint := widen_toInt h64 hN w
  have hcases := toInt_cases (w := w)
  have hcases' := toInt_cases (w := widen N w)
  omega

theorem widen_ofNat {n : Nat} (h : n ≤ Config.ADDR_MAX XLEN) :
    widen N (BitVec.ofNat XLEN n) = BitVec.ofNat N n := by
  have hn := toNat_ofNat_addr h
  refine BitVec.eq_of_toNat_eq ?_
  rw [widen_toNat h64 hN (hn.trans_le h), hn, toNat_ofNat_addr (Nat.le_trans h (addrMax_mono hN))]

theorem widen_zero : widen N 0#XLEN = 0#N := widen_ofNat h64 hN (Nat.zero_le _)

theorem widen_one : widen N 1#XLEN = 1#N := by
  have hlarge := addrMax_large h64
  have hone : 1 ≤ Config.ADDR_MAX := by decide
  exact widen_ofNat h64 hN (by omega)

omit h64 hN in
/-- R125: a result that does not overflow is the same at a larger width. -/
theorem widen_wrap {v : Int} (h : overflowed XLEN v = false) :
    widen N (wrap v : Word XLEN) = wrap v :=
  congrArg wrap (not_not.mp (of_decide_eq_false h))

/-! ## The tape -/

theorem Memory.read_widen (m : Memory XLEN) (a : Nat) : (m.widen N).read a = Machine.widen N (m.read a) := by
  induction m with
  | nil => exact (widen_zero h64 hN).symm
  | cons c m ih =>
    obtain ⟨k, w⟩ := c
    rw [Memory.widen, List.map_cons, Memory.read, Memory.read]
    split
    · rfl
    · exact ih

theorem Memory.write_widen (m : Memory XLEN) (a : Nat) (v : Word XLEN) :
    (m.write a v).widen N = (m.widen N).write a (Machine.widen N v) := by
  have hzero : Machine.widen N v = 0#N ↔ v = 0#XLEN := by rw [← widen_zero h64 hN, widen_inj h64 hN]
  induction m with
  | nil =>
    simp only [Memory.widen, List.map_nil, Memory.write, hzero]
    split <;> rfl
  | cons c m ih =>
    obtain ⟨k, w⟩ := c
    simp only [Memory.widen, List.map_cons, Memory.write, hzero] at ih ⊢
    split
    · split <;> rfl
    · split
      · split <;> rfl
      · rw [List.map_cons, ih]

theorem State.widen_store (s : State XLEN) (a : Nat) (v : Word XLEN) :
    (s.store a v).widen N = (s.widen N).store a (Machine.widen N v) := by
  have hmem := Memory.write_widen h64 hN s.Mem a v
  simp only [State.store, State.widen_Mem, ← hmem]
  rfl

theorem State.widen_setIP (s : State XLEN) {a : Nat} (h : a ≤ Config.ADDR_MAX XLEN) :
    (s.setIP a).widen N = (s.widen N).setIP a := by
  simp only [State.setIP, ← widen_ofNat h64 hN h]
  rfl

/-! ## Operands -/

theorem cellOf_widen {o : Operand XLEN} {s : State XLEN} {e : Nat} (h : cellOf o s = some e) :
    cellOf (o.widen N) (s.widen N) = some e := by
  have haddr : effectiveAddress (o.widen N) (widen N s.RB) = effectiveAddress o s.RB := by
    simp only [effectiveAddress, Operand.widen, widen_toInt h64 hN]
  unfold cellOf at h
  rw [cellOf, State.widen_RB, haddr]
  split at h
  · cases h
  · exact legalAddress_widen hN h

theorem sourceValue_widen {o : Operand XLEN} {s : State XLEN} {x : Word XLEN}
    (h : sourceValue o s = some x) : sourceValue (o.widen N) (s.widen N) = some (widen N x) := by
  by_cases hm : o.mode = .immediate
  · rw [sourceValue_of_immediate _ hm] at h
    cases h
    exact sourceValue_of_immediate _ hm
  · rw [sourceValue_of_ne_immediate _ hm] at h
    obtain ⟨e, he, rfl⟩ := Option.map_eq_some_iff.mp h
    have hm' : (o.widen N).mode ≠ .immediate := hm
    rw [sourceValue_of_ne_immediate _ hm', cellOf_widen h64 hN he, Option.map_some, State.widen_Mem,
      Memory.read_widen h64 hN]

theorem touchSource_widen {o : Operand XLEN} {s : State XLEN} {x : Word XLEN}
    (h : sourceValue o s = some x) :
    touchSource (o.widen N) (s.widen N) = (touchSource o s).widen N := by
  by_cases hm : o.mode = .immediate
  · have hm' : (o.widen N).mode = .immediate := hm
    simp only [touchSource, cellOf_of_immediate _ hm, cellOf_of_immediate _ hm']
  · rw [sourceValue_of_ne_immediate _ hm] at h
    obtain ⟨e, he, -⟩ := Option.map_eq_some_iff.mp h
    simp only [touchSource, he, cellOf_widen h64 hN he, State.widen_touch]

/-- Both sources of an instruction, read one after the other. -/
theorem touchSource_widen_two {a b : Operand XLEN} {s : State XLEN} {x y : Word XLEN}
    (hx : sourceValue a s = some x) (hy : sourceValue b s = some y) :
    touchSource (b.widen N) (touchSource (a.widen N) (s.widen N)) =
      (touchSource b (touchSource a s)).widen N := by
  obtain ⟨m, hm, -⟩ := touchSource_grown a s
  have hy' : sourceValue b (touchSource a s) = some y := by
    rw [hm]
    exact (sourceValue_congr b rfl rfl).trans hy
  rw [touchSource_widen h64 hN hx, touchSource_widen h64 hN hy']

theorem answerWidens_retire (w : Nat) (before after : State XLEN) :
    AnswerWidens N (retire w before after) (retire w (before.widen N) (after.widen N)) := by
  by_cases hfit : before.IP.toNat + w ≤ Config.ADDR_MAX XLEN
  · have hip : (before.widen N).IP.toNat = before.IP.toNat := widen_toNat h64 hN (by omega)
    have hfit' : (before.widen N).IP.toNat + w ≤ Config.ADDR_MAX N := by
      rw [hip]
      exact Nat.le_trans hfit (addrMax_mono hN)
    rw [retire_fits _ hfit, retire_fits _ hfit', hip, ← State.widen_setIP h64 hN after hfit]
    exact answerWidens_next _
  · rw [retire_above _ (Nat.not_le.mp hfit)]
    exact answerWidens_invalidAddress _ _ _

/-! ## The instructions -/

/-- A three-operand instruction, if its function of the source values commutes with the change of width. -/
theorem execThree_widen {f : Word XLEN → Word XLEN → Word XLEN} {f' : Word N → Word N → Word N}
    {a b d : Operand XLEN} {s : State XLEN}
    (hf : ∀ x y, sourceValue a s = some x → sourceValue b s = some y →
      f' (widen N x) (widen N y) = widen N (f x y)) :
    AnswerWidens N (execThree f a b d s)
      (execThree f' (a.widen N) (b.widen N) (d.widen N) (s.widen N)) := by
  have hw : (d.widen N).writable = d.writable := rfl
  unfold execThree
  rw [hw]
  split
  · cases hx : sourceValue a s with
    | none => exact answerWidens_invalidAddress _ _ _
    | some x =>
      cases hy : sourceValue b s with
      | none => exact answerWidens_invalidAddress _ _ _
      | some y =>
        cases he : cellOf d s with
        | none => exact answerWidens_invalidAddress _ _ _
        | some e =>
          simp only [sourceValue_widen h64 hN hx, sourceValue_widen h64 hN hy, cellOf_widen h64 hN he,
            touchSource_widen_two h64 hN hx hy, hf x y hx hy, ← State.widen_store h64 hN]
          exact answerWidens_retire h64 hN 4 _ _
  · exact answerWidens_next _

theorem addWords_widen {x y : Word XLEN} (h : overflowed XLEN (x.toInt + y.toInt) = false) :
    addWords (widen N x) (widen N y) = widen N (addWords x y) := by
  rw [addWords, addWords, widen_toInt h64 hN, widen_toInt h64 hN, widen_wrap h]

theorem mulWords_widen {x y : Word XLEN} (h : overflowed XLEN (x.toInt * y.toInt) = false) :
    mulWords (widen N x) (widen N y) = widen N (mulWords x y) := by
  rw [mulWords, mulWords, widen_toInt h64 hN, widen_toInt h64 hN, widen_wrap h]

theorem lessWord_widen (x y : Word XLEN) :
    lessWord (widen N x) (widen N y) = widen N (lessWord x y) := by
  rw [lessWord, lessWord, widen_toInt h64 hN, widen_toInt h64 hN, apply_ite (widen N),
    widen_one h64 hN, widen_zero h64 hN]

theorem equalWord_widen (x y : Word XLEN) :
    equalWord (widen N x) (widen N y) = widen N (equalWord x y) := by
  rw [equalWord, equalWord, widen_toInt h64 hN, widen_toInt h64 hN, apply_ite (widen N),
    widen_one h64 hN, widen_zero h64 hN]

/-- A cell an IN may write is the same cell at a larger width. -/
theorem inputCell_widen_ok {d : Operand XLEN} {s : State XLEN} {e : Nat} (h : inputCell d s = .ok e) :
    inputCell (d.widen N) (s.widen N) = .ok e := by
  obtain ⟨-, he, hi⟩ := inputCell_ok.mp h
  have hip : (s.widen N).IP.toNat = s.IP.toNat := widen_toNat h64 hN (by omega)
  refine inputCell_of_cellOf (cellOf_widen h64 hN he) ?_
  rw [hip]
  exact Nat.le_trans hi (addrMax_mono hN)

omit h64 hN in
/-- A fault of IN other than `InvalidAddress` is the same fault at a larger width. -/
theorem inputCell_widen_error {d : Operand XLEN} {s : State XLEN} {f : Fault}
    (h : inputCell d s = .error f) (hf : f.code ≠ 4#3) :
    inputCell (d.widen N) (s.widen N) = .error f := by
  have hw : (d.widen N).writable = d.writable := rfl
  unfold inputCell at h
  split at h
  · split at h
    · cases h
      exact absurd rfl hf
    · split at h
      · cases h
      · cases h
        exact absurd rfl hf
  · rename_i hd
    cases h
    rw [inputCell, hw, if_neg hd]

theorem execIn_widen (d : Operand XLEN) (s : State XLEN) :
    AnswerWidens N (execIn d s) (execIn (d.widen N) (s.widen N)) := by
  cases hc : inputCell d s with
  | error f =>
    rw [execIn_of_error hc]
    rintro _ ⟨⟩ hF
    rw [execIn_of_error (inputCell_widen_error hc hF), State.widen_raise]
  | ok e =>
    unfold execIn
    rw [hc, inputCell_widen_ok h64 hN hc, State.widen_INQ]
    cases s.INQ with
    | nil => exact answerWidens_next _
    | cons x q =>
      have hstate : ((s.widen N).setINQ (q.map (widen N))).store e (widen N x) =
          ((s.setINQ q).store e x).widen N := by
        rw [State.widen_store h64 hN, State.widen_setINQ]
      simp only [List.map_cons, hstate]
      exact answerWidens_retire h64 hN 2 _ _

theorem execOut_widen (a : Operand XLEN) (s : State XLEN) :
    AnswerWidens N (execOut a s) (execOut (a.widen N) (s.widen N)) := by
  unfold execOut
  cases hv : sourceValue a s with
  | none => exact answerWidens_invalidAddress _ _ _
  | some v =>
    simp only [sourceValue_widen h64 hN hv, touchSource_widen h64 hN hv, ← State.widen_pushOutput]
    exact answerWidens_retire h64 hN 2 _ _

theorem execArb_widen {a : Operand XLEN} {s : State XLEN}
    (hov : ∀ v, sourceValue a s = some v → overflowed XLEN (s.RB.toInt + v.toInt) = false) :
    AnswerWidens N (execArb a s) (execArb (a.widen N) (s.widen N)) := by
  unfold execArb
  cases hv : sourceValue a s with
  | none => exact answerWidens_invalidAddress _ _ _
  | some v =>
    simp only [sourceValue_widen h64 hN hv, touchSource_widen h64 hN hv, State.widen_RB,
      addWords_widen h64 hN (hov v hv), ← State.widen_setRB]
    exact answerWidens_retire h64 hN 2 _ _

/-- A jump, if its condition commutes with the change of width. -/
theorem execJump_widen {p : Word XLEN → Bool} {p' : Word N → Bool} (hp : ∀ x, p' (widen N x) = p x)
    (c g : Operand XLEN) (s : State XLEN) :
    AnswerWidens N (execJump p c g s) (execJump p' (c.widen N) (g.widen N) (s.widen N)) := by
  unfold execJump
  cases hx : sourceValue c s with
  | none => exact answerWidens_invalidAddress _ _ _
  | some x =>
    cases hy : sourceValue g s with
    | none => exact answerWidens_invalidAddress _ _ _
    | some y =>
      simp only [sourceValue_widen h64 hN hx, sourceValue_widen h64 hN hy,
        touchSource_widen_two h64 hN hx hy, hp, widen_toInt h64 hN]
      split
      · cases hl : legalAddress XLEN y.toInt with
        | none => exact answerWidens_invalidAddress _ _ _
        | some e =>
          simp only [legalAddress_widen hN hl,
            ← State.widen_setIP h64 hN _ (legalAddress_eq_some.mp hl).2]
          exact answerWidens_next _
      · exact answerWidens_retire h64 hN 3 _ _

theorem conditionTrue_widen (x : Word XLEN) : conditionTrue (widen N x) = conditionTrue x := by
  rw [conditionTrue, conditionTrue, widen_toInt h64 hN]

theorem conditionFalse_widen (x : Word XLEN) : conditionFalse (widen N x) = conditionFalse x := by
  rw [conditionFalse, conditionFalse, widen_toInt h64 hN]

/-- An instruction that computes no result that overflows. -/
theorem execAt_widen {i : Instr XLEN} {s : State XLEN}
    (hov : ∀ v, exactResult i s = some v → overflowed XLEN v = false) :
    AnswerWidens N (execAt i s) (execAt (i.widen N) (s.widen N)) := by
  cases i with
  | add a b d =>
    exact execThree_widen h64 hN fun x y hx hy =>
      addWords_widen h64 hN (hov _ (by simp [exactResult, hx, hy]))
  | mul a b d =>
    exact execThree_widen h64 hN fun x y hx hy =>
      mulWords_widen h64 hN (hov _ (by simp [exactResult, hx, hy]))
  | lt a b d => exact execThree_widen h64 hN fun x y _ _ => lessWord_widen h64 hN x y
  | eq a b d => exact execThree_widen h64 hN fun x y _ _ => equalWord_widen h64 hN x y
  | inp d => exact execIn_widen h64 hN d s
  | out a => exact execOut_widen h64 hN a s
  | jt c g => exact execJump_widen h64 hN (conditionTrue_widen h64 hN) c g s
  | jf c g => exact execJump_widen h64 hN (conditionFalse_widen h64 hN) c g s
  | arb a => exact execArb_widen h64 hN fun v hv => hov _ (by simp [exactResult, hv])
  | halt => exact answerWidens_next s

/-! ## The fetch and the step -/

/-- R71, R84: the decoder looks at the signed value, and at the digits of a word that is not negative. -/
theorem decodeWord_widen (W : Word XLEN) : decodeWord (widen N W) = decodeWord W := by
  unfold decodeWord
  rw [widen_toInt h64 hN]
  by_cases hneg : W.toInt < 0
  · simp only [hneg, if_true]
  · obtain ⟨hle, -⟩ | ⟨-, h⟩ := toInt_cases (w := W)
    · rw [widen_toNat h64 hN hle]
    · exact absurd h hneg

/-- The fetch raises `InvalidAddress`, or comes to the same at a larger width. -/
theorem fetch_widen {s : State XLEN} (hip : s.IP.toNat ≤ Config.ADDR_MAX XLEN) :
    (fetch s = .idle ∧ fetch (s.widen N) = .idle) ∨
    (∃ k t, fetch s = .raises (.invalidAddress k) t) ∨
    (∃ f t, fetch s = .raises f t ∧ fetch (s.widen N) = .raises f (t.widen N)) ∨
    (∃ i t, fetch s = .run i t ∧ fetch (s.widen N) = .run (i.widen N) (t.widen N)) := by
  have hip' : (s.widen N).IP.toNat = s.IP.toNat := widen_toNat h64 hN hip
  have hle' : (s.widen N).IP.toNat ≤ Config.ADDR_MAX N := by
    rw [hip']
    exact Nat.le_trans hip (addrMax_mono hN)
  have hread (a : Nat) : (s.widen N).Mem.read a = widen N (s.Mem.read a) :=
    Memory.read_widen h64 hN s.Mem a
  have hint : ((s.widen N).Mem.read (s.widen N).IP.toNat).toInt = (s.Mem.read s.IP.toNat).toInt := by
    rw [hip', hread, widen_toInt h64 hN]
  obtain ⟨hf, hidle⟩ | ⟨-, hlt, -⟩ | ⟨h0, -, h99, hrun⟩ | ⟨h0, -, h99, hat⟩ := fetch_cases s
  · exact .inl ⟨hidle, fetch_of_faulted hf⟩
  · exact absurd hip (Nat.not_le.mpr hlt)
  · exact .inr (.inr (.inr ⟨_, _, hrun, fetch_of_halted h0 hle' (hint.trans h99)⟩))
  · have hat' : fetch (s.widen N) = fetchAt s.IP.toNat (s.widen N) := by
      rw [fetch_eq_fetchAt (s := s.widen N) h0 hle' (by rwa [hint]), hip']
    have hdec : decodeWord ((s.widen N).Mem.read s.IP.toNat) = decodeWord (s.Mem.read s.IP.toNat) := by
      rw [hread, decodeWord_widen h64 hN]
    rw [hat, hat']
    obtain ⟨f, hd, hr⟩ | ⟨h, hd, -, hr⟩ | ⟨h, hd, hfit, hr⟩ := fetchAt_cases s.IP.toNat s
    · refine .inr (.inr (.inl ⟨_, _, hr, ?_⟩))
      simp only [fetchAt, hdec, hd, State.widen_touch]
    · exact .inr (.inl ⟨_, _, hr⟩)
    · refine .inr (.inr (.inr ⟨_, _, hr, ?_⟩))
      simp only [fetchAt, hdec, hd, if_pos (Nat.le_trans hfit (addrMax_mono hN))]
      simp only [hread, Head.widen_instr, State.widen_touch]

/-- R100: a step that computes no result that overflows. -/
theorem stepAt_widen {s : State XLEN} (hip : s.IP.toNat ≤ Config.ADDR_MAX XLEN)
    (hov : s.overflowsNext = false) : AnswerWidens N (stepAt s) (stepAt (s.widen N)) := by
  obtain ⟨hidle, hraises, hrun⟩ := stepAt_of_fetch s
  obtain ⟨hidle', hraises', hrun'⟩ := stepAt_of_fetch (s.widen N)
  obtain ⟨hf, hf'⟩ | ⟨k, t, hf⟩ | ⟨f, t, hf, hf'⟩ | ⟨i, t, hf, hf'⟩ := fetch_widen h64 hN hip
  · rw [hidle hf, hidle' hf']
    exact answerWidens_next s
  · rw [hraises _ _ hf]
    exact answerWidens_invalidAddress _ _ _
  · rw [hraises _ _ hf, hraises' _ _ hf']
    exact answerWidens_next _
  · rw [hrun _ _ hf, hrun' _ _ hf']
    refine execAt_widen h64 hN fun v hv => ?_
    simpa only [State.overflowsNext, hf, hv] using hov

theorem afterStep_widen {s : State XLEN} (hip : s.IP.toNat ≤ Config.ADDR_MAX XLEN)
    (hov : s.overflowsNext = false) (hF : (afterStep s).FAULT ≠ 4#3) :
    afterStep (s.widen N) = (afterStep s).widen N := by
  obtain ⟨t, ht⟩ := stepAt_next s
  rw [afterStep_of_stepAt ht] at hF ⊢
  exact afterStep_of_stepAt (stepAt_widen h64 hN hip hov t ht hF)

/-! ## The outcome (R112) -/

/-- R130: an IN takes the same word at a larger width, unless it raises `InvalidAddress`. -/
theorem inputOf_widen {i : Instr XLEN} {s t : State XLEN} (h : execAt i s = .next t)
    (hF : t.FAULT ≠ 4#3) :
    inputOf (i.widen N) (s.widen N) = (inputOf i s).map (Option.map (widen N)) := by
  cases i with
  | inp d =>
    cases hc : inputCell d s with
    | error f =>
      cases (execIn_of_error hc).symm.trans h
      simp only [inputOf, Instr.widen, hc, inputCell_widen_error hc hF, Option.map_none]
    | ok e =>
      simp only [inputOf, Instr.widen, hc, inputCell_widen_ok h64 hN hc, State.widen_INQ,
        List.head?_map, Option.map_some]
  | _ => rfl

/-- R131: an OUT appends the same word at a larger width, unless it raises `InvalidAddress`. -/
theorem outputOf_widen {i : Instr XLEN} {s t : State XLEN} (h : execAt i s = .next t)
    (hF : t.FAULT ≠ 4#3) :
    outputOf (i.widen N) (s.widen N) = (outputOf i s).map (widen N) := by
  cases i with
  | out a =>
    cases hv : sourceValue a s with
    | none =>
      cases (execOut_of_source_none hv).symm.trans h
      exact absurd rfl hF
    | some v =>
      by_cases hi : s.IP.toNat + 2 ≤ Config.ADDR_MAX XLEN
      · have hip : (widen N s.IP).toNat = s.IP.toNat := widen_toNat h64 hN (by omega)
        have hi' : s.IP.toNat + 2 ≤ Config.ADDR_MAX N := Nat.le_trans hi (addrMax_mono hN)
        simp only [outputOf, Instr.widen, State.widen_IP, hip, hi, hi', if_true, hv,
          sourceValue_widen h64 hN hv, Option.map_some]
      · obtain ⟨m, hm⟩ := execOut_above hv (Nat.not_le.mp hi)
        cases hm.symm.trans h
        exact absurd rfl hF
  | _ => rfl

section
variable {s : State XLEN} (hip : s.IP.toNat ≤ Config.ADDR_MAX XLEN) (hF : (afterStep s).FAULT ≠ 4#3)
include hip hF

/-- The channel words of the next step are the same at a larger width. -/
theorem next_widen :
    nextInput (s.widen N) = (nextInput s).map (Option.map (widen N)) ∧
      nextOutput (s.widen N) = (nextOutput s).map (widen N) := by
  obtain ⟨-, hraises, hrun⟩ := stepAt_of_fetch s
  obtain ⟨hf, hf'⟩ | ⟨k, t, hf⟩ | ⟨f, t, hf, hf'⟩ | ⟨i, u, hf, hf'⟩ := fetch_widen h64 hN hip
  · simp only [nextInput, nextOutput, hf, hf', Option.map_none, and_self]
  · rw [afterStep_of_stepAt (hraises _ _ hf)] at hF
    exact absurd rfl hF
  · simp only [nextInput, nextOutput, hf, hf', Option.map_none, and_self]
  · obtain ⟨t, ht⟩ := execAt_next i u
    rw [afterStep_of_stepAt ((hrun _ _ hf).trans ht)] at hF
    simp only [nextInput, nextOutput, hf, hf']
    exact ⟨inputOf_widen h64 hN ht hF, outputOf_widen h64 hN ht hF⟩

omit hF in
theorem halted_widen : halted (s.widen N) = halted s := by
  have hip' : (s.widen N).IP.toNat = s.IP.toNat := widen_toNat h64 hN hip
  rw [halted, halted, hip', State.widen_Mem, Memory.read_widen h64 hN, widen_toInt h64 hN]

theorem outcome_widen (hov : s.overflowsNext = false) :
    outcome (s.widen N) = (outcome s).widen N := by
  obtain ⟨hin, hout⟩ := next_widen h64 hN hip hF
  have hhold : nextInput (s.widen N) = some none ↔ nextInput s = some none := by
    simp [hin]
  have hlast : (nextOutput (s.widen N)).elim .retired .retiredOutput =
      ((nextOutput s).elim .retired .retiredOutput : StepOutcome XLEN).widen N := by
    rw [hout]
    cases nextOutput s <;> rfl
  rw [outcome_eq, outcome_eq, afterStep_widen h64 hN hip hov hF, halted_widen h64 hN hip, hlast]
  simp only [hhold, State.widen_FAULT, State.widen_FINFO, apply_ite (StepOutcome.widen N)]
  rfl

end

end

/-! ## The statement -/

/-- Settles O60: the fetch, the instruction and the outcome commute with the change of width. -/
theorem stepIsTheSameAtEveryLargerWidth : Obligations.StepIsTheSameAtEveryLargerWidth := by
  refine ⟨fun s => (stepAt_eq_step s).symm, fun XLEN N h64 hN s hinv hov hF => ?_⟩
  obtain ⟨-, hip, -⟩ := hinv
  exact ⟨afterStep_widen h64 hN hip hov hF, outcome_widen h64 hN hip hF hov⟩

end Sys2Proof.Machine
end

section
/-! PROOFS of 47_host_interface.md, section 4: what an event of one instance leaves alone (R184, R210), how
a shared channel is handed over (R185), and that a starved instance stays starved (R187). -/

namespace Sys2Proof.Machine

variable {XLEN : Nat}

/-! ## The view of an instance -/

section
variable (y : System XLEN) (n : Node XLEN)

@[simp] theorem System.view_Mem : (y.view n).Mem = n.own.Mem := rfl
@[simp] theorem System.view_IP : (y.view n).IP = n.own.IP := rfl
@[simp] theorem System.view_RB : (y.view n).RB = n.own.RB := rfl
@[simp] theorem System.view_FAULT : (y.view n).FAULT = n.own.FAULT := rfl
@[simp] theorem System.view_FINFO : (y.view n).FINFO = n.own.FINFO := rfl
@[simp] theorem System.view_INQ : (y.view n).INQ = y.chan n.inCh := rfl
@[simp] theorem System.view_OUTQ : (y.view n).OUTQ = y.chan n.outCh := rfl

end

/-- The node left when instance `k` is put back with state `t`. -/
def Node.withState (n : Node XLEN) (t : State XLEN) : Node XLEN :=
  { n with own := { t with INQ := n.own.INQ, OUTQ := n.own.OUTQ } }

section
variable {y : System XLEN} {k : Nat} {n : Node XLEN} (t : State XLEN)

theorem System.putBack_self (hk : y.nodes[k]? = some n) :
    (y.putBack k n t).nodes[k]? = some (n.withState t) := by
  obtain ⟨hlt, -⟩ := List.getElem?_eq_some_iff.mp hk
  rw [System.putBack_nodes, List.getElem?_set_self hlt]
  rfl

theorem System.putBack_other {j : Nat} (hj : j ≠ k) : (y.putBack k n t).nodes[j]? = y.nodes[j]? := by
  rw [System.putBack_nodes, List.getElem?_set_ne hj.symm]

end

/-! ## The wiring (R185) -/

section
variable {y : System XLEN} {k : Nat} {n : Node XLEN} (ht : y.topologyOk = true)
include ht

theorem System.topologyOk_nodup :
    (y.nodes.map Node.outCh ++ y.hostFeeds).Nodup ∧ (y.nodes.map Node.inCh ++ y.hostTakes).Nodup := by
  simp only [System.topologyOk, Bool.and_eq_true, decide_eq_true_eq] at ht
  exact ht.1

theorem System.topologyOk_lt (hk : y.nodes[k]? = some n) :
    n.inCh < y.chans.length ∧ n.outCh < y.chans.length := by
  have hn : n ∈ y.nodes := List.mem_of_getElem? hk
  simp only [System.topologyOk, Bool.and_eq_true, List.all_eq_true, decide_eq_true_eq] at ht
  obtain ⟨-, hall⟩ := ht
  constructor
  · exact hall _ (List.mem_append_right _ (List.mem_append_left _ (List.mem_map_of_mem hn)))
  · exact hall _ (List.mem_append_left _ (List.mem_append_left _ (List.mem_map_of_mem hn)))

/-- In a legal wiring a channel an instance writes has that instance for its producer. -/
theorem System.producer?_outCh (hk : y.nodes[k]? = some n) : y.producer? n.outCh = some (.node k) := by
  obtain ⟨hnodup, -⟩ := System.topologyOk_nodup ht
  obtain ⟨hmap, -, hdisj⟩ := List.nodup_append.mp hnodup
  obtain ⟨hlt, hget⟩ := List.getElem?_eq_some_iff.mp hk
  have hfeeds : n.outCh ∉ y.hostFeeds := fun hm =>
    hdisj _ (List.mem_map_of_mem (List.mem_of_getElem? hk)) _ hm rfl
  have hidx : y.nodes.findIdx? (fun p => decide (p.outCh = n.outCh)) = some k := by
    refine List.findIdx?_eq_some_iff_getElem.mpr ⟨hlt, by simp [hget], fun j hjk hj => ?_⟩
    have hj' : (y.nodes.map Node.outCh)[j]'(by rw [List.length_map]; omega) =
        (y.nodes.map Node.outCh)[k]'(by rwa [List.length_map]) := by
      simpa [hget] using hj
    have := (List.Nodup.getElem_inj_iff hmap).mp hj'
    omega
  simp [System.producer?, hfeeds, hidx]

omit ht in
theorem System.producer?_of_feeds {c : Nat} (h : c ∈ y.hostFeeds) : y.producer? c = some .host :=
  if_pos h

end

/-- The producer of a channel is a function of the wiring. -/
theorem System.producer?_congr {y z : System XLEN}
    (ho : z.nodes.map Node.outCh = y.nodes.map Node.outCh) (hf : z.hostFeeds = y.hostFeeds) (c : Nat) :
    z.producer? c = y.producer? c := by
  have hidx (w : System XLEN) : w.nodes.findIdx? (fun n => decide (n.outCh = c)) =
      (w.nodes.map Node.outCh).findIdx? (fun d => decide (d = c)) := by
    rw [List.findIdx?_map]
    rfl
  rw [System.producer?, System.producer?, hidx, hidx, ho, hf]

/-! ## Events of one instance (R183) -/

/-- R241: an instance is not reset alone. -/
theorem System.noReset_of_permits {y : System XLEN} {n : Node XLEN} {op : HostOp XLEN}
    (h : y.permits n op = true) : noReset [op] = true := by
  cases op with
  | new P => cases h
  | _ => rfl

theorem System.apply_of_not_permits {y : System XLEN} {k : Nat} {n : Node XLEN} {op : HostOp XLEN}
    (hk : y.nodes[k]? = some n) (hp : y.permits n op = false) : y.apply (.on k op) = (.refused, y) := by
  by_cases ht : y.topologyOk = true <;> simp [System.apply, ht, hk, hp]

theorem System.apply_of_illegal {y : System XLEN} (e : SysEvent XLEN) (ht : y.topologyOk = false) :
    y.apply e = (.refused, y) := by
  simp [System.apply, ht]

/-- Everything an event on an instance the system has can do. -/
theorem System.apply_on_cases {y : System XLEN} {k : Nat} {n : Node XLEN} (op : HostOp XLEN)
    (hk : y.nodes[k]? = some n) :
    y.apply (.on k op) = (.refused, y) ∨
    (y.topologyOk = true ∧ y.permits n op = true ∧
      y.apply (.on k op) = ((hostDo op (y.view n)).1, y.putBack k n (hostDo op (y.view n)).2)) := by
  obtain h | ⟨k', op', n', he, ht, hk', hp, h⟩ | ⟨Ps, z, he, -⟩ := y.apply_cases (.on k op)
  · exact .inl h
  · cases he
    cases hk.symm.trans hk'
    exact .inr ⟨ht, hp, h⟩
  · cases he

/-- A step that appends to OUTQ takes nothing from INQ, and reports the word. -/
theorem nextOutput_reports {s : State XLEN} {v : Word XLEN} (h : nextOutput s = some v) :
    nextInput s = none ∧ outcome s = .retiredOutput v := by
  obtain ⟨a, m, -, -, hf, hi, hsrc⟩ := nextOutput_some h
  exact ⟨by simp only [nextInput, hf, inputOf], outcome_of_fetch_out hf (sourceValue_mlen hsrc) hi⟩

/-- R132: everything a host operation but reset can do to the two channels: it changes at most one of
them, and only a push and an OUT add to one. -/
theorem hostDo_channels_cases {op : HostOp XLEN} (s : State XLEN) (hr : noReset [op] = true) :
    (op = .step ∧ ∃ v, nextOutput s = some v ∧ (hostDo op s).2.INQ = s.INQ ∧
      (hostDo op s).2.OUTQ = s.OUTQ ++ [v]) ∨
    (∃ x, op = .pushInput x ∧ (hostDo op s).2.INQ = s.INQ ++ [x] ∧ (hostDo op s).2.OUTQ = s.OUTQ) ∨
    ((hostDo op s).2.INQ = s.INQ ∧ (hostDo op s).2.OUTQ <:+ s.OUTQ) ∨
    ((hostDo op s).2.INQ <:+ s.INQ ∧ (hostDo op s).2.OUTQ = s.OUTQ) := by
  cases op with
  | new P => cases hr
  | step =>
    obtain ⟨hin, hout⟩ := afterStep_channels s
    cases hv : nextOutput s with
    | none =>
      rw [hv] at hout
      exact .inr (.inr (.inr ⟨⟨_, hin.symm⟩, hout.trans (List.append_nil _)⟩))
    | some v =>
      rw [(nextOutput_reports hv).1] at hin
      rw [hv] at hout
      exact .inl ⟨rfl, v, rfl, hin.symm, hout⟩
  | pushInput x => exact .inr (.inl ⟨x, rfl, rfl, rfl⟩)
  | poke a x =>
    refine .inr (.inr (.inl ?_))
    cases hl : legalAddress XLEN a with
    | none => rw [hostDo_poke_of_illegal x s hl]; exact ⟨rfl, List.suffix_rfl⟩
    | some e => rw [hostDo_poke_of_legal x s hl]; exact ⟨rfl, List.suffix_rfl⟩
  | peek a =>
    refine .inr (.inr (.inl ?_))
    cases hl : legalAddress XLEN a with
    | none => rw [hostDo_peek_of_illegal s hl]; exact ⟨rfl, List.suffix_rfl⟩
    | some e => rw [hostDo_peek_of_legal s hl]; exact ⟨rfl, List.suffix_rfl⟩
  | popOutput =>
    rw [hostDo_popOutput_state]
    exact .inr (.inr (.inl ⟨rfl, List.tail_suffix _⟩))
  | drainOutputs => exact .inr (.inr (.inl ⟨rfl, List.nil_suffix⟩))
  | clearInput => exact .inr (.inr (.inr ⟨List.nil_suffix, rfl⟩))
  | view => exact .inr (.inr (.inl ⟨rfl, List.suffix_rfl⟩))
  | isHalted => exact .inr (.inr (.inl ⟨rfl, List.suffix_rfl⟩))

/-! ## The statements about one event -/

/-- Settles O57: an event of instance `k` puts back its node and its channels, or is refused. -/
theorem stepOfOneInstanceLeavesTheOthers : Obligations.StepOfOneInstanceLeavesTheOthers := by
  refine ⟨fun y k op n hk => ?_, fun y e => System.apply_of_illegal e⟩
  obtain h | ⟨-, -, h⟩ := System.apply_on_cases op hk <;> rw [h]
  · exact ⟨fun _ _ => rfl, fun _ _ _ => rfl, ⟨n, hk, rfl, rfl⟩, rfl, rfl, rfl, id⟩
  · exact ⟨fun j hj => System.putBack_other _ hj, fun c => System.putBack_chan_other y k n _,
      ⟨_, System.putBack_self _ hk, rfl, rfl⟩, System.putBack_length y k n _, rfl, rfl,
      (System.putBack_topologyOk _ hk).trans⟩

section
variable {y : System XLEN} {k : Nat} {n : Node XLEN} {op : HostOp XLEN} (ht : y.topologyOk = true)
  (hk : y.nodes[k]? = some n) (hp : y.permits n op = true)
include ht hk hp

/-- R184: an event that leaves INQ alone puts OUTQ on the instance's output channel. -/
theorem System.apply_chan_out (hin : (hostDo op (y.view n)).2.INQ = y.chan n.inCh) :
    (y.apply (.on k op)).2.chan n.outCh = (hostDo op (y.view n)).2.OUTQ ∧
      ∀ c, c ≠ n.outCh → (y.apply (.on k op)).2.chan c = y.chan c := by
  obtain ⟨-, hlt⟩ := System.topologyOk_lt ht hk
  rw [System.apply_on ht hk hp]
  refine ⟨?_, fun c hc => ?_⟩
  · exact (System.putBack_chan_out y k n _ n.outCh hin).trans (if_pos ⟨rfl, hlt⟩)
  · exact (System.putBack_chan_out y k n _ c hin).trans (if_neg fun h => hc h.1)

/-- R184: an event that leaves OUTQ alone puts INQ on the instance's input channel. -/
theorem System.apply_chan_in (hout : (hostDo op (y.view n)).2.OUTQ = y.chan n.outCh) :
    (y.apply (.on k op)).2.chan n.inCh = (hostDo op (y.view n)).2.INQ ∧
      ∀ c, c ≠ n.inCh → (y.apply (.on k op)).2.chan c = y.chan c := by
  obtain ⟨hlt, -⟩ := System.topologyOk_lt ht hk
  rw [System.apply_on ht hk hp]
  refine ⟨?_, fun c hc => ?_⟩
  · exact (System.putBack_chan_in y k n _ n.inCh hout).trans (if_pos ⟨rfl, hlt⟩)
  · exact (System.putBack_chan_in y k n _ c hout).trans (if_neg fun h => hc h.1)

end

/-- Settles O58: each operation changes at most one of the instance's two channels, as R130, R131, R174 and
R175 say. -/
theorem sharedChannelHandsOverInOrder : Obligations.SharedChannelHandsOverInOrder := by
  intro y k n ht hk
  obtain ⟨hin, hout⟩ := afterStep_channels (y.view n)
  refine ⟨fun v hv => ?_, fun x hx => ?_, fun x => ⟨fun hf => ?_, fun hf => ?_⟩,
    fun x q htk hq => ?_, fun htk => ⟨?_, ?_⟩⟩
  · obtain ⟨hnone, ho⟩ := nextOutput_reports hv
    rw [hnone] at hin
    rw [hv] at hout
    obtain ⟨hself, hother⟩ := System.apply_chan_out (op := .step) ht hk rfl hin.symm
    refine ⟨?_, hself.trans hout, hother n.inCh⟩
    rw [System.apply_on ht hk rfl]
    exact congrArg HostReply.attempted ho
  · have hnone : nextOutput (y.view n) = none := by
      cases hv : nextOutput (y.view n) with
      | none => rfl
      | some v => cases (nextOutput_reports hv).1.symm.trans hx
    rw [hx] at hin
    rw [hnone] at hout
    obtain ⟨hself, hother⟩ :=
      System.apply_chan_in (op := .step) ht hk rfl (hout.trans (List.append_nil _))
    refine ⟨?_, fun hne => hother n.outCh hne.symm⟩
    rw [hself]
    exact hin
  · exact (System.apply_chan_in (op := .pushInput x) ht hk (decide_eq_true hf) rfl).1
  · exact System.apply_of_not_permits hk (decide_eq_false hf)
  · have hpop := hostDo_popOutput_of_cons (s := y.view n) hq
    have happ := System.apply_on (op := .popOutput) ht hk (decide_eq_true htk)
    obtain ⟨hself, -⟩ :=
      System.apply_chan_out (op := .popOutput) ht hk (decide_eq_true htk) (by rw [hpop]; rfl)
    rw [hpop] at hself
    rw [happ, hpop]
    rw [happ, hpop] at hself
    exact ⟨rfl, hself⟩
  · exact System.apply_of_not_permits hk (decide_eq_false htk)
  · exact System.apply_of_not_permits hk (decide_eq_false htk)

end Sys2Proof.Machine
end

section
/-! PROOFS of 47_host_interface.md, the stuck state (R187): the bound in `mayFeed` is no bound, an ordinary
event makes no channel feedable that was not, and so a starved instance stays starved. -/

namespace Sys2Proof.Machine

variable {XLEN : Nat}

/-! ## Chains of waiting producers -/

theorem System.exists_node_of_producer? {y : System XLEN} {c j : Nat}
    (h : y.producer? c = some (.node j)) : ∃ p, y.nodes[j]? = some p := by
  unfold System.producer? at h
  split at h
  · cases h
  · obtain ⟨i, hi, hij⟩ := Option.map_eq_some_iff.mp h
    cases hij
    obtain ⟨hlt, -⟩ := List.findIdx?_eq_some_iff_getElem.mp hi
    exact ⟨_, List.getElem?_eq_getElem hlt⟩

/-- R187: who may feed a channel, one link of the chain at a time. -/
theorem System.mayFeed_succ {y : System XLEN} {sends : List Nat} {b c : Nat} :
    y.mayFeed sends (b + 1) c = true ↔
      (y.producer? c = some .host ∧ c ∈ sends) ∨
      ∃ j p, y.producer? c = some (.node j) ∧ y.nodes[j]? = some p ∧
        (y.status p = .running ∨ (y.status p = .waiting ∧ y.mayFeed sends b p.inCh = true)) := by
  rw [System.mayFeed]
  cases hp : y.producer? c with
  | none => simp
  | some a =>
    cases a with
    | host => simp
    | node j =>
      cases hj : y.nodes[j]? with
      | none => simp [hj]
      | some p => cases hs : y.status p <;> simp [hj, hs]

section
variable {y : System XLEN} {sends : List Nat}

theorem System.mayFeed_succ_of_mayFeed {b c : Nat} (h : y.mayFeed sends b c = true) :
    y.mayFeed sends (b + 1) c = true := by
  induction b generalizing c with
  | zero => cases h
  | succ b ih =>
    obtain hhost | ⟨j, p, hc, hj, hs⟩ := System.mayFeed_succ.mp h
    · exact System.mayFeed_succ.mpr (.inl hhost)
    · exact System.mayFeed_succ.mpr (.inr ⟨j, p, hc, hj, hs.imp_right (And.imp_right ih)⟩)

theorem System.mayFeed_mono {b b' c : Nat} (hle : b ≤ b') (h : y.mayFeed sends b c = true) :
    y.mayFeed sends b' c = true := by
  induction hle with
  | refl => exact h
  | step _ ih => exact System.mayFeed_succ_of_mayFeed ih

/-- A chain that needs `r + 1` links has an instance for each shorter length. -/
theorem System.exists_node_of_chain {r c : Nat} (hr : y.mayFeed sends r c = false)
    (hr' : y.mayFeed sends (r + 1) c = true) :
    ∀ q, q < r → ∃ (j : Nat) (p : Node XLEN), y.nodes[j]? = some p ∧ y.mayFeed sends q p.inCh = false ∧
      y.mayFeed sends (q + 1) p.inCh = true := by
  induction r generalizing c with
  | zero => exact fun q hq => absurd hq (Nat.not_lt_zero q)
  | succ r ih =>
    obtain hhost | ⟨j, p, hc, hj, hs⟩ := System.mayFeed_succ.mp hr'
    · rw [System.mayFeed_succ.mpr (.inl hhost)] at hr
      cases hr
    · obtain hrun | ⟨hw, hlong⟩ := hs
      · rw [System.mayFeed_succ.mpr (.inr ⟨j, p, hc, hj, .inl hrun⟩)] at hr
        cases hr
      · have hshort : y.mayFeed sends r p.inCh = false := by
          rw [Bool.eq_false_iff]
          intro h
          rw [System.mayFeed_succ.mpr (.inr ⟨j, p, hc, hj, .inr ⟨hw, h⟩⟩)] at hr
          cases hr
        intro q hq
        obtain rfl | hlt := Nat.lt_succ_iff_lt_or_eq.mp hq |>.symm
        · exact ⟨j, p, hj, hshort, hlong⟩
        · exact ih hshort hlong q hlt

/-- These instances are distinct, so a chain is no longer than the instances are many. -/
theorem System.chain_le {r c : Nat} (hr : y.mayFeed sends r c = false)
    (hr' : y.mayFeed sends (r + 1) c = true) : r ≤ y.nodes.length := by
  have hnode (q : Fin r) := System.exists_node_of_chain hr hr' q q.isLt
  choose j p hj hshort hlong using hnode
  have hlt (q : Fin r) : j q < y.nodes.length := (List.getElem?_eq_some_iff.mp (hj q)).1
  have hle (q q' : Fin r) (h : j q = j q') : q' ≤ q := by
    have hp : p q = p q' := Option.some.inj ((hj q).symm.trans (h ▸ hj q'))
    by_contra hn
    have hmono := System.mayFeed_mono (Fin.lt_def.mp (not_le.mp hn)) (hlong q)
    rw [hp, hshort q'] at hmono
    cases hmono
  have hinj : Function.Injective fun q => (⟨j q, hlt q⟩ : Fin y.nodes.length) := fun q q' h =>
    le_antisymm (hle q' q (congrArg Fin.val h).symm) (hle q q' (congrArg Fin.val h))
  simpa using Fintype.card_le_of_injective _ hinj

/-- R187: the bound of `starved` is long enough for every chain. -/
theorem System.mayFeed_false_of_bound {c : Nat} (h : y.mayFeed sends (y.nodes.length + 1) c = false)
    (b : Nat) : y.mayFeed sends b c = false := by
  induction b with
  | zero => rfl
  | succ b ih =>
    rw [Bool.eq_false_iff]
    intro hb
    rw [System.mayFeed_mono (Nat.succ_le_succ (System.chain_le ih hb)) hb] at h
    cases h

/-- R187: a starved instance waits, and no chain of any length leads to a value on its channel. -/
theorem System.starved_iff {n : Node XLEN} :
    y.starved sends n = true ↔
      y.status n = .waiting ∧ ∀ b, y.mayFeed sends b n.inCh = false := by
  rw [System.starved, Bool.and_eq_true, decide_eq_true_eq, Bool.not_eq_true']
  exact and_congr_right fun _ => ⟨System.mayFeed_false_of_bound, fun h => h _⟩

end

/-! ## What a core that is not running keeps (R24) -/

/-- The two states have the same tape, the same IP and RB, and the same fault latch. -/
structure SameCore (s t : State XLEN) : Prop where
  mem   : t.Mem = s.Mem
  ip    : t.IP = s.IP
  rb    : t.RB = s.RB
  fault : t.FAULT = s.FAULT

/-- R24: halted or faulted. -/
def stopped (s : State XLEN) : Prop := s.FAULT ≠ 0#3 ∨ halted s = true

theorem status_cases_stopped (s : State XLEN) :
    status s = .running ∨ status s = .waiting ∨ stopped s := by
  obtain ⟨hf, -⟩ | ⟨-, hh, -⟩ | ⟨-, -, -, hs⟩ | ⟨-, -, -, hs⟩ := status_cases s
  · exact .inr (.inr (.inl hf))
  · exact .inr (.inr (.inr hh))
  · exact .inr (.inl hs)
  · exact .inl hs

theorem stopped.status_ne {s : State XLEN} (h : stopped s) : status s ≠ .running ∧ status s ≠ .waiting := by
  obtain ⟨hf, hs⟩ | ⟨-, hh, hs⟩ | ⟨hf, hh, -, hs⟩ | ⟨hf, hh, -, hs⟩ := status_cases s
  · simp [hs]
  · simp [hs]
  · simp [stopped, hf, hh] at h
  · simp [stopped, hf, hh] at h

theorem SameCore.stopped_iff {s t : State XLEN} (h : SameCore s t) : stopped t ↔ stopped s := by
  have hh : halted t = halted s := halted_congr h.ip (by rw [h.mem])
  rw [stopped, stopped, h.fault, hh]

/-- With INQ empty in both, one waits exactly if the other does. -/
theorem SameCore.waiting_iff {s t : State XLEN} (h : SameCore s t) (hq : t.INQ = s.INQ) :
    status t = .waiting ↔ status s = .waiting := by
  have ha : Agree s t := ⟨h.mem.symm, h.ip.symm, h.rb.symm, h.fault.symm, by rw [hq]⟩
  rw [status_waiting_iff, status_waiting_iff, h.fault, ha.halted_eq, ha.nextInput_eq]

/-- R101, R209: an attempt at a step of a stopped core leaves it stopped. -/
theorem afterStep_stopped {s : State XLEN} (h : stopped s) : stopped (afterStep s) := by
  obtain ⟨hidle, hraises, hrun⟩ := stepAt_of_fetch s
  obtain ⟨-, hf⟩ | ⟨-, -, hf⟩ | ⟨-, -, -, hf⟩ | ⟨h0, -, hne, -⟩ := fetch_cases s
  · rwa [afterStep_of_stepAt (hidle hf)]
  · rw [afterStep_of_stepAt (hraises _ _ hf)]
    exact .inl (Fault.invalidAddress 0).code_ne_zero
  · have hstep : stepAt s = .next s := hrun _ _ hf
    rwa [afterStep_of_stepAt hstep]
  · exact absurd (halted_iff.mp (h.resolve_left (not_not.mpr h0))) hne

/-- R111: a held attempt changes nothing but the hidden length. -/
theorem afterStep_of_waiting {s : State XLEN} (h : status s = .waiting) :
    ∃ m, afterStep s = { s with MLEN := m } := by
  obtain ⟨-, -, hw⟩ := status_waiting_iff.mp h
  obtain ⟨hnone, d, e, m, -, -, hf, hc⟩ := nextInput_some hw
  have hq : s.INQ = [] := List.head?_eq_none_iff.mp hnone.symm
  exact ⟨m, afterStep_of_stepAt (((stepAt_of_fetch s).2.2 _ _ hf).trans (execIn_hold hc hq))⟩

/-- R24: a core whose next step appends to OUTQ is running. -/
theorem status_of_nextOutput {s : State XLEN} {v : Word XLEN} (h : nextOutput s = some v) :
    status s = .running := by
  obtain ⟨hnone, -⟩ := nextOutput_reports h
  obtain ⟨a, m, -, h0, hf, -⟩ := nextOutput_some h
  exact status_running_iff.mpr ⟨h0, halted_eq_false_of_fetch hf nofun, by simp [hnone]⟩

/-! ## What an ordinary event leaves (R187) -/

section
variable {y : System XLEN} {sends : List Nat} {e : SysEvent XLEN}

/-- No event changes which channel is whose. -/
theorem System.apply_producer? (hord : y.ordinary sends e = true) (c : Nat) :
    (y.apply e).2.producer? c = y.producer? c := by
  obtain h | ⟨k, op, n, -, -, hk, -, h⟩ | ⟨Ps, z, rfl, -⟩ := y.apply_cases e
  · rw [h]
  · rw [h]
    exact System.producer?_congr (System.putBack_wiring _ (fun _ _ => rfl) _ hk) rfl c
  · cases hord

/-- An ordinary event leaves an instance its wiring, and its core as it was or as its own step leaves it. -/
theorem System.apply_node (hord : y.ordinary sends e = true) {j : Nat} {p : Node XLEN}
    (hj : y.nodes[j]? = some p) :
    ∃ p', (y.apply e).2.nodes[j]? = some p' ∧ p'.inCh = p.inCh ∧
      (SameCore (y.view p) ((y.apply e).2.view p') ∨
        SameCore (afterStep (y.view p)) ((y.apply e).2.view p')) := by
  obtain h | ⟨k, op, n, rfl, -, hk, hp, h⟩ | ⟨Ps, z, rfl, -⟩ := y.apply_cases e
  · rw [h]
    exact ⟨p, hj, rfl, .inl ⟨rfl, rfl, rfl, rfl⟩⟩
  · rw [h]
    by_cases hjk : j = k
    · subst hjk
      obtain rfl : p = n := Option.some.inj (hj.symm.trans hk)
      refine ⟨_, System.putBack_self _ hj, rfl, ?_⟩
      obtain rfl | ⟨a, x, n, rfl, -⟩ | ⟨q, o, m, -, hframe⟩ :=
        hostDo_frame op (y.view p) (System.noReset_of_permits hp)
      · exact .inr ⟨rfl, rfl, rfl, rfl⟩
      · cases hord
      · rw [hframe]
        exact .inl ⟨rfl, rfl, rfl, rfl⟩
    · exact ⟨p, (System.putBack_other _ hjk).trans hj, rfl, .inl ⟨rfl, rfl, rfl, rfl⟩⟩
  · cases hord

/-- An ordinary event puts no word on an empty channel that no agent has a step to feed. -/
theorem System.apply_chan_empty (hord : y.ordinary sends e = true) {c : Nat} (hc : y.chan c = [])
    (hun : ∀ b, y.mayFeed sends b c = false) : (y.apply e).2.chan c = [] := by
  obtain h | ⟨k, op, n, rfl, ht, hk, hp, -⟩ | ⟨Ps, z, rfl, -⟩ := y.apply_cases e
  · rwa [h]
  · obtain ⟨-, v, hv, hin, -⟩ | ⟨x, rfl, -, hout⟩ | ⟨hin, hout⟩ | ⟨hin, hout⟩ :=
      hostDo_channels_cases (y.view n) (System.noReset_of_permits hp)
    · obtain ⟨-, hother⟩ := System.apply_chan_out ht hk hp hin
      refine (hother c ?_).trans hc
      rintro rfl
      exact Bool.false_ne_true <| (hun 1).symm.trans <| System.mayFeed_succ.mpr <|
        .inr ⟨k, n, System.producer?_outCh ht hk, hk, .inl (status_of_nextOutput hv)⟩
    · obtain ⟨-, hother⟩ := System.apply_chan_in ht hk hp hout
      refine (hother c ?_).trans hc
      rintro rfl
      have hsend : n.inCh ∈ sends := by simpa [System.ordinary, hk] using hord
      exact Bool.false_ne_true <| (hun 1).symm.trans <| System.mayFeed_succ.mpr <|
        .inl ⟨System.producer?_of_feeds (of_decide_eq_true hp), hsend⟩
    · obtain ⟨hself, hother⟩ := System.apply_chan_out ht hk hp hin
      by_cases hco : c = n.outCh
      · rw [System.view_OUTQ, ← hco, hc] at hout
        rw [hco, hself, List.suffix_nil.mp hout]
      · rw [hother c hco, hc]
    · obtain ⟨hself, hother⟩ := System.apply_chan_in ht hk hp hout
      by_cases hci : c = n.inCh
      · rw [System.view_INQ, ← hci, hc] at hin
        rw [hci, hself, List.suffix_nil.mp hin]
      · rw [hother c hci, hc]
  · cases hord

/-- An instance that waits for a channel no agent has a step to feed waits after an ordinary event too. -/
theorem System.apply_keeps_waiting (hord : y.ordinary sends e = true) {j : Nat} {p : Node XLEN}
    (hj : y.nodes[j]? = some p) (hw : y.status p = .waiting)
    (hun : ∀ b, y.mayFeed sends b p.inCh = false) :
    ∃ p', (y.apply e).2.nodes[j]? = some p' ∧ p'.inCh = p.inCh ∧ (y.apply e).2.status p' = .waiting := by
  obtain ⟨-, hempty, -⟩ := status_waiting_iff_decodes.mp hw
  obtain ⟨p', hj', hin, hcore⟩ := System.apply_node hord hj
  refine ⟨p', hj', hin, ?_⟩
  have hcore' : SameCore (y.view p) ((y.apply e).2.view p') := by
    obtain hcore | hcore := hcore
    · exact hcore
    · obtain ⟨m, hm⟩ := afterStep_of_waiting hw
      rw [hm] at hcore
      exact ⟨hcore.mem, hcore.ip, hcore.rb, hcore.fault⟩
  have hq : ((y.apply e).2.view p').INQ = (y.view p).INQ := by
    rw [System.view_INQ, hin, hempty]
    exact System.apply_chan_empty hord hempty hun
  exact (hcore'.waiting_iff hq).mpr hw

/-- An ordinary event makes no channel feedable that was not. -/
theorem System.mayFeed_of_apply (hord : y.ordinary sends e = true) {b c : Nat}
    (h : (y.apply e).2.mayFeed sends b c = true) : ∃ b', y.mayFeed sends b' c = true := by
  induction b generalizing c with
  | zero => cases h
  | succ b ih =>
    obtain ⟨hc, hs⟩ | ⟨j, p', hc, hj', hstatus⟩ := System.mayFeed_succ.mp h
    · rw [System.apply_producer? hord] at hc
      exact ⟨1, System.mayFeed_succ.mpr (.inl ⟨hc, hs⟩)⟩
    · rw [System.apply_producer? hord] at hc
      obtain ⟨p, hj⟩ := System.exists_node_of_producer? hc
      obtain ⟨q, hq, -, hcore⟩ := System.apply_node hord hj
      cases hj'.symm.trans hq
      obtain hrun | hwait | hstop := status_cases_stopped (y.view p)
      · exact ⟨1, System.mayFeed_succ.mpr (.inr ⟨j, p, hc, hj, .inl hrun⟩)⟩
      · by_contra hnone
        have hun : ∀ b, y.mayFeed sends b p.inCh = false := by
          intro b
          rw [Bool.eq_false_iff]
          intro hb
          exact hnone ⟨b + 1, System.mayFeed_succ.mpr (.inr ⟨j, p, hc, hj, .inr ⟨hwait, hb⟩⟩)⟩
        obtain ⟨q, hq', hin, hw'⟩ := System.apply_keeps_waiting hord hj hwait hun
        cases hj'.symm.trans hq'
        obtain hrun | ⟨-, hfeed⟩ := hstatus
        · cases hw'.symm.trans hrun
        · rw [hin] at hfeed
          obtain ⟨b', hb'⟩ := ih hfeed
          rw [hun b'] at hb'
          cases hb'
      · have hstop' : stopped ((y.apply e).2.view p') := by
          obtain hcore | hcore := hcore
          · exact hcore.stopped_iff.mpr hstop
          · exact hcore.stopped_iff.mpr (afterStep_stopped hstop)
        obtain ⟨hnrun, hnwait⟩ := hstop'.status_ne
        obtain hrun | ⟨hwait, -⟩ := hstatus
        · exact absurd hrun hnrun
        · exact absurd hwait hnwait

/-- R187: an ordinary event leaves a starved instance starved. -/
theorem System.apply_keeps_starved (hord : y.ordinary sends e = true) {k : Nat} {n : Node XLEN}
    (hk : y.nodes[k]? = some n) (hs : y.starved sends n = true) :
    ∃ m, (y.apply e).2.nodes[k]? = some m ∧ (y.apply e).2.starved sends m = true := by
  obtain ⟨hw, hun⟩ := System.starved_iff.mp hs
  obtain ⟨m, hm, hin, hw'⟩ := System.apply_keeps_waiting hord hk hw hun
  refine ⟨m, hm, System.starved_iff.mpr ⟨hw', fun b => ?_⟩⟩
  rw [Bool.eq_false_iff, hin]
  intro hb
  obtain ⟨b', hb'⟩ := System.mayFeed_of_apply hord hb
  rw [hun b'] at hb'
  cases hb'

/-- R111: an attempt of a waiting instance is refused or held. -/
theorem System.apply_step_of_waiting {k : Nat} {n : Node XLEN} (hk : y.nodes[k]? = some n)
    (hw : y.status n = .waiting) {o : StepOutcome XLEN}
    (h : (y.apply (.on k .step)).1 = .attempted o) : o = .blocked := by
  obtain happ | ⟨-, -, happ⟩ := System.apply_on_cases .step hk
  · rw [happ] at h
    cases h
  · rw [happ] at h
    cases h
    exact outcome_of_status_waiting hw

end

theorem System.mem_attempts_cons {k : Nat} {e : SysEvent XLEN} {es : List (SysEvent XLEN)}
    {y : System XLEN} {o : StepOutcome XLEN} :
    o ∈ System.attempts k (e :: es) y ↔
      (e = .on k .step ∧ (y.apply e).1 = .attempted o) ∨ o ∈ System.attempts k es (y.apply e).2 := by
  rw [System.attempts]
  cases hr : (y.apply e).1 with
  | attempted o' =>
    by_cases he : e = .on k .step
    · simp [he, eq_comm]
    · simp [he]
  | _ => simp

/-! ## The statement -/

/-- Settles O59: every ordinary event keeps the instance starved, so by induction the schedule does, and
each attempt finds it waiting; a channel the host sends on, or a running instance writes, is fed by a
chain of one link. -/
theorem starvedInstanceStaysWaiting : Obligations.StarvedInstanceStaysWaiting := by
  refine ⟨fun y sends k n es hk hs hord => ?_, fun y sends n ht => ⟨fun hf hsend => ?_, ?_⟩⟩
  · induction es generalizing y n with
    | nil => exact ⟨⟨n, hk, hs⟩, nofun⟩
    | cons e es ih =>
      rw [System.allOrdinary, Bool.and_eq_true] at hord
      obtain ⟨he, hes⟩ := hord
      obtain ⟨m, hm, hs'⟩ := System.apply_keeps_starved he hk hs
      obtain ⟨hend, hrest⟩ := ih _ _ hm hs' hes
      refine ⟨hend, fun o ho => ?_⟩
      obtain ⟨rfl, ho⟩ | ho := System.mem_attempts_cons.mp ho
      · exact System.apply_step_of_waiting hk (System.starved_iff.mp hs).1 ho
      · exact hrest o ho
  · have hfeed := System.mayFeed_succ (b := 0).mpr (.inl ⟨System.producer?_of_feeds hf, hsend⟩)
    rw [Bool.eq_false_iff]
    intro hs
    rw [(System.starved_iff.mp hs).2 1] at hfeed
    cases hfeed
  · intro k p hk hout hrun
    have hprod := System.producer?_outCh ht hk
    rw [hout] at hprod
    have hfeed := System.mayFeed_succ (sends := sends) (b := 0) |>.mpr
      (.inr ⟨k, p, hprod, hk, .inl hrun⟩)
    rw [Bool.eq_false_iff]
    intro hs
    rw [(System.starved_iff.mp hs).2 1] at hfeed
    cases hfeed

end Sys2Proof.Machine
end

section
/-! PROOFS of 47_host_interface.md, section 3: which attempt ends a call of a run mode and what state it
leaves, caller-driven and in a system, then the statements about the two run modes (R180, R181). -/

namespace Sys2Proof.Machine

variable {XLEN : Nat}

/-! ## Which outcomes end a call -/

section
variable {tp : Topology} {t : State XLEN} {o : StepOutcome XLEN}

theorem untilHalted_eq_none :
    untilHalted tp t o = none ↔ o.completed = true ∨ (tp = .concurrent ∧ o = .blocked) := by
  cases o with
  | blocked => cases tp <;> simp [untilHalted, Topology.onHold, StepOutcome.completed]
  | _ => simp [untilHalted, StepOutcome.completed]

theorem untilHalted_eq_halted : untilHalted tp t o = some .halted ↔ o = .halted := by
  cases o with
  | blocked => cases tp <;> simp [untilHalted, Topology.onHold]
  | _ => simp [untilHalted]

theorem untilHalted_eq_blocked :
    untilHalted tp t o = some .blocked ↔ tp = .callerDriven ∧ o = .blocked := by
  cases o with
  | blocked => cases tp <;> simp [untilHalted, Topology.onHold]
  | _ => simp [untilHalted]

/-- The outcome is one of the two of a faulted core. -/
def StepOutcome.isFault : StepOutcome XLEN → Prop
  | .fault _ _ => True
  | .faulted => True
  | _ => False

theorem untilHalted_eq_fault {c : BitVec 3} {f : BitVec 2} :
    untilHalted tp t o = some (.fault c f) ↔ o.isFault ∧ t.FAULT = c ∧ t.FINFO = f := by
  cases o with
  | blocked => cases tp <;> simp [untilHalted, Topology.onHold, StepOutcome.isFault]
  | _ => simp [untilHalted, StepOutcome.isFault]

theorem untilHalted_ne_unfinished : untilHalted tp t o ≠ some .unfinished := by
  cases o with
  | blocked => cases tp <;> simp [untilHalted, Topology.onHold]
  | _ => simp [untilHalted]

theorem untilNextOutput_eq_none :
    untilNextOutput tp t o = none ↔ o = .retired ∨ (tp = .concurrent ∧ o = .blocked) := by
  cases o with
  | blocked => cases tp <;> simp [untilNextOutput, Topology.onHold]
  | _ => simp [untilNextOutput]

theorem untilNextOutput_eq_output {v : Word XLEN} :
    untilNextOutput tp t o = some (.output v) ↔ o = .retiredOutput v := by
  cases o with
  | blocked => cases tp <;> simp [untilNextOutput, Topology.onHold]
  | _ => simp [untilNextOutput]

theorem untilNextOutput_eq_noOutput : untilNextOutput tp t o = some .noOutput ↔ o = .halted := by
  cases o with
  | blocked => cases tp <;> simp [untilNextOutput, Topology.onHold]
  | _ => simp [untilNextOutput]

theorem untilNextOutput_eq_blocked :
    untilNextOutput tp t o = some .blocked ↔ tp = .callerDriven ∧ o = .blocked := by
  cases o with
  | blocked => cases tp <;> simp [untilNextOutput, Topology.onHold]
  | _ => simp [untilNextOutput]

theorem untilNextOutput_eq_fault {c : BitVec 3} {f : BitVec 2} :
    untilNextOutput tp t o = some (.fault c f) ↔ o.isFault ∧ t.FAULT = c ∧ t.FINFO = f := by
  cases o with
  | blocked => cases tp <;> simp [untilNextOutput, Topology.onHold, StepOutcome.isFault]
  | _ => simp [untilNextOutput, StepOutcome.isFault]

theorem untilNextOutput_ne_unfinished : untilNextOutput tp t o ≠ some .unfinished := by
  cases o with
  | blocked => cases tp <;> simp [untilNextOutput, Topology.onHold]
  | _ => simp [untilNextOutput]

end

/-! ## The state an attempt leaves, by its outcome (R112) -/

/-- R112: what each outcome says of the state the attempt is made in and of the one it leaves. -/
theorem outcome_tells (s : State XLEN) :
    match outcome s with
    | .retired => nextOutput s = none
    | .retiredOutput v => nextOutput s = some v
    | .halted => s.FAULT = 0#3 ∧ halted s = true
    | .blocked => status s = .waiting
    | .fault c f => (afterStep s).FAULT ≠ 0#3 ∧ (afterStep s).FAULT = c ∧ (afterStep s).FINFO = f
    | .faulted => s.FAULT ≠ 0#3 := by
  obtain ⟨hf, ho⟩ | ⟨h0, hh, ho⟩ | ⟨h0, hh, hw, ho⟩ | ⟨-, -, hF, ho⟩ | ⟨-, -, -, v, hv, ho⟩ |
    ⟨-, -, -, hv, ho⟩ := outcome_cases s <;> rw [ho]
  · exact hf
  · exact ⟨h0, hh⟩
  · exact status_waiting_iff.mpr ⟨h0, hh, hw⟩
  · exact ⟨hF, rfl, rfl⟩
  · exact hv
  · exact hv

/-- R112: an attempt that raises or finds a fault leaves it latched. -/
theorem latched_of_isFault {s : State XLEN} {c : BitVec 3} {f : BitVec 2} (h : (outcome s).isFault)
    (hF : (afterStep s).FAULT = c) (hI : (afterStep s).FINFO = f) :
    c ≠ 0#3 ∧ (outcome s = .fault c f ∨ outcome s = .faulted) := by
  subst hF hI
  have htells := outcome_tells s
  cases ho : outcome s with
  | fault c' f' =>
    rw [ho] at htells
    obtain ⟨hne, rfl, rfl⟩ := htells
    exact ⟨hne, .inl rfl⟩
  | faulted =>
    rw [ho] at htells
    have hsame : afterStep s = s := stepsFrom_of_faulted htells 1
    exact ⟨by rwa [hsame], .inr rfl⟩
  | _ =>
    rw [ho] at h
    cases h

/-- R112, R162: an attempt that finds the core halted leaves it halted, with FAULT 0. -/
theorem final_of_outcome_halted {s : State} (hinv : s.Inv) (h : outcome s = .halted) :
    (afterStep s).final = true := by
  obtain ⟨-, hip, -⟩ := hinv
  have htells := outcome_tells s
  rw [h] at htells
  obtain ⟨h0, hh⟩ := htells
  rw [afterStep_of_halted h0 hip hh]
  exact State.final_iff.mpr ⟨hh, h0⟩

/-- R111: an attempt that is held leaves the core waiting. -/
theorem waiting_of_outcome_blocked {s : State XLEN} (h : outcome s = .blocked) :
    status (afterStep s) = .waiting := by
  have hs := outcome_tells s
  rw [h] at hs
  obtain ⟨m, hm⟩ := afterStep_of_waiting hs
  have hcore : SameCore s { s with MLEN := m } := ⟨rfl, rfl, rfl, rfl⟩
  rw [hm]
  exact (hcore.waiting_iff rfl).mpr hs

/-- R131: an OUT that completes appends its value to OUTQ. -/
theorem afterStep_OUTQ_of_retiredOutput {s : State XLEN} {v : Word XLEN}
    (h : outcome s = .retiredOutput v) : (afterStep s).OUTQ = s.OUTQ ++ [v] := by
  obtain ⟨-, hout⟩ := afterStep_channels s
  have hv := outcome_tells s
  rw [h] at hv
  rw [hout, hv]
  rfl

/-- R131: no other attempt changes OUTQ. -/
theorem afterStep_OUTQ_of_outcome {s : State XLEN} (h : ∀ v, outcome s ≠ .retiredOutput v) :
    (afterStep s).OUTQ = s.OUTQ := by
  obtain ⟨-, hout⟩ := afterStep_channels s
  cases hv : nextOutput s with
  | none => rwa [hv, Option.toList_none, List.append_nil] at hout
  | some v => exact absurd (nextOutput_reports hv).2 (h v)

theorem stepsFrom_inv {s : State XLEN} (hs : s.Inv) (k : Nat) : (stepsFrom k s).Inv := by
  induction k generalizing s with
  | zero => exact hs
  | succ k ih => exact ih (afterStep_inv hs)

/-- Attempts that complete instructions other than OUT leave OUTQ alone. -/
theorem stepsFrom_OUTQ {s : State XLEN} {k : Nat}
    (h : ∀ i, i < k → outcome (stepsFrom i s) = .retired) : (stepsFrom k s).OUTQ = s.OUTQ := by
  induction k with
  | zero => rfl
  | succ k ih =>
    rw [stepsFrom_succ_last, afterStep_OUTQ_of_outcome fun v => ?_, ih fun i hi => h i (by omega)]
    rw [h k (Nat.lt_succ_self k)]
    exact nofun

/-! ## Caller-driven calls -/

/-- `u` is where the last of at most `k` attempts is made, after attempts whose outcomes all satisfy
`goOn`. -/
def LastAttempt (goOn : StepOutcome XLEN → Prop) (k : Nat) (s u : State XLEN) : Prop :=
  ∃ j, j < k ∧ (∀ i, i < j → goOn (outcome (stepsFrom i s))) ∧ u = stepsFrom j s

theorem callEnds_iff {goOn last : StepOutcome XLEN → Prop} {k : Nat} {s t : State XLEN} :
    callEnds goOn last k s t ↔ ∃ u, LastAttempt goOn k s u ∧ last (outcome u) ∧ t = afterStep u := by
  constructor
  · rintro ⟨j, hj, hgo, hlast, rfl⟩
    exact ⟨_, ⟨j, hj, hgo, rfl⟩, hlast, stepsFrom_succ_last j s⟩
  · rintro ⟨_, ⟨j, hj, hgo, rfl⟩, hlast, rfl⟩
    exact ⟨j, hj, hgo, hlast, (stepsFrom_succ_last j s).symm⟩

theorem LastAttempt.inv {goOn : StepOutcome XLEN → Prop} {k : Nat} {s u : State XLEN}
    (h : LastAttempt goOn k s u) (hs : s.Inv) : u.Inv := by
  obtain ⟨j, -, -, rfl⟩ := h
  exact stepsFrom_inv hs j

theorem LastAttempt.OUTQ_eq {k : Nat} {s u : State XLEN} (h : LastAttempt (· = .retired) k s u) :
    u.OUTQ = s.OUTQ := by
  obtain ⟨j, -, hgo, rfl⟩ := h
  exact stepsFrom_OUTQ hgo

section
variable {ρ : Type} {ends : State XLEN → StepOutcome XLEN → Option ρ} {goOn : StepOutcome XLEN → Prop}
  (hends : ∀ t o, ends t o = none ↔ goOn o)
include hends

/-- R180, R181: a loop ends at the first attempt whose outcome does not let it go on. -/
theorem runLoop_eq_some {k : Nat} {s t : State XLEN} {r : ρ} :
    runLoop ends k s = (some r, t) ↔
      ∃ u, LastAttempt goOn k s u ∧ ends t (outcome u) = some r ∧ t = afterStep u := by
  simp only [runLoop_some, hends]
  constructor
  · rintro ⟨j, hj, hgo, hr, rfl⟩
    exact ⟨_, ⟨j, hj, hgo, rfl⟩, hr, stepsFrom_succ_last j s⟩
  · rintro ⟨_, ⟨j, hj, hgo, rfl⟩, hr, rfl⟩
    exact ⟨j, hj, hgo, hr, (stepsFrom_succ_last j s).symm⟩

theorem runLoop_eq_none {k : Nat} {s t : State XLEN} :
    runLoop ends k s = (none, t) ↔ (∀ i, i < k → goOn (outcome (stepsFrom i s))) ∧ t = stepsFrom k s := by
  simp only [runLoop_none, hends]

end

theorem runUntilHalted_cases {k : Nat} {s t : State XLEN} {r : RunResult}
    (h : runUntilHalted k s = (r, t)) :
    runLoop (untilHalted .callerDriven) k s = (some r, t) ∨
      (r = .unfinished ∧ runLoop (untilHalted .callerDriven) k s = (none, t)) := by
  unfold runUntilHalted at h
  split at h
  · rename_i hl
    cases h
    exact .inl hl
  · rename_i hl
    cases h
    exact .inr ⟨rfl, hl⟩

theorem untilHalted_goOn (t : State XLEN) (o : StepOutcome XLEN) :
    untilHalted .callerDriven t o = none ↔ o.completed = true := by
  simp [untilHalted_eq_none]

theorem untilNextOutput_goOn (t : State XLEN) (o : StepOutcome XLEN) :
    untilNextOutput .callerDriven t o = none ↔ o = .retired := by
  simp [untilNextOutput_eq_none]

/-- R180, caller-driven: the call by its result. -/
theorem runUntilHalted_reports {k : Nat} {s t : State} {r : RunResult} (hs : s.Inv) :
    runUntilHalted k s = (r, t) →
    match r with
    | .halted => t.final = true ∧ callEnds (·.completed = true) (· = .halted) k s t
    | .blocked => status t = .waiting ∧ callEnds (·.completed = true) (· = .blocked) k s t
    | .fault c f => c ≠ 0#3 ∧ t.FAULT = c ∧ t.FINFO = f ∧
        callEnds (·.completed = true) (fun o => o = .fault c f ∨ o = .faulted) k s t
    | .unfinished => t = stepsFrom k s ∧ ∀ i, i < k → (outcome (stepsFrom i s)).completed = true := by
  intro h
  obtain hl | ⟨rfl, hl⟩ := runUntilHalted_cases h
  · obtain ⟨u, hu, hr, rfl⟩ := (runLoop_eq_some untilHalted_goOn).mp hl
    cases r with
    | halted =>
      have ho := untilHalted_eq_halted.mp hr
      exact ⟨final_of_outcome_halted (hu.inv hs) ho, callEnds_iff.mpr ⟨u, hu, ho, rfl⟩⟩
    | blocked =>
      obtain ⟨-, ho⟩ := untilHalted_eq_blocked.mp hr
      exact ⟨waiting_of_outcome_blocked ho, callEnds_iff.mpr ⟨u, hu, ho, rfl⟩⟩
    | fault c f =>
      obtain ⟨hf, hF, hI⟩ := untilHalted_eq_fault.mp hr
      obtain ⟨hne, ho⟩ := latched_of_isFault hf hF hI
      exact ⟨hne, hF, hI, callEnds_iff.mpr ⟨u, hu, ho, rfl⟩⟩
    | unfinished => exact absurd hr untilHalted_ne_unfinished
  · obtain ⟨hgo, ht⟩ := (runLoop_eq_none untilHalted_goOn).mp hl
    exact ⟨ht, hgo⟩

/-- R181, caller-driven: the call that returns an output. -/
theorem runUntilNextOutput_eq_output {own : Bool} {k : Nat} {s t : State XLEN} {v : Word XLEN} :
    runUntilNextOutput own k s = (.output v, t) ↔
      ∃ u, LastAttempt (· = .retired) k s u ∧ outcome u = .retiredOutput v ∧
        t = (afterStep u).takeProduced own := by
  have hloop (u : State XLEN) : runLoop (untilNextOutput .callerDriven) k s = (some (.output v), u) ↔
      ∃ w, LastAttempt (· = .retired) k s w ∧ outcome w = .retiredOutput v ∧ u = afterStep w := by
    simp only [runLoop_eq_some untilNextOutput_goOn, untilNextOutput_eq_output]
  constructor
  · intro h
    unfold runUntilNextOutput at h
    split at h
    · rename_i w u hl
      cases h
      obtain ⟨w, hw, ho, rfl⟩ := (hloop _).mp hl
      exact ⟨w, hw, ho, rfl⟩
    · rename_i r u hne hl
      cases h
      exact absurd rfl (hne v)
    · cases h
  · rintro ⟨u, hu, ho, rfl⟩
    rw [runUntilNextOutput, (hloop _).mpr ⟨u, hu, ho, rfl⟩]

/-- R181, caller-driven: the loop of a call that returns anything else. -/
theorem runUntilNextOutput_cases {own : Bool} {k : Nat} {s t : State XLEN} {r : NextOutputResult XLEN}
    (h : runUntilNextOutput own k s = (r, t)) (hne : ∀ v, r ≠ .output v) :
    runLoop (untilNextOutput .callerDriven) k s = (some r, t) ∨
      (r = .unfinished ∧ runLoop (untilNextOutput .callerDriven) k s = (none, t)) := by
  unfold runUntilNextOutput at h
  split at h
  · rename_i v u hl
    cases h
    exact absurd rfl (hne v)
  · rename_i hl
    cases h
    exact .inl hl
  · rename_i hl
    cases h
    exact .inr ⟨rfl, hl⟩

theorem takeProduced_OUTQ {own : Bool} {s : State XLEN} {q : List (Word XLEN)} {v : Word XLEN}
    (h : s.OUTQ = q ++ [v]) : (s.takeProduced own).OUTQ = if own then q else q ++ [v] := by
  cases own <;> simp [State.takeProduced, h]

/-- R181, caller-driven: the call by its result. -/
theorem runUntilNextOutput_reports {own : Bool} {k : Nat} {s t : State} {r : NextOutputResult}
    (hs : s.Inv) : runUntilNextOutput own k s = (r, t) →
    match r with
    | .output v => t.OUTQ = if own then s.OUTQ else s.OUTQ ++ [v]
    | .noOutput => t.OUTQ = s.OUTQ ∧ t.final = true ∧ callEnds (· = .retired) (· = .halted) k s t
    | .fault c f => t.OUTQ = s.OUTQ ∧ t.FAULT = c ∧ t.FINFO = f ∧ c ≠ 0#3 ∧
        callEnds (· = .retired) (fun o => o = .fault c f ∨ o = .faulted) k s t
    | .blocked => t.OUTQ = s.OUTQ ∧ status t = .waiting ∧
        callEnds (· = .retired) (· = .blocked) k s t
    | .unfinished => t.OUTQ = s.OUTQ ∧ t = stepsFrom k s ∧
        ∀ i, i < k → outcome (stepsFrom i s) = .retired := by
  intro h
  by_cases hout : ∃ v, r = .output v
  · obtain ⟨v, rfl⟩ := hout
    obtain ⟨u, hu, ho, rfl⟩ := runUntilNextOutput_eq_output.mp h
    refine takeProduced_OUTQ ?_
    rw [afterStep_OUTQ_of_retiredOutput ho, hu.OUTQ_eq]
  · obtain hl | ⟨rfl, hl⟩ := runUntilNextOutput_cases h fun v hv => hout ⟨v, hv⟩
    · obtain ⟨u, hu, hr, rfl⟩ := (runLoop_eq_some untilNextOutput_goOn).mp hl
      have hq : (afterStep u).OUTQ = s.OUTQ := by
        rw [afterStep_OUTQ_of_outcome fun v ho => ?_, hu.OUTQ_eq]
        rw [untilNextOutput_eq_output.mpr ho] at hr
        exact hout ⟨v, (Option.some.inj hr).symm⟩
      cases r with
      | output v => exact absurd ⟨v, rfl⟩ hout
      | noOutput =>
        have ho := untilNextOutput_eq_noOutput.mp hr
        exact ⟨hq, final_of_outcome_halted (hu.inv hs) ho, callEnds_iff.mpr ⟨u, hu, ho, rfl⟩⟩
      | blocked =>
        obtain ⟨-, ho⟩ := untilNextOutput_eq_blocked.mp hr
        exact ⟨hq, waiting_of_outcome_blocked ho, callEnds_iff.mpr ⟨u, hu, ho, rfl⟩⟩
      | fault c f =>
        obtain ⟨hf, hF, hI⟩ := untilNextOutput_eq_fault.mp hr
        obtain ⟨hne, ho⟩ := latched_of_isFault hf hF hI
        exact ⟨hq, hF, hI, hne, callEnds_iff.mpr ⟨u, hu, ho, rfl⟩⟩
      | unfinished => exact absurd hr untilNextOutput_ne_unfinished
    · obtain ⟨hgo, rfl⟩ := (runLoop_eq_none untilNextOutput_goOn).mp hl
      exact ⟨stepsFrom_OUTQ hgo, rfl, hgo⟩

/-! ## Calls in a system -/

section
variable {y z : System XLEN} {k : Nat}

/-- An attempt of instance `k` that is carried out: its outcome, and the node it leaves. -/
theorem System.attempt_cases {o : StepOutcome XLEN} (h : y.apply (.on k .step) = (.attempted o, z)) :
    ∃ n, y.topologyOk = true ∧ y.nodes[k]? = some n ∧ o = outcome (y.view n) ∧
      z.nodes[k]? = some (n.withState (afterStep (y.view n))) := by
  obtain hr | ⟨k', op, n, he, ht, hk, -, hr⟩ | ⟨Ps, w, he, -⟩ := y.apply_cases (.on k .step)
  · cases hr.symm.trans h
  · cases he
    cases hr.symm.trans h
    exact ⟨n, ht, hk, rfl, System.putBack_self _ hk⟩
  · cases he

theorem System.endedBy_eq_some {ρ : Type} {ends : State XLEN → StepOutcome XLEN → Option ρ}
    {e : SysEvent XLEN} {r : ρ} :
    System.endedBy k ends y e = some r ↔
      e = .on k .step ∧ ∃ o n, (y.apply e).1 = .attempted o ∧ (y.apply e).2.nodes[k]? = some n ∧
        ends ((y.apply e).2.view n) o = some r := by
  unfold System.endedBy
  cases ho : (y.apply e).1 with
  | attempted o =>
    cases hn : (y.apply e).2.nodes[k]? with
    | none => simp
    | some n => by_cases he : e = .on k .step <;> simp [he]
  | _ => simp

end

section
variable {ρ : Type} {ends : State XLEN → StepOutcome XLEN → Option ρ} {goOn : StepOutcome XLEN → Prop}
  (hends : ∀ t o, ends t o = none ↔ goOn o)
include hends

/-- An event does not end a call exactly if it is no attempt of the instance, or one that goes on. -/
theorem System.endedBy_eq_none {y : System XLEN} {k : Nat} {e : SysEvent XLEN} :
    System.endedBy k ends y e = none ↔
      ∀ o, e = .on k .step → (y.apply e).1 = .attempted o → goOn o := by
  constructor
  · rintro h o rfl ho
    obtain ⟨n, -, -, -, hn⟩ := System.attempt_cases (Prod.ext ho rfl)
    rw [← hends ((y.apply (.on k .step)).2.view _) o]
    simpa [System.endedBy, ho, hn] using h
  · intro h
    rw [Option.eq_none_iff_forall_not_mem]
    intro r hr
    obtain ⟨he, o, n, ho, -, hr⟩ := System.endedBy_eq_some.mp hr
    rw [(hends _ _).mpr (h o he ho)] at hr
    cases hr

/-- No event of a schedule ends a call exactly if every attempt of the instance in it goes on. -/
theorem System.no_event_ends_iff {k : Nat} {es : List (SysEvent XLEN)} {y : System XLEN} :
    (∀ b c after, es = b ++ c :: after → System.endedBy k ends (y.run b).2 c = none) ↔
      ∀ o ∈ System.attempts k es y, goOn o := by
  induction es generalizing y with
  | nil => simp [System.attempts]
  | cons e es ih =>
    have hfirst := System.endedBy_eq_none hends (y := y) (k := k) (e := e)
    constructor
    · intro h o ho
      obtain ⟨he, ho⟩ | ho := System.mem_attempts_cons.mp ho
      · exact hfirst.mp (h [] e es rfl) o he ho
      · exact ih.mp (fun b c after hes => h (e :: b) c after (by rw [hes]; rfl)) o ho
    · intro h b c after hes
      cases b with
      | nil =>
        cases hes
        exact hfirst.mpr fun o he ho => h o (System.mem_attempts_cons.mpr (.inl ⟨he, ho⟩))
      | cons d b =>
        cases hes
        exact ih.mpr (fun o ho => h o (System.mem_attempts_cons.mpr (.inr ho))) b c after rfl

/-- R180, R181: a call on an instance ends at its first attempt whose outcome does not let it go on. -/
theorem System.runCall_eq_some {k : Nat} {es rest : List (SysEvent XLEN)} {y z : System XLEN} {r : ρ} :
    System.runCall k ends es y = (some r, z, rest) ↔
      ∃ before o n, es = before ++ .on k .step :: rest ∧ (∀ p ∈ System.attempts k before y, goOn p) ∧
        (y.run before).2.apply (.on k .step) = (.attempted o, z) ∧ z.nodes[k]? = some n ∧
        ends (z.view n) o = some r := by
  simp only [System.runCall_some, System.no_event_ends_iff hends, System.endedBy_eq_some]
  constructor
  · rintro ⟨before, e, hes, hgo, ⟨rfl, o, n, ho, hn, hr⟩, rfl⟩
    exact ⟨before, o, n, hes, hgo, Prod.ext ho rfl, hn, hr⟩
  · rintro ⟨before, o, n, hes, hgo, happ, hn, hr⟩
    refine ⟨before, _, hes, hgo, ⟨rfl, o, n, ?_⟩, ?_⟩
    · rw [happ]
      exact ⟨rfl, hn, hr⟩
    · rw [happ]

theorem System.runCall_eq_none {k : Nat} {es rest : List (SysEvent XLEN)} {y z : System XLEN}
    (h : System.runCall k ends es y = (none, z, rest)) :
    rest = [] ∧ z = (y.run es).2 ∧ ∀ o ∈ System.attempts k es y, goOn o := by
  obtain ⟨hrest, hz, hnone⟩ := System.runCall_none h
  exact ⟨hrest, hz, (System.no_event_ends_iff hends).mp hnone⟩

end

/-- R200: the latch of an instance after an attempt of its own that raised or found a fault. -/
theorem System.latched_of_attempt {y z : System XLEN} {k : Nat} {o : StepOutcome XLEN} {n : Node XLEN}
    {c : BitVec 3} {f : BitVec 2} (h : y.apply (.on k .step) = (.attempted o, z))
    (hn : z.nodes[k]? = some n) (hf : o.isFault) (hF : (z.view n).FAULT = c)
    (hI : (z.view n).FINFO = f) :
    (∃ n, z.nodes[k]? = some n ∧ n.own.FAULT = c ∧ n.own.FINFO = f) ∧ c ≠ 0#3 ∧
      (o = .fault c f ∨ o = .faulted) := by
  obtain ⟨m, -, -, rfl, hz⟩ := System.attempt_cases h
  obtain rfl := Option.some.inj (hz.symm.trans hn)
  exact ⟨⟨_, hn, hF, hI⟩, latched_of_isFault hf hF hI⟩

theorem System.runUntilHalted_cases {k : Nat} {es rest : List (SysEvent XLEN)} {y z : System XLEN}
    {r : RunResult} (h : y.runUntilHalted k es = (r, z, rest)) :
    System.runCall k (untilHalted .concurrent) es y = (some r, z, rest) ∨
      (r = .unfinished ∧ System.runCall k (untilHalted .concurrent) es y = (none, z, rest)) := by
  unfold System.runUntilHalted at h
  split at h
  · rename_i hl
    cases h
    exact .inl hl
  · rename_i hl
    cases h
    exact .inr ⟨rfl, hl⟩

theorem untilHalted_waits (t : State XLEN) (o : StepOutcome XLEN) :
    untilHalted .concurrent t o = none ↔ o.completed = true ∨ o = .blocked := by
  simp [untilHalted_eq_none]

theorem untilNextOutput_waits (t : State XLEN) (o : StepOutcome XLEN) :
    untilNextOutput .concurrent t o = none ↔ o = .retired ∨ o = .blocked := by
  simp [untilNextOutput_eq_none]

/-- R180, concurrent: the call by its result. -/
theorem System.runUntilHalted_reports {k : Nat} {es rest : List SysEvent} {y z : System} {r : RunResult} :
    y.runUntilHalted k es = (r, z, rest) →
    match r with
    | .halted =>
        y.callEnds k (fun o => o.completed = true ∨ o = .blocked) (· = .halted) es z rest
    | .blocked => False
    | .fault c f => (∃ n, z.nodes[k]? = some n ∧ n.own.FAULT = c ∧ n.own.FINFO = f) ∧ c ≠ 0#3 ∧
        y.callEnds k (fun o => o.completed = true ∨ o = .blocked)
          (fun o => o = .fault c f ∨ o = .faulted) es z rest
    | .unfinished => rest = [] ∧ z = (y.run es).2 ∧
        ∀ o ∈ y.attempts k es, o.completed = true ∨ o = .blocked := by
  intro h
  obtain hl | ⟨rfl, hl⟩ := System.runUntilHalted_cases h
  · obtain ⟨before, o, n, hes, hgo, happ, hn, hr⟩ := (System.runCall_eq_some untilHalted_waits).mp hl
    cases r with
    | halted => exact ⟨before, o, hes, hgo, untilHalted_eq_halted.mp hr, happ⟩
    | blocked => cases (untilHalted_eq_blocked.mp hr).1
    | fault c f =>
      obtain ⟨hf, hF, hI⟩ := untilHalted_eq_fault.mp hr
      obtain ⟨hnode, hne, ho⟩ := System.latched_of_attempt happ hn hf hF hI
      exact ⟨hnode, hne, before, o, hes, hgo, ho, happ⟩
    | unfinished => exact absurd hr untilHalted_ne_unfinished
  · exact System.runCall_eq_none untilHalted_waits hl

/-- R181, concurrent: the call that returns an output. -/
theorem System.runUntilNextOutput_eq_output {k : Nat} {es rest : List (SysEvent XLEN)}
    {y z : System XLEN} {v : Word XLEN} :
    y.runUntilNextOutput k es = (.output v, z, rest) ↔
      ∃ u, y.callEnds k (fun o => o = .retired ∨ o = .blocked) (· = .retiredOutput v) es u rest ∧
        z = u.takeProduced k := by
  have hcall (u : System XLEN) :
      System.runCall k (untilNextOutput .concurrent) es y = (some (.output v), u, rest) ↔
        y.callEnds k (fun o => o = .retired ∨ o = .blocked) (· = .retiredOutput v) es u rest := by
    simp only [System.runCall_eq_some untilNextOutput_waits, untilNextOutput_eq_output,
      System.callEnds]
    constructor
    · rintro ⟨before, o, n, hes, hgo, happ, -, ho⟩
      exact ⟨before, o, hes, hgo, ho, happ⟩
    · rintro ⟨before, o, hes, hgo, ho, happ⟩
      obtain ⟨n, -, -, -, hn⟩ := System.attempt_cases happ
      exact ⟨before, o, _, hes, hgo, happ, hn, ho⟩
  constructor
  · intro h
    unfold System.runUntilNextOutput at h
    split at h
    · rename_i hl
      cases h
      exact ⟨_, (hcall _).mp hl, rfl⟩
    · rename_i hne hl
      cases h
      exact absurd rfl (hne v)
    · cases h
  · rintro ⟨u, hu, rfl⟩
    rw [System.runUntilNextOutput, (hcall u).mpr hu]

/-- R181, concurrent: the loop of a call that returns anything else. -/
theorem System.runUntilNextOutput_cases {k : Nat} {es rest : List (SysEvent XLEN)}
    {y z : System XLEN} {r : NextOutputResult XLEN} (h : y.runUntilNextOutput k es = (r, z, rest))
    (hne : ∀ v, r ≠ .output v) :
    System.runCall k (untilNextOutput .concurrent) es y = (some r, z, rest) ∨
      (r = .unfinished ∧ System.runCall k (untilNextOutput .concurrent) es y = (none, z, rest)) := by
  unfold System.runUntilNextOutput at h
  split at h
  · cases h
    exact absurd rfl (hne _)
  · rename_i hl
    cases h
    exact .inl hl
  · rename_i hl
    cases h
    exact .inr ⟨rfl, hl⟩

/-- R131: an attempt that outputs `v` leaves `v` at the end of the instance's output channel. -/
theorem System.chan_outCh_of_output {y u : System XLEN} {k : Nat} {v : Word XLEN}
    (h : y.apply (.on k .step) = (.attempted (.retiredOutput v), u)) :
    ∃ n q, u.nodes[k]? = some n ∧ n.outCh < u.chans.length ∧ u.chan n.outCh = q ++ [v] := by
  obtain ⟨n, ht, hk, ho, hn⟩ := System.attempt_cases h
  refine ⟨_, y.chan n.outCh, hn, ?_, ?_⟩
  · obtain rfl : y.putBack k n (afterStep (y.view n)) = u :=
      (Prod.ext_iff.mp ((System.apply_on ht hk rfl).symm.trans h)).2
    rw [System.putBack_length]
    exact (System.topologyOk_lt ht hk).2
  · have hv := outcome_tells (y.view n)
    rw [← ho] at hv
    obtain ⟨hin, -⟩ := afterStep_channels (y.view n)
    rw [(nextOutput_reports hv).1] at hin
    obtain ⟨hchan, -⟩ := System.apply_chan_out (op := .step) ht hk rfl hin.symm
    rw [h] at hchan
    exact hchan.trans (afterStep_OUTQ_of_retiredOutput ho.symm)

/-- R181: the call takes its value from the instance's output channel if the host is the consumer. -/
theorem System.takeProduced_reports {u : System XLEN} {k : Nat} {n : Node XLEN} {q : List (Word XLEN)}
    {v : Word XLEN} (hn : u.nodes[k]? = some n) (hlt : n.outCh < u.chans.length)
    (hq : u.chan n.outCh = q ++ [v]) :
    (u.takeProduced k).nodes[k]? = some n ∧
      (u.takeProduced k).chan n.outCh =
        if n.outCh ∈ (u.takeProduced k).hostTakes then q else q ++ [v] := by
  by_cases hown : n.outCh ∈ u.hostTakes
  · have ht : u.takeProduced k =
        { u with chans := u.chans.set n.outCh (u.chan n.outCh).dropLast } := by
      simp [System.takeProduced, hn, hown]
    rw [ht, if_pos hown, hq, List.dropLast_concat]
    exact ⟨hn, by simp [System.chan, hlt]⟩
  · have ht : u.takeProduced k = u := by simp [System.takeProduced, hn, hown]
    rw [ht, if_neg hown]
    exact ⟨hn, hq⟩

/-- R181, concurrent: the call by its result. -/
theorem System.runUntilNextOutput_reports {k : Nat} {es rest : List SysEvent} {y z : System}
    {r : NextOutputResult} : y.runUntilNextOutput k es = (r, z, rest) →
    match r with
    | .output v => ∃ (n : Node) (q : List Word) (u : System), z.nodes[k]? = some n ∧
        z = u.takeProduced k ∧ u.chan n.outCh = q ++ [v] ∧
        z.chan n.outCh = if n.outCh ∈ z.hostTakes then q else q ++ [v]
    | .noOutput => y.callEnds k (fun o => o = .retired ∨ o = .blocked) (· = .halted) es z rest
    | .fault c f => (∃ n, z.nodes[k]? = some n ∧ n.own.FAULT = c ∧ n.own.FINFO = f) ∧ c ≠ 0#3 ∧
        y.callEnds k (fun o => o = .retired ∨ o = .blocked)
          (fun o => o = .fault c f ∨ o = .faulted) es z rest
    | .blocked => False
    | .unfinished => rest = [] ∧ z = (y.run es).2 ∧
        ∀ o ∈ y.attempts k es, o = .retired ∨ o = .blocked := by
  intro h
  by_cases hout : ∃ v, r = .output v
  · obtain ⟨v, rfl⟩ := hout
    obtain ⟨u, ⟨before, o, -, -, rfl, happ⟩, rfl⟩ := System.runUntilNextOutput_eq_output.mp h
    obtain ⟨n, q, hn, hlt, hq⟩ := System.chan_outCh_of_output happ
    obtain ⟨hn', hz⟩ := System.takeProduced_reports hn hlt hq
    exact ⟨n, q, u, hn', rfl, hq, hz⟩
  · obtain hl | ⟨rfl, hl⟩ := System.runUntilNextOutput_cases h fun v hv => hout ⟨v, hv⟩
    · obtain ⟨before, o, n, hes, hgo, happ, hn, hr⟩ :=
        (System.runCall_eq_some untilNextOutput_waits).mp hl
      cases r with
      | output v => exact absurd ⟨v, rfl⟩ hout
      | noOutput => exact ⟨before, o, hes, hgo, untilNextOutput_eq_noOutput.mp hr, happ⟩
      | blocked => cases (untilNextOutput_eq_blocked.mp hr).1
      | fault c f =>
        obtain ⟨hf, hF, hI⟩ := untilNextOutput_eq_fault.mp hr
        obtain ⟨hnode, hne, ho⟩ := System.latched_of_attempt happ hn hf hF hI
        exact ⟨hnode, hne, before, o, hes, hgo, ho, happ⟩
      | unfinished => exact absurd hr untilNextOutput_ne_unfinished
    · exact System.runCall_eq_none untilNextOutput_waits hl

/-! ## The statements -/

/-- Settles O54: both loops end at the first attempt that completes nothing, but that the concurrent one
waits on a hold. -/
theorem runUntilHaltedReportsTheState : Obligations.RunUntilHaltedReportsTheState :=
  ⟨fun _ _ _ _ => runUntilHalted_reports, fun _ _ _ _ _ _ => System.runUntilHalted_reports⟩

/-- Settles O55: both loops end at the first OUT to complete or at the first attempt that completes
nothing, but that the concurrent one waits on a hold. -/
theorem runUntilNextOutputStopsAtTheFirstOutput :
    Obligations.RunUntilNextOutputStopsAtTheFirstOutput := by
  refine ⟨fun own k s t v => ?_, fun _ _ _ _ _ => runUntilNextOutput_reports,
    fun _ _ _ _ _ _ => System.runUntilNextOutput_eq_output,
    fun _ _ _ _ _ _ => System.runUntilNextOutput_reports⟩
  rw [runUntilNextOutput_eq_output]
  constructor
  · rintro ⟨u, hu, ho, rfl⟩
    exact ⟨_, callEnds_iff.mpr ⟨u, hu, ho, rfl⟩, rfl⟩
  · rintro ⟨w, hw, rfl⟩
    obtain ⟨u, hu, ho, rfl⟩ := callEnds_iff.mp hw
    exact ⟨u, hu, ho, rfl⟩

end Sys2Proof.Machine
end
